-- ==== Sys2Proof/Word.lean ====
section
/-! DEFINITION. The two word types of the engine: memory bytes and 32-bit registers (00_scope.md R7). -/

namespace Sys2Proof

/-- A memory byte (20_memory.md R70). -/
abbrev Byte := BitVec 8

/-- A control register, a command word or an address: 32 bits (00_scope.md R7). -/
abbrev Word := BitVec 32

end Sys2Proof
end

