-- ==== Sys2Proof/Syntax.lean ====
section
/-! DEFINITION. The commands of the engine (30_encoding.md R93, one constructor per row of
opcode_table.json), the names of its control registers (10_state.md R23), and the accesses of the host,
whose ordered sequence is the program (00_scope.md R3, 10_state.md R21). -/

namespace Sys2Proof

/-- TSEL: which staging table (30_encoding.md R92). -/
inductive Table where
  | pat
  | pmt
  | psm
  deriving DecidableEq, Repr

/-- LAYOUT of `PES_READ` (30_encoding.md R93). -/
inductive Layout where
  | mpeg2
  | mpeg1
  | auto
  deriving DecidableEq, Repr

/-- SEL of `TS_ENC`: which timestamp register (30_encoding.md R93). -/
inductive Stamp where
  | pts
  | dts
  deriving DecidableEq, Repr

/-- The commands (30_encoding.md R93). -/
inductive Instr where
  /-- `NOP` (44_control.md R270). -/
  | nop
  /-- `CRC_RUN` (40_crc.md R142). -/
  | crcRun (init : Bool)
  /-- `CRC_CHECK` (40_crc.md R143). -/
  | crcCheck
  /-- `CRC_SEAL` (40_crc.md R144). -/
  | crcSeal
  /-- `CUR_INIT` (41_cursor.md R162). -/
  | curInit
  /-- `CUR_READ` (41_cursor.md R163); NBITS is legal in 1..64 (`Instr.wf`). -/
  | curRead (nbits : BitVec 7)
  /-- `CUR_SKIP` (41_cursor.md R164). -/
  | curSkip (count : BitVec 24)
  /-- `CUR_SEEK` (41_cursor.md R165). -/
  | curSeek (target : BitVec 24)
  /-- `TS_ENC` (42_pes.md R185). -/
  | tsEnc (sel : Stamp) (pfx : BitVec 4)
  /-- `TS_DEC` (42_pes.md R186). -/
  | tsDec
  /-- `PES_WRITE` (42_pes.md R190). -/
  | pesWrite (unb : Bool)
  /-- `PES_READ` (42_pes.md R200). -/
  | pesRead (layout : Layout)
  /-- `PAT_WRITE` (43_psi.md R233). -/
  | patWrite
  /-- `PAT_READ` (43_psi.md R241). -/
  | patRead
  /-- `PMT_WRITE` (43_psi.md R235). -/
  | pmtWrite
  /-- `PMT_READ` (43_psi.md R246). -/
  | pmtRead
  /-- `PSM_WRITE` (43_psi.md R237). -/
  | psmWrite
  /-- `PSM_READ` (43_psi.md R251). -/
  | psmRead
  /-- `TBL_CLEAR` (43_psi.md R220); IDX is 0 in every legal word. -/
  | tblClear (t : Table)
  /-- `TBL_ADD` (43_psi.md R221); IDX is 0 in every legal word. -/
  | tblAdd (t : Table)
  /-- `TBL_GET` (43_psi.md R222). -/
  | tblGet (t : Table) (idx : BitVec 16)
  deriving DecidableEq, Repr

/-- The control registers, in the order of 10_state.md R23. -/
inductive Reg where
  | cmd | status | srcAddr | srcLen | dstAddr | dstCap | result | resultHi
  | crcSeed | crcAcc
  | curBase0 | curLen0 | curBase1 | curLen1 | curPos | curTotal
  | pesSid | pesPktlen | pesFlags | pesOpt | pesHdrlen
  | ptsLo | ptsHi | dtsLo | dtsHi | escrLo | escrHi | esRate | trick | addcopy | prevCrc | stdBuf
  | pesPayloadLen
  | patTsid | patVer | patCount
  | pmtProg | pmtVer | pmtPcrPid | pmtPinfoAddr | pmtPinfoLen | pmtCount
  | psmVer | psmPinfoAddr | psmPinfoLen | psmCount
  | entA | entB | entAddr | entLen
  deriving DecidableEq, Repr

/-- Access column of 10_state.md R23. -/
inductive Access where
  /-- RW: the host reads and writes. -/
  | rw
  /-- RO: a host write is ignored. -/
  | ro
  /-- STATUS: a host write clears MARKER_ERR by bit 5 and changes nothing else (10_state.md R24). -/
  | w1c
  /-- CMD: a host write launches a command (10_state.md R25). -/
  | launch
  deriving DecidableEq, Repr

/-- One access of the host, or a reset by the platform. The program is the host's ordered sequence of
these (00_scope.md R3, 20_memory.md R81). Register offsets lie in the 9-bit space `0x000..0x1FF` of
10_state.md R22 (log 10); `width` is the access width in bytes, and R22 allows only whole aligned words. -/
inductive HostEvent where
  /-- The host writes `v` at a register offset (44_control.md R272). -/
  | regWrite (width : Nat) (offset : BitVec 9) (v : Word)
  /-- The host reads a register offset (44_control.md R273). -/
  | regRead (width : Nat) (offset : BitVec 9)
  /-- The host writes bytes through its own memory port (20_memory.md R70; `mem` of 30_encoding.md R96). -/
  | memWrite (addr : Word) (bytes : List Byte)
  /-- The host reads bytes through its own memory port (20_memory.md R70). -/
  | memRead (addr : Word) (len : Nat)
  /-- The platform asserts reset, between commands (70_reset_and_hazards.md R300). -/
  | reset
  deriving DecidableEq, Repr

/-- What a read of the host returned (the model's own record, log 6). -/
inductive HostData where
  | reg (offset : BitVec 9) (v : Word)
  | mem (addr : Word) (bytes : List Byte)
  deriving DecidableEq, Repr

end Sys2Proof
end

