-- ==== Sys2Proof/WellFormed.lean ====
section
/-! DEFINITION. Which terms of `Instr` stand for a legal command word (30_encoding.md R92, R94). LAYOUT and
TSEL are inductive types without their reserved value 3, and IDX of `TBL_CLEAR` and `TBL_ADD` is no field,
so the one check left is the range of NBITS. -/

namespace Sys2Proof

/-- "its legal values are 1 to 64" (30_encoding.md R92). -/
def legalNbits (n : BitVec 7) : Bool :=
  decide (1 ≤ n.toNat) && decide (n.toNat ≤ 64)

/-- A well-formed command: one that some legal word names (30_encoding.md R94). -/
def Instr.wf : Instr → Bool
  | .nop => true
  | .crcRun _ => true
  | .crcCheck => true
  | .crcSeal => true
  | .curInit => true
  | .curRead n => legalNbits n
  | .curSkip _ => true
  | .curSeek _ => true
  | .tsEnc _ _ => true
  | .tsDec => true
  | .pesWrite _ => true
  | .pesRead _ => true
  | .patWrite => true
  | .patRead => true
  | .pmtWrite => true
  | .pmtRead => true
  | .psmWrite => true
  | .psmRead => true
  | .tblClear _ => true
  | .tblAdd _ => true
  | .tblGet _ _ => true

end Sys2Proof
end

