-- ==== Sys2Proof/Decode.lean ====
section
/-! DEFINITION. Command words (30_encoding.md Part A): the decoder (R90 to R95), the encoder written from the
same tables, the rows of opcode_table.json, and the assembler notation with its pseudo-instructions
(R96, R97). -/

namespace Sys2Proof

/-- Why a word names no command (30_encoding.md R95). The engine reports all three alike
(44_control.md R271). -/
inductive IllegalWord where
  /-- "Every OPCODE not in rule R93 is illegal." -/
  | unassignedOpcode
  /-- "a nonzero reserved bit" -/
  | reservedBit
  /-- "a reserved field value" -/
  | reservedField
  deriving DecidableEq, Repr

/-! ### Field values -/

/-- TSEL: 0 = PAT, 1 = PMT, 2 = PSM, 3 = reserved (R92). -/
def tableOfBits (b : BitVec 2) : Option Table :=
  if b = 0 then some .pat else if b = 1 then some .pmt else if b = 2 then some .psm else none

/-- The TSEL bits of a table. -/
def bitsOfTable : Table → BitVec 2
  | .pat => 0
  | .pmt => 1
  | .psm => 2

/-- LAYOUT: 0 = MPEG-2, 1 = MPEG-1, 2 = auto, 3 = reserved (R93). -/
def layoutOfBits (b : BitVec 2) : Option Layout :=
  if b = 0 then some .mpeg2 else if b = 1 then some .mpeg1 else if b = 2 then some .auto else none

/-- The LAYOUT bits. -/
def bitsOfLayout : Layout → BitVec 2
  | .mpeg2 => 0
  | .mpeg1 => 1
  | .auto => 2

/-- SEL: 0 = PTS, 1 = DTS (R93). -/
def stampOfBit (b : Bool) : Stamp := if b then .dts else .pts

/-- The SEL bit. -/
def bitOfStamp : Stamp → Bool
  | .pts => false
  | .dts => true

/-! ### The decoder -/

/-- Format N: bits 23:0 reserved (R91). -/
def decodeN (w : Word) (i : Instr) : Except IllegalWord Instr :=
  if w.extractLsb' 0 24 = 0 then .ok i else .error .reservedBit

/-- Format F1: bit 0 FLAG, bits 23:1 reserved (R91). -/
def decodeF1 (w : Word) (f : Bool → Instr) : Except IllegalWord Instr :=
  if w.extractLsb' 1 23 = 0 then .ok (f (w.getLsbD 0)) else .error .reservedBit

/-- Format F2: bits 1:0 LAYOUT, bits 23:2 reserved (R91). -/
def decodeF2 (w : Word) (f : Layout → Instr) : Except IllegalWord Instr :=
  if w.extractLsb' 2 22 = 0 then
    match layoutOfBits (w.extractLsb' 0 2) with
    | some l => .ok (f l)
    | none => .error .reservedField
  else .error .reservedBit

/-- Format F5: bit 4 SEL, bits 3:0 PREFIX, bits 23:5 reserved (R91). -/
def decodeF5 (w : Word) (f : Stamp → BitVec 4 → Instr) : Except IllegalWord Instr :=
  if w.extractLsb' 5 19 = 0 then .ok (f (stampOfBit (w.getLsbD 4)) (w.extractLsb' 0 4))
  else .error .reservedBit

/-- Format B: bits 6:0 NBITS, legal in 1..64, bits 23:7 reserved (R91, R94). -/
def decodeB (w : Word) (f : BitVec 7 → Instr) : Except IllegalWord Instr :=
  if w.extractLsb' 7 17 = 0 then
    if legalNbits (w.extractLsb' 0 7) then .ok (f (w.extractLsb' 0 7)) else .error .reservedField
  else .error .reservedBit

/-- Format I: bits 23:0 IMM24 (R91). -/
def decodeI (w : Word) (f : BitVec 24 → Instr) : Except IllegalWord Instr :=
  .ok (f (w.extractLsb' 0 24))

/-- Format T: bits 17:16 TSEL, bits 15:0 IDX, bits 23:18 reserved (R91). -/
def decodeT (w : Word) (f : Table → BitVec 16 → Except IllegalWord Instr) :
    Except IllegalWord Instr :=
  if w.extractLsb' 18 6 = 0 then
    match tableOfBits (w.extractLsb' 16 2) with
    | some t => f t (w.extractLsb' 0 16)
    | none => .error .reservedField
  else .error .reservedBit

/-- "IDX = 0 for `TBL_CLEAR` and `TBL_ADD`" (R94). -/
def noIndex (f : Table → Instr) (t : Table) (idx : BitVec 16) : Except IllegalWord Instr :=
  if idx = 0 then .ok (f t) else .error .reservedField

/-- The decoder, total on every 32-bit word (R93, R94, R95). -/
def decode (w : Word) : Except IllegalWord Instr :=
  match (w.extractLsb' 24 8).toNat with
  | 0x00 => decodeN w .nop
  | 0x01 => decodeF1 w .crcRun
  | 0x02 => decodeN w .crcCheck
  | 0x03 => decodeN w .crcSeal
  | 0x10 => decodeN w .curInit
  | 0x11 => decodeB w .curRead
  | 0x12 => decodeI w .curSkip
  | 0x13 => decodeI w .curSeek
  | 0x20 => decodeF5 w .tsEnc
  | 0x21 => decodeN w .tsDec
  | 0x22 => decodeF1 w .pesWrite
  | 0x23 => decodeF2 w .pesRead
  | 0x30 => decodeN w .patWrite
  | 0x31 => decodeN w .patRead
  | 0x32 => decodeN w .pmtWrite
  | 0x33 => decodeN w .pmtRead
  | 0x34 => decodeN w .psmWrite
  | 0x35 => decodeN w .psmRead
  | 0x38 => decodeT w (noIndex .tblClear)
  | 0x39 => decodeT w (noIndex .tblAdd)
  | 0x3A => decodeT w fun t idx => .ok (.tblGet t idx)
  | _ => .error .unassignedOpcode

/-- The instruction the decoder reads from a row of opcode_table.json: one 32-bit word, bit 0 least
significant; the bits above `nbits` are 0. -/
def decodeTableWord (nbits w : Nat) : Option Instr :=
  match decode (BitVec.ofNat 32 (w % 2 ^ nbits)) with
  | .ok i => some i
  | .error _ => none

/-! ### The encoder -/

/-- `OPCODE = cmd[31:24]` above the operand field `cmd[23:0]` (R90). -/
def wordOf (op : Byte) (operand : BitVec 24) : Word := op ++ operand

/-- The word of a command (R91, R93). -/
def encode : Instr → Word
  | .nop => wordOf 0x00 0
  | .crcRun init => wordOf 0x01 (0#23 ++ BitVec.ofBool init)
  | .crcCheck => wordOf 0x02 0
  | .crcSeal => wordOf 0x03 0
  | .curInit => wordOf 0x10 0
  | .curRead n => wordOf 0x11 (0#17 ++ n)
  | .curSkip k => wordOf 0x12 k
  | .curSeek k => wordOf 0x13 k
  | .tsEnc sel p => wordOf 0x20 (0#19 ++ BitVec.ofBool (bitOfStamp sel) ++ p)
  | .tsDec => wordOf 0x21 0
  | .pesWrite unb => wordOf 0x22 (0#23 ++ BitVec.ofBool unb)
  | .pesRead l => wordOf 0x23 (0#22 ++ bitsOfLayout l)
  | .patWrite => wordOf 0x30 0
  | .patRead => wordOf 0x31 0
  | .pmtWrite => wordOf 0x32 0
  | .pmtRead => wordOf 0x33 0
  | .psmWrite => wordOf 0x34 0
  | .psmRead => wordOf 0x35 0
  | .tblClear t => wordOf 0x38 (0#6 ++ bitsOfTable t ++ 0#16)
  | .tblAdd t => wordOf 0x39 (0#6 ++ bitsOfTable t ++ 0#16)
  | .tblGet t idx => wordOf 0x3A (0#6 ++ bitsOfTable t ++ idx)

/-! ### The opcode table -/

/-- The "constraint" column of opcode_table.json. -/
inductive FieldRule where
  | any
  | nbits
  | layout
  | tsel
  deriving DecidableEq, Repr

/-- One row of opcode_table.json: `match`, `mask` and `constraint`. -/
structure OpcodeRow where
  pattern : Word
  mask : Word
  rule : FieldRule := .any
  deriving DecidableEq, Repr

/-- Does a word meet the row's constraint on its fields? -/
def FieldRule.holds (r : FieldRule) (w : Word) : Bool :=
  match r with
  | .any => true
  | .nbits => legalNbits (w.extractLsb' 0 7)
  | .layout => w.extractLsb' 0 2 != 3
  | .tsel => w.extractLsb' 16 2 != 3

/-- "A word that passes names exactly one command" (R94): the fixed bits agree and the fields are legal. -/
def OpcodeRow.accepts (r : OpcodeRow) (w : Word) : Bool :=
  (w &&& r.mask == r.pattern) && r.rule.holds w

/-- The row of opcode_table.json that a command stands for. -/
def Instr.row : Instr → OpcodeRow
  | .nop => { pattern := 0x00000000, mask := 0xFFFFFFFF }
  | .crcRun _ => { pattern := 0x01000000, mask := 0xFFFFFFFE }
  | .crcCheck => { pattern := 0x02000000, mask := 0xFFFFFFFF }
  | .crcSeal => { pattern := 0x03000000, mask := 0xFFFFFFFF }
  | .curInit => { pattern := 0x10000000, mask := 0xFFFFFFFF }
  | .curRead _ => { pattern := 0x11000000, mask := 0xFFFFFF80, rule := .nbits }
  | .curSkip _ => { pattern := 0x12000000, mask := 0xFF000000 }
  | .curSeek _ => { pattern := 0x13000000, mask := 0xFF000000 }
  | .tsEnc _ _ => { pattern := 0x20000000, mask := 0xFFFFFFE0 }
  | .tsDec => { pattern := 0x21000000, mask := 0xFFFFFFFF }
  | .pesWrite _ => { pattern := 0x22000000, mask := 0xFFFFFFFE }
  | .pesRead _ => { pattern := 0x23000000, mask := 0xFFFFFFFC, rule := .layout }
  | .patWrite => { pattern := 0x30000000, mask := 0xFFFFFFFF }
  | .patRead => { pattern := 0x31000000, mask := 0xFFFFFFFF }
  | .pmtWrite => { pattern := 0x32000000, mask := 0xFFFFFFFF }
  | .pmtRead => { pattern := 0x33000000, mask := 0xFFFFFFFF }
  | .psmWrite => { pattern := 0x34000000, mask := 0xFFFFFFFF }
  | .psmRead => { pattern := 0x35000000, mask := 0xFFFFFFFF }
  | .tblClear _ => { pattern := 0x38000000, mask := 0xFFFCFFFF, rule := .tsel }
  | .tblAdd _ => { pattern := 0x39000000, mask := 0xFFFCFFFF, rule := .tsel }
  | .tblGet _ _ => { pattern := 0x3A000000, mask := 0xFFFC0000, rule := .tsel }

/-- The rows of opcode_table.json, in its order. -/
def opcodeRows : List OpcodeRow :=
  [Instr.nop.row, (Instr.crcRun false).row, Instr.crcCheck.row, Instr.crcSeal.row,
    Instr.curInit.row, (Instr.curRead 1).row, (Instr.curSkip 0).row, (Instr.curSeek 0).row,
    (Instr.tsEnc .pts 0).row, Instr.tsDec.row, (Instr.pesWrite false).row,
    (Instr.pesRead .mpeg2).row, Instr.patWrite.row, Instr.patRead.row, Instr.pmtWrite.row,
    Instr.pmtRead.row, Instr.psmWrite.row, Instr.psmRead.row, (Instr.tblClear .pat).row,
    (Instr.tblAdd .pat).row, (Instr.tblGet .pat 0).row]

/-! ### Assembler notation -/

/-- A field of an assembler line: a number, or one of the names R96 allows. -/
inductive AsmField where
  | num (n : Nat)
  | name (s : String)
  deriving DecidableEq, Repr

/-- One command per line: the mnemonic, then its fields (R96). -/
structure AsmLine where
  mnemonic : String
  fields : List AsmField
  deriving DecidableEq, Repr

/-- The value of a field that may be written as one of `names`, in numeric order (R96). -/
def AsmField.value (names : List String) : AsmField → Option Nat
  | .num n => some n
  | .name s => names.findIdx? (· == s)

/-- The names R96 gives TSEL, LAYOUT and SEL. -/
def tableNames : List String := ["pat", "pmt", "psm"]
def layoutNames : List String := ["mpeg2", "mpeg1", "auto"]
def stampNames : List String := ["pts", "dts"]

/-- A number that fits a field of `n` bits. -/
def fitted (n v : Nat) : Option (BitVec n) :=
  if v < 2 ^ n then some (BitVec.ofNat n v) else none

/-- A flag written as a number. -/
def flagField (f : AsmField) : Option Bool :=
  (f.value []).bind fun v => (fitted 1 v).map fun b => b == 1

def tableField (f : AsmField) : Option Table :=
  (f.value tableNames).bind fun v => (fitted 2 v).bind tableOfBits

def layoutField (f : AsmField) : Option Layout :=
  (f.value layoutNames).bind fun v => (fitted 2 v).bind layoutOfBits

def stampField (f : AsmField) : Option Stamp :=
  (f.value stampNames).bind fun v => (fitted 1 v).map fun b => stampOfBit (b == 1)

def numField (n : Nat) (f : AsmField) : Option (BitVec n) :=
  (f.value []).bind (fitted n)

/-- A command line as R96 writes it: lower case, `.` for `_`, fields in the order of R91. -/
def assemble (l : AsmLine) : Option Instr :=
  match l.mnemonic, l.fields with
  | "nop", [] => some .nop
  | "crc.run", [f] => (flagField f).map .crcRun
  | "crc.check", [] => some .crcCheck
  | "crc.seal", [] => some .crcSeal
  | "cur.init", [] => some .curInit
  | "cur.read", [n] =>
    (numField 7 n).bind fun n => if legalNbits n then some (.curRead n) else none
  | "cur.skip", [k] => (numField 24 k).map .curSkip
  | "cur.seek", [k] => (numField 24 k).map .curSeek
  | "ts.enc", [sel, p] => (stampField sel).bind fun sel => (numField 4 p).map (.tsEnc sel)
  | "ts.dec", [] => some .tsDec
  | "pes.write", [f] => (flagField f).map .pesWrite
  | "pes.read", [l] => (layoutField l).map .pesRead
  | "pat.write", [] => some .patWrite
  | "pat.read", [] => some .patRead
  | "pmt.write", [] => some .pmtWrite
  | "pmt.read", [] => some .pmtRead
  | "psm.write", [] => some .psmWrite
  | "psm.read", [] => some .psmRead
  | "tbl.clear", [t] => (tableField t).map .tblClear
  | "tbl.add", [t] => (tableField t).map .tblAdd
  | "tbl.get", [t, i] => (tableField t).bind fun t => (numField 16 i).map (.tblGet t)
  | _, _ => none

/-- The line of a command, fields as numbers (R96). -/
def Instr.asm : Instr → AsmLine
  | .nop => ⟨"nop", []⟩
  | .crcRun init => ⟨"crc.run", [.num init.toNat]⟩
  | .crcCheck => ⟨"crc.check", []⟩
  | .crcSeal => ⟨"crc.seal", []⟩
  | .curInit => ⟨"cur.init", []⟩
  | .curRead n => ⟨"cur.read", [.num n.toNat]⟩
  | .curSkip k => ⟨"cur.skip", [.num k.toNat]⟩
  | .curSeek k => ⟨"cur.seek", [.num k.toNat]⟩
  | .tsEnc sel p => ⟨"ts.enc", [.num (bitOfStamp sel).toNat, .num p.toNat]⟩
  | .tsDec => ⟨"ts.dec", []⟩
  | .pesWrite unb => ⟨"pes.write", [.num unb.toNat]⟩
  | .pesRead l => ⟨"pes.read", [.num (bitsOfLayout l).toNat]⟩
  | .patWrite => ⟨"pat.write", []⟩
  | .patRead => ⟨"pat.read", []⟩
  | .pmtWrite => ⟨"pmt.write", []⟩
  | .pmtRead => ⟨"pmt.read", []⟩
  | .psmWrite => ⟨"psm.write", []⟩
  | .psmRead => ⟨"psm.read", []⟩
  | .tblClear t => ⟨"tbl.clear", [.num (bitsOfTable t).toNat]⟩
  | .tblAdd t => ⟨"tbl.add", [.num (bitsOfTable t).toNat]⟩
  | .tblGet t idx => ⟨"tbl.get", [.num (bitsOfTable t).toNat, .num idx.toNat]⟩

/-- The expansion of a pseudo-instruction (R97); the `tbl.clear` and `tbl.add` rows of R97 are the named
fields of `assemble`. -/
def expandPseudo (l : AsmLine) : Option AsmLine :=
  match l.mnemonic, l.fields with
  | "cur.read8", [] => some ⟨"cur.read", [.num 8]⟩
  | "cur.read16", [] => some ⟨"cur.read", [.num 16]⟩
  | "cur.read24", [] => some ⟨"cur.read", [.num 24]⟩
  | "cur.read32", [] => some ⟨"cur.read", [.num 32]⟩
  | "cur.read64", [] => some ⟨"cur.read", [.num 64]⟩
  | "crc.start", [] => some ⟨"crc.run", [.num 1]⟩
  | "crc.cont", [] => some ⟨"crc.run", [.num 0]⟩
  | "pes.write.unb", [] => some ⟨"pes.write", [.num 1]⟩
  | "pts.enc", [] => some ⟨"ts.enc", [.name "pts", .num 2]⟩
  | "pts.enc.withdts", [] => some ⟨"ts.enc", [.name "pts", .num 3]⟩
  | "dts.enc", [] => some ⟨"ts.enc", [.name "dts", .num 1]⟩
  | _, _ => none

/-- The word of a line, a pseudo-instruction expanded first (R96, R97). -/
def asmWord (l : AsmLine) : Option Word :=
  (assemble ((expandPseudo l).getD l)).map encode

end Sys2Proof
end

