-- ==== Sys2Proof/Config.lean ====
section
/-! DEFINITION. What an implementation of the engine fixes (00_scope.md R8) and what memory holds
where nothing has been written (70_reset_and_hazards.md R301). -/

namespace Sys2Proof

/-- The parameters "the model takes as arguments" (00_scope.md R8). They are carried in State and
written by no step, so that a statement about every state holds for every implementation (log 1). -/
structure Params where
  /-- `MEM_BYTES`: size in bytes of the engine-visible memory. -/
  memBytes : Nat
  /-- `PAT_CAP`: maximum number of entries of the PAT staging table. -/
  patCap : Nat
  /-- `PMT_CAP`: maximum number of stream entries of the PMT staging table. -/
  pmtCap : Nat
  /-- `PSM_CAP`: maximum number of stream entries of the PSM staging table. -/
  psmCap : Nat
  deriving DecidableEq, Repr

/-- The constraints of 00_scope.md R8. -/
def Params.wf (p : Params) : Bool :=
  decide (1 ≤ p.memBytes) && decide (p.memBytes ≤ 2 ^ 32) &&
    decide (1 ≤ p.patCap) && decide (1 ≤ p.pmtCap) && decide (1 ≤ p.psmCap)

/-- DESIGN CHOICE (log 1): the parameters of `State.reset`, those of the spec's own test vectors
(95_test_vectors.md, Conventions). The spec fixes none. -/
def Config.reference : Params :=
  { memBytes := 0x10000, patCap := 256, pmtCap := 256, psmCap := 256 }

/-- DESIGN CHOICE (log 2): what a byte of memory that is not listed reads as. The spec calls memory
after power-on "any value, not zero" (R301); every contents of a memory is a list of cells over this
byte, and `State.resetWith` takes any of them. -/
def Config.unlistedByte : Byte := 0xFF

end Sys2Proof
end

