-- ==== Sys2Proof/Machine/State.lean ====
section
/-! DEFINITION. The state of the machine (10_state.md), why a step can stop, and reset
(70_reset_and_hazards.md R300). Plain data. Where several registers of 10_state.md R23 show one value, the
value is stored once and the registers are views of it (Machine/Operands.lean). -/

namespace Sys2Proof.Machine

/-- Result codes of STATUS.CODE (60_exceptions.md R280). -/
inductive Code where
  | ok
  | outOfMemory
  | invalidArgument
  | invalidData
  /-- "never: the engine writes memory, which cannot refuse a write" -/
  | writeFailed
  deriving DecidableEq, Repr

/-- STATUS but for CUR_ERR, which is `Cursor.err` (10_state.md R24). -/
structure Status where
  code : Code := .ok
  markerErr : Bool := false
  ignored : Bool := false
  mpeg1 : Bool := false
  deriving DecidableEq, Repr

/-- The registers CUR_BASE0 to CUR_LEN1, which `CUR_INIT` latches (10_state.md R23). -/
structure CurRegs where
  base0 : Word := 0
  len0 : Word := 0
  base1 : Word := 0
  len1 : Word := 0
  deriving DecidableEq, Repr

/-- The hidden cursor state (10_state.md R30); `pos` counts bits. -/
structure Cursor where
  base0 : Word := 0
  len0 : Word := 0
  base1 : Word := 0
  len1 : Word := 0
  pos : Word := 0
  err : Bool := false
  deriving DecidableEq, Repr

/-- `PTS_NO_VALUE` = −2^63, the absent timestamp (10_state.md R31). -/
def noValue : BitVec 64 := 0x8000000000000000

/-- STD_BUF: `[16]` VALID, `[13]` scale, `[12:0]` size (10_state.md R23). -/
structure StdBuf where
  valid : Bool := false
  scale : Bool := false
  size : BitVec 13 := 0
  deriving DecidableEq, Repr

/-- The PES register block (10_state.md R23, R31). -/
structure Pes where
  sid : Byte := 0
  pktLen : BitVec 16 := 0
  flags : BitVec 6 := 0
  opt : BitVec 16 := 0
  hdrLen : Byte := 0
  pts : BitVec 64 := noValue
  dts : BitVec 64 := noValue
  escrBase : BitVec 33 := 0
  escrExt : BitVec 9 := 0
  esRate : BitVec 22 := 0
  trick : Byte := 0
  addCopy : BitVec 7 := 0
  prevCrc : BitVec 16 := 0
  stdBuf : StdBuf := {}
  payloadLen : Word := 0
  deriving DecidableEq, Repr

/-- An entry of the PAT staging table (10_state.md R40). -/
structure PatEntry where
  program : BitVec 16
  pid : BitVec 13
  deriving DecidableEq, Repr

/-- An entry of the PMT staging table (10_state.md R40). -/
structure PmtEntry where
  streamType : Byte
  pid : BitVec 13
  esAddr : Word
  esLen : Word
  deriving DecidableEq, Repr

/-- An entry of the PSM staging table (10_state.md R40). -/
structure PsmEntry where
  streamType : Byte
  streamId : Byte
  esAddr : Word
  esLen : Word
  deriving DecidableEq, Repr

/-- The PAT staging table: PAT_TSID, PAT_VER (version, VALID) and the entry list (10_state.md R40). -/
structure Pat where
  tsid : BitVec 16 := 0
  ver : BitVec 5 := 0
  valid : Bool := false
  entries : List PatEntry := []
  deriving DecidableEq, Repr

/-- The PMT staging table (10_state.md R40). -/
structure Pmt where
  prog : BitVec 16 := 0
  ver : BitVec 5 := 0
  valid : Bool := false
  pcrPid : BitVec 13 := 0
  pinfoAddr : Word := 0
  pinfoLen : Word := 0
  entries : List PmtEntry := []
  deriving DecidableEq, Repr

/-- The PSM staging table (10_state.md R40). -/
structure Psm where
  ver : BitVec 5 := 0
  /-- single_extension_stream_flag, PSM_VER[6]. -/
  sext : Bool := false
  valid : Bool := false
  pinfoAddr : Word := 0
  pinfoLen : Word := 0
  entries : List PsmEntry := []
  deriving DecidableEq, Repr

/-- ENT_A, ENT_B, ENT_ADDR, ENT_LEN (10_state.md R41). -/
structure Ent where
  a : BitVec 16 := 0
  b : BitVec 13 := 0
  addr : Word := 0
  len : Word := 0
  deriving DecidableEq, Repr

/-- Memory: the bytes that differ from `Config.unlistedByte`, addresses strictly rising
(`Memory.wf`, Machine/Ops.lean). -/
abbrev Memory := List Host.Cell

/-- The machine. -/
structure State where
  /-- The implementation parameters (00_scope.md R8), written by no step (log 1). -/
  params : Params
  cmd : Word := 0
  status : Status := {}
  srcAddr : Word := 0
  srcLen : Word := 0
  dstAddr : Word := 0
  dstCap : Word := 0
  result : Word := 0
  resultHi : Word := 0
  crcSeed : Word := 0xFFFFFFFF
  crcAcc : Word := 0xFFFFFFFF
  curRegs : CurRegs := {}
  cur : Cursor := {}
  pes : Pes := {}
  pat : Pat := {}
  pmt : Pmt := {}
  psm : Psm := {}
  ent : Ent := {}
  /-- 20_memory.md R70. -/
  mem : Memory := []
  /-- The host's sequence of accesses, the program (10_state.md R21). -/
  host : List HostEvent := []
  /-- Index in `host` of the next access (92_eei_decisions.md D1, log 3). -/
  hostPos : Nat := 0
  /-- "The index advances by one per CMD write" (10_state.md R21, log 3). -/
  pc : Nat := 0
  /-- What the host's reads returned, newest first (the model's own record, log 6). -/
  reads : List HostData := []
  deriving DecidableEq, Repr

/-- Why the machine stops with a fault. The engine itself has none (60_exceptions.md R285). -/
inductive Fault where
  /-- Raised by a host access through its memory port outside `Mem[0 .. MEM_BYTES-1]`, which
  20_memory.md R70 does not give it (log 9). Safe. -/
  | hostAddress
  deriving DecidableEq, Repr

/-- Why the model refuses a step. -/
inductive Refusal where
  /-- Raised by an arm of `exec` that has no meaning yet; no arm is such. Safe. -/
  | notModelled (mnemonic : String)
  /-- Raised by a host register access that is not a whole aligned 32-bit word: "Register access by any
  other width or alignment is refused by the model" (10_state.md R22). Safe. -/
  | registerAccess
  deriving DecidableEq, Repr

/-- The machine right after reset with parameters `p` and whatever the platform left in memory
(70_reset_and_hazards.md R300, R301): every field at the reset value of 10_state.md R23, no program. -/
def State.resetWith (p : Params) (mem : Memory) : State :=
  { params := p, mem := mem }

/-- The machine right after reset: reference parameters (log 1) and memory with nothing listed (log 2). -/
def State.reset : State := State.resetWith Config.reference []

end Sys2Proof.Machine
end

