-- ==== Sys2Proof/Machine/Flags.lean ====
section
/-! DEFINITION. The STATUS register (10_state.md R24). The engine has no condition codes (R43). -/

namespace Sys2Proof.Machine

/-- STATUS.CODE as its 4-bit field (60_exceptions.md R280). -/
def Code.bits : Code → BitVec 4
  | .ok => 0
  | .outOfMemory => 1
  | .invalidArgument => 2
  | .invalidData => 3
  | .writeFailed => 4

/-- STATUS: CODE 3:0, CUR_ERR 4, MARKER_ERR 5, IGNORED 6, MPEG1 7; 31:8 read 0 (10_state.md R24). -/
def State.statusWord (s : State) : Word :=
  0#24 ++ BitVec.ofBool s.status.mpeg1 ++ BitVec.ofBool s.status.ignored ++
    BitVec.ofBool s.status.markerErr ++ BitVec.ofBool s.cur.err ++ s.status.code.bits

/-- A host write to STATUS "affects only bit 5": writing 1 clears MARKER_ERR (10_state.md R24). -/
def State.writeStatus (s : State) (v : Word) : State :=
  { s with status := { s.status with markerErr := s.status.markerErr && !v.getLsbD 5 } }

end Sys2Proof.Machine
end

