-- ==== Sys2Proof/Machine/Bytes.lean ====
section
/-! DEFINITION. Byte strings and big-endian fields (00_scope.md R9, R10; 20_memory.md R73). -/

namespace Sys2Proof.Machine

/-- `s[i]`, the byte of a byte string; every use lies inside the string. -/
def byteAt (s : List Byte) (i : Nat) : Byte := s.getD i 0

/-- `s[i .. i+n-1]`. -/
def slice (s : List Byte) (i n : Nat) : List Byte := (s.drop i).take n

/-- `rdBE(s)`: the unsigned big-endian value of a byte string (R10). -/
def rdBE (s : List Byte) : Nat := s.foldl (fun acc b => acc * 256 + b.toNat) 0

/-- `BE16(x)` (R10). -/
def be16 (x : BitVec 16) : List Byte := [x.extractLsb' 8 8, x.extractLsb' 0 8]

/-- `BE32(x)` (R10). -/
def be32 (x : Word) : List Byte :=
  [x.extractLsb' 24 8, x.extractLsb' 16 8, x.extractLsb' 8 8, x.extractLsb' 0 8]

/-- A 16-bit field at byte `i`. -/
def field16 (s : List Byte) (i : Nat) : BitVec 16 := byteAt s i ++ byteAt s (i + 1)

/-- A 13-bit PID in the low bits of bytes `i`, `i+1` (30_encoding.md R110). -/
def field13 (s : List Byte) (i : Nat) : BitVec 13 := (byteAt s i).extractLsb' 0 5 ++ byteAt s (i + 1)

/-- A 12-bit length in the low bits of bytes `i`, `i+1` (30_encoding.md R110, R111). -/
def field12 (s : List Byte) (i : Nat) : BitVec 12 := (byteAt s i).extractLsb' 0 4 ++ byteAt s (i + 1)

/-- Two bytes: three reserved 1 bits above a 13-bit PID (30_encoding.md R110). -/
def be13 (x : BitVec 13) : List Byte := [0b111#3 ++ x.extractLsb' 8 5, x.extractLsb' 0 8]

/-- Two bytes: the bits `top` above a 12-bit length (30_encoding.md R110, R111). -/
def be12 (top : BitVec 4) (x : BitVec 12) : List Byte := [top ++ x.extractLsb' 8 4, x.extractLsb' 0 8]

end Sys2Proof.Machine
end

