-- ==== Sys2Proof/Machine/Ops.lean ====
section
/-! DEFINITION. The named operations every command is made of: memory (20_memory.md R70 to R78) and how a
command ends (60_exceptions.md R283). The engine has no traps (R285): ending in failure is its one way to
report, and `State.fail` is that one shared operation. -/

namespace Sys2Proof.Machine

/-! ### Memory -/

/-- `Mem[a]` (00_scope.md R11). -/
def Memory.read : Memory → Nat → Byte
  | [], _ => Config.unlistedByte
  | (k, v) :: m, a => if k = a then v else Memory.read m a

/-- `Mem[a] <- b`, keeping the canonical form. -/
def Memory.write : Memory → Nat → Byte → Memory
  | [], a, b => if b = Config.unlistedByte then [] else [(a, b)]
  | (k, v) :: m, a, b =>
    if a < k then
      if b = Config.unlistedByte then (k, v) :: m else (a, b) :: (k, v) :: m
    else if a = k then
      if b = Config.unlistedByte then m else (a, b) :: m
    else (k, v) :: Memory.write m a b

/-- `MemRead(a, n)` (00_scope.md R11). -/
def Memory.readBytes (m : Memory) (a n : Nat) : List Byte :=
  (List.range n).map fun i => m.read (a + i)

/-- `MemWrite(a, s)` (00_scope.md R11). -/
def Memory.writeBytes : Memory → Nat → List Byte → Memory
  | m, _, [] => m
  | m, a, b :: s => Memory.writeBytes (m.write a b) (a + 1) s

/-- All addresses are at least `lo`, strictly rising, and no cell holds the unlisted byte. -/
def Memory.wfFrom : Nat → Memory → Bool
  | _, [] => true
  | lo, (k, v) :: m => decide (lo ≤ k) && (v != Config.unlistedByte) && Memory.wfFrom (k + 1) m

/-- The canonical form of a memory: equal memories are equal lists. -/
def Memory.wf (m : Memory) : Bool := Memory.wfFrom 0 m

/-- `InMem(a, n)`: `a + n ≤ MEM_BYTES`, without wrap-around (20_memory.md R72). -/
abbrev InMem (s : State) (a n : Nat) : Prop := a + n ≤ s.params.memBytes

/-- Two ranges overlap (20_memory.md R78). -/
abbrev Overlap (a n b m : Nat) : Prop := 0 < n ∧ 0 < m ∧ a < b + m ∧ b < a + n

/-! ### How a command ends -/

/-- `raise E`, or `raise E keeping {x, ...}` (00_scope.md R11): the writes kept "are only ever `cur.err`, and
for `CUR_READ` RESULT and RESULT_HI" (60_exceptions.md R283). -/
structure Raise where
  code : Code
  /-- `cur.err <- 1` was made and is kept. -/
  keepErr : Bool := false
  /-- RESULT and RESULT_HI were set to the default 0 and are kept (41_cursor.md R163). -/
  keepDefault : Bool := false
  deriving DecidableEq, Repr

/-- `raise OutOfMemory`. -/
def Raise.outOfMemory : Raise := { code := .outOfMemory }

/-- `raise InvalidArgument`. -/
def Raise.invalidArgument : Raise := { code := .invalidArgument }

/-- `raise InvalidData`. -/
def Raise.invalidData : Raise := { code := .invalidData }

/-- `cur.err <- 1; raise InvalidData keeping {cur.err}` (41_cursor.md R164, R165, R166). -/
def Raise.pastEnd : Raise := { code := .invalidData, keepErr := true }

/-- `raise InvalidData keeping {cur.err, RESULT, RESULT_HI}` (41_cursor.md R163). -/
def Raise.readPastEnd : Raise := { code := .invalidData, keepErr := true, keepDefault := true }

/-- `if not c: raise E`. -/
def check (c : Prop) [Decidable c] (r : Raise) : Except Raise Unit :=
  if c then .ok () else .error r

/-- A command fails (60_exceptions.md R283): CODE is `E`, IGNORED is 0, the kept writes stay, and every other
part of the state is as before the command. -/
def State.fail (s : State) (r : Raise) : State :=
  { s with
    status := { s.status with code := r.code, ignored := false }
    cur := { s.cur with err := s.cur.err || r.keepErr }
    result := if r.keepDefault then 0 else s.result
    resultHi := if r.keepDefault then 0 else s.resultHi }

/-- `reg[RESULT_HI] <- hi; done(r)` (60_exceptions.md R283). -/
def State.done (s : State) (hi r : Word) : State :=
  { s with
    status := { s.status with code := .ok, ignored := false }
    result := r
    resultHi := hi }

/-- `STATUS.IGNORED <- 1; reg[RESULT_HI] <- hi; done(r)` (43_psi.md R240 step 7). -/
def State.doneIgnored (s : State) (hi r : Word) : State :=
  { s with
    status := { s.status with code := .ok, ignored := true }
    result := r
    resultHi := hi }

/-- `if mk = 1: STATUS.MARKER_ERR <- 1` (42_pes.md R183). -/
def State.mark (s : State) (mk : Bool) : State :=
  { s with status := { s.status with markerErr := s.status.markerErr || mk } }

/-- A command runs its pseudocode from `s`; "Every command ends in exactly one of two ways"
(60_exceptions.md R283). -/
def finish (s : State) (x : Except Raise State) : Host.Outcome State Fault Refusal :=
  match x with
  | .ok t => .next t
  | .error r => .next (s.fail r)

/-- The effect of a CMD write of an illegal word (44_control.md R271), "the same as a command that raises
`InvalidArgument` as its first step". -/
def State.illegalWord (s : State) : State := s.fail .invalidArgument

end Sys2Proof.Machine
end

