-- ==== Sys2Proof/Machine/Operands.lean ====
section
/-! DEFINITION. The control registers as the host sees them (10_state.md R22, R23; 44_control.md R272, R273),
and the operands commands take from them: the destination window, the entry registers, the timestamps. -/

namespace Sys2Proof.Machine

/-! ### The register map -/

/-- The offset column of 10_state.md R23. -/
def regOffset : Reg → BitVec 9
  | .cmd => 0x000
  | .status => 0x004
  | .srcAddr => 0x008
  | .srcLen => 0x00C
  | .dstAddr => 0x010
  | .dstCap => 0x014
  | .result => 0x018
  | .resultHi => 0x01C
  | .crcSeed => 0x020
  | .crcAcc => 0x024
  | .curBase0 => 0x030
  | .curLen0 => 0x034
  | .curBase1 => 0x038
  | .curLen1 => 0x03C
  | .curPos => 0x040
  | .curTotal => 0x044
  | .pesSid => 0x080
  | .pesPktlen => 0x084
  | .pesFlags => 0x088
  | .pesOpt => 0x08C
  | .pesHdrlen => 0x090
  | .ptsLo => 0x094
  | .ptsHi => 0x098
  | .dtsLo => 0x09C
  | .dtsHi => 0x0A0
  | .escrLo => 0x0A4
  | .escrHi => 0x0A8
  | .esRate => 0x0AC
  | .trick => 0x0B0
  | .addcopy => 0x0B4
  | .prevCrc => 0x0B8
  | .stdBuf => 0x0BC
  | .pesPayloadLen => 0x0C0
  | .patTsid => 0x100
  | .patVer => 0x104
  | .patCount => 0x108
  | .pmtProg => 0x110
  | .pmtVer => 0x114
  | .pmtPcrPid => 0x118
  | .pmtPinfoAddr => 0x11C
  | .pmtPinfoLen => 0x120
  | .pmtCount => 0x124
  | .psmVer => 0x130
  | .psmPinfoAddr => 0x134
  | .psmPinfoLen => 0x138
  | .psmCount => 0x13C
  | .entA => 0x140
  | .entB => 0x144
  | .entAddr => 0x148
  | .entLen => 0x14C

/-- Every register of 10_state.md R23, in its order. -/
def allRegs : List Reg :=
  [.cmd, .status, .srcAddr, .srcLen, .dstAddr, .dstCap, .result, .resultHi, .crcSeed, .crcAcc,
    .curBase0, .curLen0, .curBase1, .curLen1, .curPos, .curTotal] ++
  [.pesSid, .pesPktlen, .pesFlags, .pesOpt, .pesHdrlen, .ptsLo, .ptsHi, .dtsLo, .dtsHi, .escrLo,
    .escrHi, .esRate, .trick, .addcopy, .prevCrc, .stdBuf, .pesPayloadLen] ++
  [.patTsid, .patVer, .patCount, .pmtProg, .pmtVer, .pmtPcrPid, .pmtPinfoAddr, .pmtPinfoLen,
    .pmtCount, .psmVer, .psmPinfoAddr, .psmPinfoLen, .psmCount, .entA, .entB, .entAddr, .entLen]

/-- The register at an offset, if it names one (10_state.md R22). -/
def regAt (offset : BitVec 9) : Option Reg := allRegs.find? fun r => regOffset r == offset

/-- The access column of 10_state.md R23. -/
def regAccess : Reg → Access
  | .cmd => .launch
  | .status => .w1c
  | .srcAddr | .srcLen | .dstAddr | .dstCap => .rw
  | .result | .resultHi => .ro
  | .crcSeed | .crcAcc => .rw
  | .curBase0 | .curLen0 | .curBase1 | .curLen1 => .rw
  | .curPos | .curTotal => .ro
  | .pesSid | .pesPktlen | .pesFlags => .rw
  | .pesOpt | .pesHdrlen => .ro
  | .ptsLo | .ptsHi | .dtsLo | .dtsHi => .rw
  | .escrLo | .escrHi | .esRate | .trick | .addcopy | .prevCrc | .stdBuf => .ro
  | .pesPayloadLen => .rw
  | .patTsid | .patVer => .rw
  | .patCount => .ro
  | .pmtProg | .pmtVer | .pmtPcrPid | .pmtPinfoAddr | .pmtPinfoLen => .rw
  | .pmtCount => .ro
  | .psmVer | .psmPinfoAddr | .psmPinfoLen => .rw
  | .psmCount => .ro
  | .entA | .entB | .entAddr | .entLen => .rw

/-- The bits column of 10_state.md R23: "A bit not listed reads 0 and ignores writes." -/
def regBits : Reg → Word
  | .status => 0x000000FF
  | .pesSid => 0x000000FF
  | .pesPktlen => 0x0000FFFF
  | .pesFlags => 0x0000003F
  | .pesOpt => 0x0000FFFF
  | .pesHdrlen => 0x000000FF
  | .escrHi => 0x01FF0001
  | .esRate => 0x003FFFFF
  | .trick => 0x000000FF
  | .addcopy => 0x0000007F
  | .prevCrc => 0x0000FFFF
  | .stdBuf => 0x00013FFF
  | .patTsid | .pmtProg => 0x0000FFFF
  | .patVer | .pmtVer => 0x0000011F
  | .psmVer => 0x0000015F
  | .pmtPcrPid => 0x00001FFF
  | .patCount | .pmtCount | .psmCount => 0x0000FFFF
  | .entA => 0x0000FFFF
  | .entB => 0x00001FFF
  | .cmd | .srcAddr | .srcLen | .dstAddr | .dstCap | .result | .resultHi | .crcSeed | .crcAcc
  | .curBase0 | .curLen0 | .curBase1 | .curLen1 | .curPos | .curTotal
  | .ptsLo | .ptsHi | .dtsLo | .dtsHi | .escrLo | .pesPayloadLen
  | .pmtPinfoAddr | .pmtPinfoLen | .psmPinfoAddr | .psmPinfoLen | .entAddr | .entLen => 0xFFFFFFFF

/-- A COUNT register: 16 bits, the number of entries (10_state.md R23; capacities above 65535, log 7). -/
def countReg (n : Nat) : BitVec 16 := BitVec.ofNat 16 n

/-- `reg[COUNT(TSEL)]` (43_psi.md, template). -/
def State.count (s : State) : Table → BitVec 16
  | .pat => countReg s.pat.entries.length
  | .pmt => countReg s.pmt.entries.length
  | .psm => countReg s.psm.entries.length

/-- `CAP(TSEL)` (43_psi.md, template). -/
def State.cap (s : State) : Table → Nat
  | .pat => s.params.patCap
  | .pmt => s.params.pmtCap
  | .psm => s.params.psmCap

/-- A VER register: `[4:0]` version, `[6]` single_extension_stream_flag (PSM only), `[8]` VALID. -/
def verWord (valid sext : Bool) (ver : BitVec 5) : Word :=
  0#23 ++ BitVec.ofBool valid ++ 0#1 ++ BitVec.ofBool sext ++ 0#1 ++ ver

/-- ESCR_HI: `[24:16]` ESCR_extension, `[0]` ESCR_base bit 32 (10_state.md R23). -/
def escrHiWord (ext : BitVec 9) (base : BitVec 33) : Word :=
  0#7 ++ ext ++ 0#15 ++ base.extractLsb' 32 1

/-- STD_BUF as a word (10_state.md R23). -/
def stdBufWord (b : StdBuf) : Word :=
  0#15 ++ BitVec.ofBool b.valid ++ 0#2 ++ BitVec.ofBool b.scale ++ b.size

/-- CUR_TOTAL: `cur.len0 + cur.len1` (10_state.md R30). -/
def Cursor.totalWord (c : Cursor) : Word := c.len0 + c.len1

/-- The value of a register, "with bits the register does not have reading 0" (44_control.md R273). -/
def State.readReg (s : State) : Reg → Word
  | .cmd => s.cmd
  | .status => s.statusWord
  | .srcAddr => s.srcAddr
  | .srcLen => s.srcLen
  | .dstAddr => s.dstAddr
  | .dstCap => s.dstCap
  | .result => s.result
  | .resultHi => s.resultHi
  | .crcSeed => s.crcSeed
  | .crcAcc => s.crcAcc
  | .curBase0 => s.curRegs.base0
  | .curLen0 => s.curRegs.len0
  | .curBase1 => s.curRegs.base1
  | .curLen1 => s.curRegs.len1
  | .curPos => s.cur.pos
  | .curTotal => s.cur.totalWord
  | .pesSid => s.pes.sid.setWidth 32
  | .pesPktlen => s.pes.pktLen.setWidth 32
  | .pesFlags => s.pes.flags.setWidth 32
  | .pesOpt => s.pes.opt.setWidth 32
  | .pesHdrlen => s.pes.hdrLen.setWidth 32
  | .ptsLo => s.pes.pts.extractLsb' 0 32
  | .ptsHi => s.pes.pts.extractLsb' 32 32
  | .dtsLo => s.pes.dts.extractLsb' 0 32
  | .dtsHi => s.pes.dts.extractLsb' 32 32
  | .escrLo => s.pes.escrBase.extractLsb' 0 32
  | .escrHi => escrHiWord s.pes.escrExt s.pes.escrBase
  | .esRate => s.pes.esRate.setWidth 32
  | .trick => s.pes.trick.setWidth 32
  | .addcopy => s.pes.addCopy.setWidth 32
  | .prevCrc => s.pes.prevCrc.setWidth 32
  | .stdBuf => stdBufWord s.pes.stdBuf
  | .pesPayloadLen => s.pes.payloadLen
  | .patTsid => s.pat.tsid.setWidth 32
  | .patVer => verWord s.pat.valid false s.pat.ver
  | .patCount => (s.count .pat).setWidth 32
  | .pmtProg => s.pmt.prog.setWidth 32
  | .pmtVer => verWord s.pmt.valid false s.pmt.ver
  | .pmtPcrPid => s.pmt.pcrPid.setWidth 32
  | .pmtPinfoAddr => s.pmt.pinfoAddr
  | .pmtPinfoLen => s.pmt.pinfoLen
  | .pmtCount => (s.count .pmt).setWidth 32
  | .psmVer => verWord s.psm.valid s.psm.sext s.psm.ver
  | .psmPinfoAddr => s.psm.pinfoAddr
  | .psmPinfoLen => s.psm.pinfoLen
  | .psmCount => (s.count .psm).setWidth 32
  | .entA => s.ent.a.setWidth 32
  | .entB => s.ent.b.setWidth 32
  | .entAddr => s.ent.addr
  | .entLen => s.ent.len

/-- A host write to a register other than CMD (44_control.md R272): a RW register takes the bits it has, a RO
register ignores the write, STATUS clears MARKER_ERR. CMD is `launch` (Machine/Step.lean). -/
def State.writeReg (s : State) (r : Reg) (v : Word) : State :=
  match r with
  | .cmd => s
  | .status => s.writeStatus v
  | .srcAddr => { s with srcAddr := v }
  | .srcLen => { s with srcLen := v }
  | .dstAddr => { s with dstAddr := v }
  | .dstCap => { s with dstCap := v }
  | .result => s
  | .resultHi => s
  | .crcSeed => { s with crcSeed := v }
  | .crcAcc => { s with crcAcc := v }
  | .curBase0 => { s with curRegs := { s.curRegs with base0 := v } }
  | .curLen0 => { s with curRegs := { s.curRegs with len0 := v } }
  | .curBase1 => { s with curRegs := { s.curRegs with base1 := v } }
  | .curLen1 => { s with curRegs := { s.curRegs with len1 := v } }
  | .curPos => s
  | .curTotal => s
  | .pesSid => { s with pes := { s.pes with sid := v.setWidth 8 } }
  | .pesPktlen => { s with pes := { s.pes with pktLen := v.setWidth 16 } }
  | .pesFlags => { s with pes := { s.pes with flags := v.setWidth 6 } }
  | .pesOpt => s
  | .pesHdrlen => s
  | .ptsLo => { s with pes := { s.pes with pts := s.pes.pts.extractLsb' 32 32 ++ v } }
  | .ptsHi => { s with pes := { s.pes with pts := v ++ s.pes.pts.extractLsb' 0 32 } }
  | .dtsLo => { s with pes := { s.pes with dts := s.pes.dts.extractLsb' 32 32 ++ v } }
  | .dtsHi => { s with pes := { s.pes with dts := v ++ s.pes.dts.extractLsb' 0 32 } }
  | .escrLo => s
  | .escrHi => s
  | .esRate => s
  | .trick => s
  | .addcopy => s
  | .prevCrc => s
  | .stdBuf => s
  | .pesPayloadLen => { s with pes := { s.pes with payloadLen := v } }
  | .patTsid => { s with pat := { s.pat with tsid := v.setWidth 16 } }
  | .patVer => { s with pat := { s.pat with ver := v.setWidth 5, valid := v.getLsbD 8 } }
  | .patCount => s
  | .pmtProg => { s with pmt := { s.pmt with prog := v.setWidth 16 } }
  | .pmtVer => { s with pmt := { s.pmt with ver := v.setWidth 5, valid := v.getLsbD 8 } }
  | .pmtPcrPid => { s with pmt := { s.pmt with pcrPid := v.setWidth 13 } }
  | .pmtPinfoAddr => { s with pmt := { s.pmt with pinfoAddr := v } }
  | .pmtPinfoLen => { s with pmt := { s.pmt with pinfoLen := v } }
  | .pmtCount => s
  | .psmVer =>
    { s with psm := { s.psm with ver := v.setWidth 5, sext := v.getLsbD 6, valid := v.getLsbD 8 } }
  | .psmPinfoAddr => { s with psm := { s.psm with pinfoAddr := v } }
  | .psmPinfoLen => { s with psm := { s.psm with pinfoLen := v } }
  | .psmCount => s
  | .entA => { s with ent := { s.ent with a := v.setWidth 16 } }
  | .entB => { s with ent := { s.ent with b := v.setWidth 13 } }
  | .entAddr => { s with ent := { s.ent with addr := v } }
  | .entLen => { s with ent := { s.ent with len := v } }

/-! ### Operands of commands -/

/-- The destination window `[DST_ADDR, DST_ADDR + DST_CAP)` is in memory (20_memory.md R71, R72). -/
abbrev WindowInMem (s : State) : Prop := InMem s s.dstAddr.toNat s.dstCap.toNat

/-- The destination window overlaps `[b, b+m)` (20_memory.md R78). -/
abbrev WindowOverlaps (s : State) (b m : Nat) : Prop :=
  Overlap s.dstAddr.toNat s.dstCap.toNat b m

/-- `MemWrite(DST_ADDR, bytes)`. -/
def State.writeWindow (s : State) (bytes : List Byte) : State :=
  { s with mem := s.mem.writeBytes s.dstAddr.toNat bytes }

/-- The timestamp register SEL names (42_pes.md R185). -/
def State.stamp (s : State) : Stamp → BitVec 64
  | .pts => s.pes.pts
  | .dts => s.pes.dts

/-- The PAT entry in the entry registers (10_state.md R41). -/
def Ent.pat (e : Ent) : PatEntry := { program := e.a, pid := e.b }

/-- The PMT entry in the entry registers (10_state.md R41). -/
def Ent.pmt (e : Ent) : PmtEntry :=
  { streamType := e.a.setWidth 8, pid := e.b, esAddr := e.addr, esLen := e.len }

/-- The PSM entry in the entry registers (10_state.md R41). -/
def Ent.psm (e : Ent) : PsmEntry :=
  { streamType := e.a.setWidth 8, streamId := e.b.setWidth 8, esAddr := e.addr, esLen := e.len }

/-- The entry registers after `TBL_GET` of a PAT entry: "unused (written 0 by `TBL_GET`)" (10_state.md R41). -/
def PatEntry.ent (e : PatEntry) : Ent := { a := e.program, b := e.pid, addr := 0, len := 0 }

/-- The entry registers after `TBL_GET` of a PMT entry (43_psi.md R222). -/
def PmtEntry.ent (e : PmtEntry) : Ent :=
  { a := e.streamType.setWidth 16, b := e.pid, addr := e.esAddr, len := e.esLen }

/-- The entry registers after `TBL_GET` of a PSM entry (43_psi.md R222). -/
def PsmEntry.ent (e : PsmEntry) : Ent :=
  { a := e.streamType.setWidth 16, b := e.streamId.setWidth 13, addr := e.esAddr, len := e.esLen }

end Sys2Proof.Machine
end

