-- ==== Sys2Proof/Machine/Control.lean ====
section
/-! DEFINITION. Control commands (44_control.md). -/

namespace Sys2Proof.Machine

/-- `NOP` (44_control.md R270): `reg[RESULT_HI] <- 0; done(0)`. -/
def execNop (s : State) : Host.Outcome State Fault Refusal :=
  finish s (.ok (s.done 0 0))

end Sys2Proof.Machine
end

