-- ==== Sys2Proof/Machine/Crc.lean ====
section
/-! DEFINITION. The CRC unit (40_crc.md). -/

namespace Sys2Proof.Machine

/-! ### The CRC function -/

/-- The polynomial `0x04C11DB7` (40_crc.md R140). -/
def crcPoly : Word := 0x04C11DB7

/-- One turn of R140's inner loop. -/
def crcShift (c : Word) : Word := if c.getLsbD 31 then (c <<< 1) ^^^ crcPoly else c <<< 1

/-- `repeat n times` of R140's inner loop. -/
def crcShifts : Nat → Word → Word
  | 0, c => c
  | n + 1, c => crcShifts n (crcShift c)

/-- One byte of R140's outer loop. -/
def crcByte (c : Word) (b : Byte) : Word := crcShifts 8 (c ^^^ (b.setWidth 32 <<< 24))

/-- `crc32(seed, s)` (40_crc.md R140): most significant bit first, no reflection, no final XOR. -/
def crc32 (seed : Word) (s : List Byte) : Word := s.foldl crcByte seed

/-- The table entry `T[i] = crc32(0, [i])` (40_crc.md R140). -/
def crcTable (i : Byte) : Word := crc32 0 [i]

/-- One byte of the table form: `c <- ((c << 8) mod 2^32) XOR T[(c[31:24] XOR b)]` (40_crc.md R140). -/
def crcTableByte (c : Word) (b : Byte) : Word := (c <<< 8) ^^^ crcTable (c.extractLsb' 24 8 ^^^ b)

/-- The table form of R140, "the same function". -/
def crc32ByTable (seed : Word) (s : List Byte) : Word := s.foldl crcTableByte seed

/-- The fixed PSI seed (40_crc.md R143). -/
def psiSeed : Word := 0xFFFFFFFF

/-- `S ++ BE32(crc32(0xFFFFFFFF, S))`: a section with its trailer (30_encoding.md R113). -/
def sealed (s : List Byte) : List Byte := s ++ be32 (crc32 psiSeed s)

/-- Does a section's trailer agree? `crc32(0xFFFFFFFF, S[0 .. n-5]) = rdBE(S[n-4 .. n-1])` (43_psi.md R240). -/
abbrev crcAgrees (s : List Byte) : Prop :=
  (crc32 psiSeed (s.take (s.length - 4))).toNat = rdBE (s.drop (s.length - 4))

/-! ### Commands -/

/-- The pseudocode of `CRC_RUN` (40_crc.md R142). -/
def crcRun (init : Bool) (s : State) : Except Raise State := do
  check (InMem s s.srcAddr.toNat s.srcLen.toNat) .invalidArgument
  let c := crc32 (if init then s.crcSeed else s.crcAcc)
    (s.mem.readBytes s.srcAddr.toNat s.srcLen.toNat)
  .ok (State.done { s with crcAcc := c } 0 c)

/-- `CRC_RUN` (40_crc.md R142). -/
def execCrcRun (init : Bool) (s : State) : Host.Outcome State Fault Refusal :=
  finish s (crcRun init s)

/-- The pseudocode of `CRC_CHECK` (40_crc.md R143). -/
def crcCheck (s : State) : Except Raise State := do
  check (InMem s s.srcAddr.toNat s.srcLen.toNat) .invalidArgument
  check (4 ≤ s.srcLen.toNat) .invalidArgument
  let c := crc32 psiSeed (s.mem.readBytes s.srcAddr.toNat (s.srcLen.toNat - 4))
  let t := rdBE (s.mem.readBytes (s.srcAddr.toNat + s.srcLen.toNat - 4) 4)
  check (c.toNat = t) .invalidData
  .ok (s.done 0 c)

/-- `CRC_CHECK` (40_crc.md R143). -/
def execCrcCheck (s : State) : Host.Outcome State Fault Refusal :=
  finish s (crcCheck s)

/-- The pseudocode of `CRC_SEAL` (40_crc.md R144). -/
def crcSeal (s : State) : Except Raise State := do
  check (InMem s s.srcAddr.toNat (s.srcLen.toNat + 4)) .invalidArgument
  let c := crc32 psiSeed (s.mem.readBytes s.srcAddr.toNat s.srcLen.toNat)
  .ok (State.done
    { s with mem := s.mem.writeBytes (s.srcAddr.toNat + s.srcLen.toNat) (be32 c) } 0 c)

/-- `CRC_SEAL` (40_crc.md R144). -/
def execCrcSeal (s : State) : Host.Outcome State Fault Refusal :=
  finish s (crcSeal s)

end Sys2Proof.Machine
end

