-- ==== Sys2Proof/Machine/Cursor.lean ====
section
/-! DEFINITION. The bit cursor unit (41_cursor.md). -/

namespace Sys2Proof.Machine

/-! ### The logical stream -/

/-- `CurTotal`, in bytes (41_cursor.md R160). -/
def Cursor.total (c : Cursor) : Nat := c.len0.toNat + c.len1.toNat

/-- The memory address of logical byte `i`: range 0, then range 1 (41_cursor.md R160). -/
def Cursor.addr (c : Cursor) (i : Nat) : Nat :=
  if i < c.len0.toNat then c.base0.toNat + i else c.base1.toNat + (i - c.len0.toNat)

/-- `CurByte(i)` (41_cursor.md R160). -/
def State.curByte (s : State) (i : Nat) : Byte := s.mem.read (s.cur.addr i)

/-- `CurByte(o) ++ ... ++ CurByte(o+n-1)`. -/
def State.curBytes (s : State) (o n : Nat) : List Byte :=
  (List.range n).map fun i => s.curByte (o + i)

/-- `CurBit(j) = CurByte(j div 8)[7 - (j mod 8)]` (41_cursor.md R160). -/
def State.curBit (s : State) (j : Nat) : Bool := (s.curByte (j / 8)).getLsbD (7 - j % 8)

/-- `Σ_{k=0}^{n-1} CurBit(j + k) · 2^(n-1-k)` (41_cursor.md R163). -/
def State.curBits (s : State) : Nat → Nat → Nat
  | _, 0 => 0
  | j, n + 1 => (s.curBit j).toNat * 2 ^ n + s.curBits (j + 1) n

/-- `cur.pos <- p`. -/
def State.setPos (s : State) (p : Nat) : State :=
  { s with cur := { s.cur with pos := BitVec.ofNat 32 p } }

/-! ### Commands -/

/-- The pseudocode of `CUR_INIT` (41_cursor.md R162). -/
def curInit (s : State) : Except Raise State := do
  let c := s.curRegs
  check (InMem s c.base0.toNat c.len0.toNat) .invalidArgument
  check (InMem s c.base1.toNat c.len1.toNat) .invalidArgument
  check (c.len0.toNat + c.len1.toNat < 2 ^ 29) .invalidArgument
  .ok (State.done
    { s with
      cur := { base0 := c.base0, len0 := c.len0, base1 := c.base1, len1 := c.len1,
               pos := 0, err := false } }
    0 (c.len0 + c.len1))

/-- `CUR_INIT` (41_cursor.md R162). -/
def execCurInit (s : State) : Host.Outcome State Fault Refusal :=
  finish s (curInit s)

/-- The pseudocode of `CUR_READ` (41_cursor.md R163). -/
def curRead (nbits : BitVec 7) (s : State) : Except Raise State := do
  let n := nbits.toNat
  check (s.cur.err = false ∧ s.cur.pos.toNat + n ≤ 8 * s.cur.total) .readPastEnd
  let v := BitVec.ofNat 64 (s.curBits s.cur.pos.toNat n)
  .ok ((s.setPos (s.cur.pos.toNat + n)).done (v.extractLsb' 32 32) (v.extractLsb' 0 32))

/-- `CUR_READ` (41_cursor.md R163). -/
def execCurRead (nbits : BitVec 7) (s : State) : Host.Outcome State Fault Refusal :=
  finish s (curRead nbits s)

/-- The pseudocode of `CUR_SKIP` (41_cursor.md R164). -/
def curSkip (k : BitVec 24) (s : State) : Except Raise State := do
  check (s.cur.err = false ∧ s.cur.pos.toNat + 8 * k.toNat ≤ 8 * s.cur.total) .pastEnd
  let t := s.setPos (s.cur.pos.toNat + 8 * k.toNat)
  .ok (t.done 0 t.cur.pos)

/-- `CUR_SKIP` (41_cursor.md R164). -/
def execCurSkip (k : BitVec 24) (s : State) : Host.Outcome State Fault Refusal :=
  finish s (curSkip k s)

/-- The pseudocode of `CUR_SEEK` (41_cursor.md R165). -/
def curSeek (k : BitVec 24) (s : State) : Except Raise State := do
  check (s.cur.err = false ∧ k.toNat ≤ s.cur.total) .pastEnd
  let t := s.setPos (8 * k.toNat)
  .ok (t.done 0 t.cur.pos)

/-- `CUR_SEEK` (41_cursor.md R165). -/
def execCurSeek (k : BitVec 24) (s : State) : Host.Outcome State Fault Refusal :=
  finish s (curSeek k s)

/-! ### The decoders' protocol -/

/-- The prologue (41_cursor.md R166): the byte offset `start` of an aligned cursor not in error. -/
def prologue (s : State) : Except Raise Nat := do
  check (s.cur.pos.toNat % 8 = 0) .invalidArgument
  check (s.cur.err = false) .invalidData
  .ok (s.cur.pos.toNat / 8)

/-- `take(n)` at offset `o` (41_cursor.md R166); the caller goes on at `o + n`. -/
def take (s : State) (o n : Nat) : Except Raise (List Byte) := do
  check (o + n ≤ s.cur.total) .pastEnd
  .ok (s.curBytes o n)

/-- `peek()` at offset `o` (41_cursor.md R166). -/
def peek (s : State) (o : Nat) : Except Raise Byte := do
  check (o + 1 ≤ s.cur.total) .pastEnd
  .ok (s.curByte o)

/-- The epilogue: `cur.pos <- 8·o` (41_cursor.md R166). -/
def State.epilogue (s : State) (o : Nat) : State := s.setPos (8 * o)

end Sys2Proof.Machine
end

