-- ==== Sys2Proof/Machine/Pes.lean ====
section
/-! DEFINITION. The PES header codec unit (42_pes.md; wire formats 30_encoding.md R100 to R107). -/

namespace Sys2Proof.Machine

/-! ### Stream identifiers -/

/-- The classes of 30_encoding.md R107. -/
inductive StreamClass where
  | notPes
  | noHeader
  | video
  | audio
  | other
  deriving DecidableEq, Repr

/-- `NoHdr(sid)` (42_pes.md R180). -/
def noHdr (sid : Byte) : Bool :=
  [0xBC, 0xBE, 0xBF, 0xF0, 0xF1, 0xF2, 0xF8, 0xFF].contains sid

/-- `HdrBearing(sid)` (42_pes.md R180). -/
def hdrBearing (sid : Byte) : Bool := decide (0xBD ≤ sid.toNat) && !noHdr sid

/-- `Video(sid)` (42_pes.md R180). -/
def isVideo (sid : Byte) : Bool := decide (0xE0 ≤ sid.toNat) && decide (sid.toNat ≤ 0xEF)

/-- The class of a stream_id (30_encoding.md R107). -/
def streamClass (sid : Byte) : StreamClass :=
  if sid.toNat ≤ 0xBB then .notPes
  else if noHdr sid then .noHeader
  else if isVideo sid then .video
  else if 0xC0 ≤ sid.toNat ∧ sid.toNat ≤ 0xDF then .audio
  else .other

/-! ### The 5-byte timestamp field -/

/-- `TSField(p, v)` (30_encoding.md R100). -/
def tsField (p : BitVec 4) (v : BitVec 33) : List Byte :=
  [p ++ v.extractLsb' 30 3 ++ 1#1,
    v.extractLsb' 22 8,
    v.extractLsb' 15 7 ++ 1#1,
    v.extractLsb' 7 8,
    v.extractLsb' 0 7 ++ 1#1]

/-- `TSValue(b)` (30_encoding.md R100). -/
def tsValue (b : List Byte) : BitVec 33 :=
  (byteAt b 0).extractLsb' 1 3 ++ byteAt b 1 ++ (byteAt b 2).extractLsb' 1 7 ++ byteAt b 3 ++
    (byteAt b 4).extractLsb' 1 7

/-- `TSPrefix(b)` (30_encoding.md R100). -/
def tsPrefix (b : List Byte) : BitVec 4 := (byteAt b 0).extractLsb' 4 4

/-- `TSMarkersOK(b)` (30_encoding.md R100). -/
def tsMarkersOk (b : List Byte) : Bool :=
  (byteAt b 0).getLsbD 0 && (byteAt b 2).getLsbD 0 && (byteAt b 4).getLsbD 0

/-- `v mod 2^33`: the wire value of a timestamp register (42_pes.md R181). -/
def wireStamp (v : BitVec 64) : BitVec 33 := v.setWidth 33

/-- "A read always yields a value in `[0, 2^33)`, zero-extended to 64 bits" (42_pes.md R181). -/
def stampOfWire (v : BitVec 33) : BitVec 64 := v.setWidth 64

/-! ### Timestamp field commands -/

/-- The pseudocode of `TS_ENC` (42_pes.md R185). -/
def tsEnc (sel : Stamp) (pfx : BitVec 4) (s : State) : Except Raise State := do
  check (WindowInMem s) .invalidArgument
  let v := s.stamp sel
  check (v ≠ noValue) .invalidArgument
  check (5 ≤ s.dstCap.toNat) .outOfMemory
  .ok ((s.writeWindow (tsField pfx (wireStamp v))).done 0 5)

/-- `TS_ENC` (42_pes.md R185). -/
def execTsEnc (sel : Stamp) (pfx : BitVec 4) (s : State) : Host.Outcome State Fault Refusal :=
  finish s (tsEnc sel pfx s)

/-- RESULT_HI of `TS_DEC`: prefix in `[7:4]`, bit 32 in `[0]` (42_pes.md R186). -/
def tsDecHi (t : List Byte) : Word := 0#24 ++ tsPrefix t ++ 0#3 ++ (tsValue t).extractLsb' 32 1

/-- The pseudocode of `TS_DEC` (42_pes.md R186). -/
def tsDec (s : State) : Except Raise State := do
  let o ← prologue s
  let t ← take s o 5
  .ok (((s.epilogue (o + 5)).mark (!tsMarkersOk t)).done (tsDecHi t) ((tsValue t).extractLsb' 0 32))

/-- `TS_DEC` (42_pes.md R186). -/
def execTsDec (s : State) : Host.Outcome State Fault Refusal :=
  finish s (tsDec s)

/-! ### PES header write -/

/-- The PES header `PES_WRITE` emits, before its optional timestamps: bytes 0 to 8 of 30_encoding.md R101,
R102. -/
def pesFixed (sid : Byte) (len : BitVec 16) (flags : BitVec 6) (f7 hdrLen : Byte) : List Byte :=
  [0x00, 0x00, 0x01, sid] ++ be16 len ++ [0b10#2 ++ flags, f7, hdrLen]

/-- Is a PTS emitted? (42_pes.md R182) -/
def emitsPts (p : Pes) : Bool := p.pts != noValue

/-- Is a DTS emitted? "comparing the 64-bit register values" (42_pes.md R182). -/
def emitsDts (p : Pes) : Bool := emitsPts p && (p.dts != noValue) && (p.dts != p.pts)

/-- `H` of `PES_WRITE` (42_pes.md R190). -/
def pesOptLen (p : Pes) : Nat := (if emitsPts p then 5 else 0) + (if emitsDts p then 5 else 0)

/-- `f7` of `PES_WRITE` (42_pes.md R190). -/
def pesFlagsByte (p : Pes) : Byte := BitVec.ofBool (emitsPts p) ++ BitVec.ofBool (emitsDts p) ++ 0#6

/-- The timestamps `PES_WRITE` appends (42_pes.md R190). -/
def pesStamps (p : Pes) : List Byte :=
  (if emitsPts p then tsField (if emitsDts p then 0b0011 else 0b0010) (wireStamp p.pts) else []) ++
    (if emitsDts p then tsField 0b0001 (wireStamp p.dts) else [])

/-- `hdr` of `PES_WRITE` (42_pes.md R190). -/
def pesHeader (p : Pes) (len : Nat) : List Byte :=
  pesFixed p.sid (BitVec.ofNat 16 len) p.flags (pesFlagsByte p) (BitVec.ofNat 8 (pesOptLen p)) ++
    pesStamps p

/-- `L` of `PES_WRITE` (42_pes.md R190): 0 for UNB, which only a video stream may ask for; else
`3 + H + PES_PAYLOAD_LEN`, or 0 for a video stream whose length does not fit 16 bits. -/
def pesPacketLen (unb : Bool) (p : Pes) : Except Raise Nat := do
  if unb then
    check (isVideo p.sid) .invalidArgument
    .ok 0
  else
    let len := 3 + pesOptLen p + p.payloadLen.toNat
    if 0xFFFF < len then
      check (isVideo p.sid) .invalidArgument
      .ok 0
    else .ok len

/-- The pseudocode of `PES_WRITE` (42_pes.md R190). -/
def pesWrite (unb : Bool) (s : State) : Except Raise State := do
  check (hdrBearing s.pes.sid) .invalidArgument
  check (WindowInMem s) .invalidArgument
  check (s.pes.dts ≠ noValue → s.pes.pts ≠ noValue) .invalidArgument
  let len ← pesPacketLen unb s.pes
  check (9 + pesOptLen s.pes ≤ s.dstCap.toNat) .outOfMemory
  let t := s.writeWindow (pesHeader s.pes len)
  .ok (State.done
    { t with
      pes := { t.pes with
        pktLen := BitVec.ofNat 16 len
        opt := 0#8 ++ pesFlagsByte s.pes
        hdrLen := BitVec.ofNat 8 (pesOptLen s.pes) } }
    0 (BitVec.ofNat 32 (9 + pesOptLen s.pes)))

/-- `PES_WRITE` (42_pes.md R190). -/
def execPesWrite (unb : Bool) (s : State) : Host.Outcome State Fault Refusal :=
  finish s (pesWrite unb s)

/-! ### PES header read -/

/-- What `PES_READ` carries along: the offset `o`, the record `r` (its `payloadLen` is the register's, which
is not written), `mk` (here `flag`) and `r.mpeg1` (42_pes.md R200). -/
structure PesScan where
  o : Nat
  r : Pes
  flag : Bool := false
  mpeg1 : Bool := false
  deriving DecidableEq, Repr

/-- Inside the optional-field area `hb` of the MPEG-2 layout: the index `k`, the record and `mk` (here
`flag`) (42_pes.md R201). -/
structure OptScan where
  k : Nat
  r : Pes
  flag : Bool
  deriving DecidableEq, Repr

/-- `get(n)` at index `k` of the optional-field area (42_pes.md R201); the caller goes on at `k + n`. -/
def getField (hb : List Byte) (k n : Nat) : Except Raise (List Byte) := do
  check (k + n ≤ hb.length) .invalidData
  .ok (slice hb k n)

/-- Is a timestamp field with this prefix and its markers as the format fixes them? (42_pes.md R183) -/
def stampOk (p : BitVec 4) (t : List Byte) : Bool := tsPrefix t == p && tsMarkersOk t

/-- PTS and DTS of the MPEG-2 layout (42_pes.md R201, R184). -/
def optStamps (f : Byte) (hb : List Byte) (a : OptScan) : Except Raise OptScan :=
  if f.getLsbD 7 then
    if f.getLsbD 6 then do
      let t ← getField hb a.k 5
      let u ← getField hb (a.k + 5) 5
      .ok { k := a.k + 10
            r := { a.r with pts := stampOfWire (tsValue t), dts := stampOfWire (tsValue u) }
            flag := a.flag || !stampOk 0b0011 t || !stampOk 0b0001 u }
    else do
      let t ← getField hb a.k 5
      .ok { k := a.k + 5
            r := { a.r with pts := stampOfWire (tsValue t), dts := stampOfWire (tsValue t) }
            flag := a.flag || !stampOk 0b0010 t }
  else .ok a

/-- `ESCR(get(6))` (42_pes.md R201, R202). -/
def optEscr (f : Byte) (hb : List Byte) (a : OptScan) : Except Raise OptScan :=
  if f.getLsbD 5 then do
    let s ← getField hb a.k 6
    let e := BitVec.ofNat 48 (rdBE s)
    .ok { k := a.k + 6
          r := { a.r with
            escrBase := e.extractLsb' 43 3 ++ e.extractLsb' 27 15 ++ e.extractLsb' 11 15
            escrExt := e.extractLsb' 1 9 }
          flag := a.flag || !(e.getLsbD 42 && e.getLsbD 26 && e.getLsbD 10 && e.getLsbD 0) }
  else .ok a

/-- `ESRate(get(3))` (42_pes.md R201, R202). -/
def optEsRate (f : Byte) (hb : List Byte) (a : OptScan) : Except Raise OptScan :=
  if f.getLsbD 4 then do
    let s ← getField hb a.k 3
    let e := BitVec.ofNat 24 (rdBE s)
    .ok { k := a.k + 3
          r := { a.r with esRate := e.extractLsb' 1 22 }
          flag := a.flag || !(e.getLsbD 23 && e.getLsbD 0) }
  else .ok a

/-- The DSM trick mode byte, kept whole (42_pes.md R201). -/
def optTrick (f : Byte) (hb : List Byte) (a : OptScan) : Except Raise OptScan :=
  if f.getLsbD 3 then do
    let s ← getField hb a.k 1
    .ok { a with k := a.k + 1, r := { a.r with trick := byteAt s 0 } }
  else .ok a

/-- additional_copy_info and its marker (42_pes.md R201). -/
def optAddCopy (f : Byte) (hb : List Byte) (a : OptScan) : Except Raise OptScan :=
  if f.getLsbD 2 then do
    let s ← getField hb a.k 1
    let b := byteAt s 0
    .ok { k := a.k + 1
          r := { a.r with addCopy := b.extractLsb' 0 7 }
          flag := a.flag || !b.getLsbD 7 }
  else .ok a

/-- previous_PES_packet_CRC (42_pes.md R201). -/
def optPrevCrc (f : Byte) (hb : List Byte) (a : OptScan) : Except Raise OptScan :=
  if f.getLsbD 1 then do
    let s ← getField hb a.k 2
    .ok { a with k := a.k + 2, r := { a.r with prevCrc := field16 s 0 } }
  else .ok a

/-- PES private data, 16 bytes, skipped (42_pes.md R203). -/
def extPrivate (x : Byte) (hb : List Byte) (a : OptScan) : Except Raise OptScan :=
  if x.getLsbD 7 then do
    let _ ← getField hb a.k 16
    .ok { a with k := a.k + 16 }
  else .ok a

/-- The pack header field, skipped (42_pes.md R203). -/
def extPack (x : Byte) (hb : List Byte) (a : OptScan) : Except Raise OptScan :=
  if x.getLsbD 6 then do
    let n ← getField hb a.k 1
    let _ ← getField hb (a.k + 1) (byteAt n 0).toNat
    .ok { a with k := a.k + 1 + (byteAt n 0).toNat }
  else .ok a

/-- The program packet sequence counter's markers (42_pes.md R203). -/
def extCounter (x : Byte) (hb : List Byte) (a : OptScan) : Except Raise OptScan :=
  if x.getLsbD 5 then do
    let c ← getField hb a.k 2
    .ok { a with
      k := a.k + 2
      flag := a.flag || !((byteAt c 0).getLsbD 7 && (byteAt c 1).getLsbD 7) }
  else .ok a

/-- The P-STD buffer (42_pes.md R203). -/
def extStdBuf (x : Byte) (hb : List Byte) (a : OptScan) : Except Raise OptScan :=
  if x.getLsbD 4 then do
    let s ← getField hb a.k 2
    let p := field16 s 0
    .ok { k := a.k + 2
          r := { a.r with
            stdBuf := { valid := true, scale := p.getLsbD 13, size := p.extractLsb' 0 13 } }
          flag := a.flag || !(p.extractLsb' 14 2 == 0b01) }
  else .ok a

/-- Extension 2, its data skipped (42_pes.md R203). -/
def extField (x : Byte) (hb : List Byte) (a : OptScan) : Except Raise OptScan :=
  if x.getLsbD 0 then do
    let s ← getField hb a.k 1
    let y := byteAt s 0
    let _ ← getField hb (a.k + 1) (y.extractLsb' 0 7).toNat
    .ok { a with
      k := a.k + 1 + (y.extractLsb' 0 7).toNat
      flag := a.flag || !y.getLsbD 7 }
  else .ok a

/-- `Extension()` (42_pes.md R203). -/
def optExtension (f : Byte) (hb : List Byte) (a : OptScan) : Except Raise OptScan :=
  if f.getLsbD 0 then do
    let s ← getField hb a.k 1
    let x := byteAt s 0
    let a := { a with k := a.k + 1, r := { a.r with opt := x ++ a.r.opt.extractLsb' 0 8 } }
    let a ← extPrivate x hb a
    let a ← extPack x hb a
    let a ← extCounter x hb a
    let a ← extStdBuf x hb a
    extField x hb a
  else .ok a

/-- The optional fields in the order of 30_encoding.md R103 (42_pes.md R201). -/
def optFields (f : Byte) (hb : List Byte) (a : OptScan) : Except Raise OptScan := do
  let a ← optStamps f hb a
  let a ← optEscr f hb a
  let a ← optEsRate f hb a
  let a ← optTrick f hb a
  let a ← optAddCopy f hb a
  let a ← optPrevCrc f hb a
  optExtension f hb a

/-- `MPEG2Body()` (42_pes.md R201). -/
def mpeg2Body (s : State) (p : PesScan) : Except Raise PesScan := do
  let b ← take s p.o 3
  check ((byteAt b 0).extractLsb' 6 2 = 0b10) .invalidData
  let f := byteAt b 1
  let h := byteAt b 2
  check (f.extractLsb' 6 2 ≠ 0b01) .invalidData
  let hb ← take s (p.o + 3) h.toNat
  let r := { p.r with flags := (byteAt b 0).extractLsb' 0 6, hdrLen := h, opt := 0#8 ++ f }
  let a ← optFields f hb { k := 0, r := r, flag := p.flag }
  .ok { p with o := p.o + 3 + h.toNat, r := a.r, flag := a.flag }

/-- `while peek() = 0xFF: take(1); n <- n + 1`: the offset after the stuffing and the count (42_pes.md R204).
`fuel` is the number of bytes left, so that with none left `peek()` fails. -/
def skipStuffing (s : State) : Nat → Nat → Nat → Except Raise (Nat × Nat)
  | 0, _, _ => .error .pastEnd
  | fuel + 1, o, n => do
    let b ← peek s o
    if b = 0xFF then skipStuffing s fuel (o + 1) (n + 1) else .ok (o, n)

/-- The optional STD buffer of the MPEG-1 layout (42_pes.md R204). -/
def mpeg1StdBuf (s : State) (p : PesScan) : Except Raise PesScan := do
  let b ← peek s p.o
  if b.extractLsb' 6 2 = 0b01 then
    let t ← take s p.o 2
    let v := field16 t 0
    .ok { p with
      o := p.o + 2
      r := { p.r with
        stdBuf := { valid := true, scale := v.getLsbD 13, size := v.extractLsb' 0 13 } } }
  else .ok p

/-- The timestamps of the MPEG-1 layout, or `0x0F` (42_pes.md R204). -/
def mpeg1Stamps (s : State) (p : PesScan) : Except Raise PesScan := do
  let b ← peek s p.o
  if b.extractLsb' 4 4 = 0b0010 then
    let t ← take s p.o 5
    .ok { p with
      o := p.o + 5
      r := { p.r with
        pts := stampOfWire (tsValue t), dts := stampOfWire (tsValue t), opt := 0x0080 }
      flag := p.flag || !tsMarkersOk t }
  else if b.extractLsb' 4 4 = 0b0011 then
    let t ← take s p.o 5
    let u ← take s (p.o + 5) 5
    .ok { p with
      o := p.o + 10
      r := { p.r with
        pts := stampOfWire (tsValue t), dts := stampOfWire (tsValue u), opt := 0x00C0 }
      flag := p.flag || !stampOk 0b0001 u || !tsMarkersOk t }
  else if b = 0x0F then
    let _ ← take s p.o 1
    .ok { p with o := p.o + 1 }
  else .error .invalidData

/-- `MPEG1Body()` (42_pes.md R204). -/
def mpeg1Body (s : State) (p : PesScan) : Except Raise PesScan := do
  let (o, n) ← skipStuffing s (s.cur.total - p.o) p.o 0
  let p := { p with o := o, flag := p.flag || decide (16 < n), mpeg1 := true }
  let p ← mpeg1StdBuf s p
  mpeg1Stamps s p

/-- The part of the header after byte 5 (42_pes.md R200). -/
def pesBody (layout : Layout) (s : State) (p : PesScan) : Except Raise PesScan :=
  if noHdr p.r.sid then .ok p
  else
    match layout with
    | .mpeg2 => mpeg2Body s p
    | .mpeg1 => mpeg1Body s p
    | .auto => do
      let b ← peek s p.o
      if b.extractLsb' 6 2 = 0b10 then mpeg2Body s p else mpeg1Body s p

/-- `Commit(r, mk)` (42_pes.md R205). -/
def commitPes (s : State) (p : PesScan) : State :=
  State.mark { s with pes := p.r, status := { s.status with mpeg1 := p.mpeg1 } } p.flag

/-- The pseudocode of `PES_READ` (42_pes.md R200). -/
def pesRead (layout : Layout) (s : State) : Except Raise State := do
  let start ← prologue s
  let h ← take s start 6
  check (byteAt h 0 = 0x00 ∧ byteAt h 1 = 0x00 ∧ byteAt h 2 = 0x01) .invalidData
  let sid := byteAt h 3
  let len := field16 h 4
  check (0xBC ≤ sid.toNat) .invalidData
  let p ← pesBody layout s
    { o := start + 6, r := { sid := sid, pktLen := len, payloadLen := s.pes.payloadLen } }
  let consumed := p.o - start
  check (len = 0 ∨ consumed - 6 ≤ len.toNat) .invalidData
  .ok (((commitPes s p).epilogue p.o).done
    (if len = 0 then 0 else BitVec.ofNat 32 (len.toNat + 6 - consumed))
    (BitVec.ofNat 32 consumed))

/-- `PES_READ` (42_pes.md R200). -/
def execPesRead (layout : Layout) (s : State) : Host.Outcome State Fault Refusal :=
  finish s (pesRead layout s)

end Sys2Proof.Machine
end

