-- ==== Sys2Proof/Machine/Sections.lean ====
section
/-! DEFINITION. The section layouts the framer writes (30_encoding.md R110 to R113) as functions of the table's
data. Each gives the bytes `S` before the CRC trailer. -/

namespace Sys2Proof.Machine

/-- A PMT or PSM stream with its descriptor bytes in hand: `id` is the 13-bit PID or the 8-bit stream_id. -/
structure EsData (n : Nat) where
  streamType : Byte
  id : BitVec n
  info : List Byte
  deriving DecidableEq, Repr

/-- `{'11':2, version:5, current_next_indicator = 1}` (30_encoding.md R110). -/
def versionByte (ver : BitVec 5) : Byte := 0b11#2 ++ ver ++ 1#1

/-- `SL` of a PAT with `n` entries (43_psi.md R233). -/
def patLength (n : Nat) : Nat := 9 + 4 * n

/-- `S` of a PAT (43_psi.md R233, 30_encoding.md R110). -/
def patSection (tsid : BitVec 16) (ver : BitVec 5) (es : List PatEntry) : List Byte :=
  [0x00] ++ be12 0b1011 (BitVec.ofNat 12 (patLength es.length)) ++ be16 tsid ++
    [versionByte ver, 0x00, 0x00] ++
    es.flatMap fun e => be16 e.program ++ be13 e.pid

/-- `SL` of a PMT with `pi` bytes of program info and ES-info lengths `esl` (43_psi.md R235). -/
def pmtLength (pi : Nat) (esl : List Nat) : Nat := 13 + pi + (esl.map (5 + ·)).sum

/-- `S` of a PMT (43_psi.md R235, 30_encoding.md R111). -/
def pmtSection (prog : BitVec 16) (ver : BitVec 5) (pcr : BitVec 13) (info : List Byte)
    (es : List (EsData 13)) : List Byte :=
  [0x02] ++
    be12 0b1011 (BitVec.ofNat 12 (pmtLength info.length (es.map (·.info.length)))) ++
    be16 prog ++ [versionByte ver, 0x00, 0x00] ++ be13 pcr ++
    be12 0b1111 (BitVec.ofNat 12 info.length) ++ info ++
    es.flatMap fun e =>
      [e.streamType] ++ be13 e.id ++ be12 0b1111 (BitVec.ofNat 12 e.info.length) ++ e.info

/-- `ESML` of a PSM (43_psi.md R237). -/
def psmMapLength (esl : List Nat) : Nat := (esl.map (4 + ·)).sum

/-- `PSML` (43_psi.md R237). -/
def psmLength (pi : Nat) (esl : List Nat) : Nat := 10 + pi + psmMapLength esl

/-- `S` of a PSM (43_psi.md R237, 30_encoding.md R112): byte 6 is current_next_indicator 1,
single_extension_stream_flag, a reserved 1 and the version; byte 7 is `0xFF`. -/
def psmSection (ver : BitVec 5) (sext : Bool) (info : List Byte) (es : List (EsData 8)) :
    List Byte :=
  [0x00, 0x00, 0x01, 0xBC] ++
    be16 (BitVec.ofNat 16 (psmLength info.length (es.map (·.info.length)))) ++
    [1#1 ++ BitVec.ofBool sext ++ 1#1 ++ ver, 0xFF] ++
    be16 (BitVec.ofNat 16 info.length) ++ info ++
    be16 (BitVec.ofNat 16 (psmMapLength (es.map (·.info.length)))) ++
    es.flatMap fun e =>
      [e.streamType, e.id] ++ be16 (BitVec.ofNat 16 e.info.length) ++ e.info

end Sys2Proof.Machine
end

