-- ==== Sys2Proof/Machine/Tables.lean ====
section
/-! DEFINITION. Staging table access (43_psi.md section 1; 10_state.md R40 to R42). -/

namespace Sys2Proof.Machine

/-- The entries the COUNT register names, `pat.e[0..PAT_COUNT-1]` (10_state.md R40). -/
def State.patList (s : State) : List PatEntry := s.pat.entries.take (s.count .pat).toNat

/-- `pmt.e[0..PMT_COUNT-1]` (10_state.md R40). -/
def State.pmtList (s : State) : List PmtEntry := s.pmt.entries.take (s.count .pmt).toNat

/-- `psm.e[0..PSM_COUNT-1]` (10_state.md R40). -/
def State.psmList (s : State) : List PsmEntry := s.psm.entries.take (s.count .psm).toNat

/-- `TBL(TSEL).e <- []`, COUNT 0, VALID 0 (43_psi.md R220). -/
def State.clearTable (s : State) : Table → State
  | .pat => { s with pat := { s.pat with entries := [], valid := false } }
  | .pmt => { s with pmt := { s.pmt with entries := [], valid := false } }
  | .psm => { s with psm := { s.psm with entries := [], valid := false } }

/-- `TBL_CLEAR` (43_psi.md R220). -/
def execTblClear (t : Table) (s : State) : Host.Outcome State Fault Refusal :=
  finish s (.ok ((s.clearTable t).done 0 0))

/-- `TBL(TSEL).e <- TBL(TSEL).e ++ [e]`, the entry built from the entry registers (43_psi.md R221). -/
def State.addEntry (s : State) : Table → State
  | .pat => { s with pat := { s.pat with entries := s.pat.entries ++ [s.ent.pat] } }
  | .pmt => { s with pmt := { s.pmt with entries := s.pmt.entries ++ [s.ent.pmt] } }
  | .psm => { s with psm := { s.psm with entries := s.psm.entries ++ [s.ent.psm] } }

/-- The pseudocode of `TBL_ADD` (43_psi.md R221). -/
def tblAdd (t : Table) (s : State) : Except Raise State := do
  check ((s.count t).toNat ≠ s.cap t) .invalidArgument
  let s' := s.addEntry t
  .ok (s'.done 0 ((s'.count t).setWidth 32))

/-- `TBL_ADD` (43_psi.md R221). -/
def execTblAdd (t : Table) (s : State) : Host.Outcome State Fault Refusal :=
  finish s (tblAdd t s)

/-- Entry `idx` of a table as the entry registers show it (43_psi.md R222). -/
def State.entryAt (s : State) (t : Table) (idx : Nat) : Option Ent :=
  match t with
  | .pat => s.patList[idx]?.map PatEntry.ent
  | .pmt => s.pmtList[idx]?.map PmtEntry.ent
  | .psm => s.psmList[idx]?.map PsmEntry.ent

/-- The pseudocode of `TBL_GET` (43_psi.md R222): there is no entry at an index past the last, "IDX ≥
reg[COUNT(TSEL)]". -/
def tblGet (t : Table) (idx : BitVec 16) (s : State) : Except Raise State :=
  match s.entryAt t idx.toNat with
  | none => .error .invalidArgument
  | some e => .ok (State.done { s with ent := e } 0 ((s.count t).setWidth 32))

/-- `TBL_GET` (43_psi.md R222). -/
def execTblGet (t : Table) (idx : BitVec 16) (s : State) : Host.Outcome State Fault Refusal :=
  finish s (tblGet t idx s)

end Sys2Proof.Machine
end

