-- ==== Sys2Proof/Machine/PsiRead.lean ====
section
/-! DEFINITION. The section readers (43_psi.md section 3). -/

namespace Sys2Proof.Machine

/-- An item of a section's stream loop: where its ES-info lies in the section, and how long it is
(43_psi.md R246, R251). -/
structure EsItem (n : Nat) where
  streamType : Byte
  id : BitVec n
  offset : Nat
  len : Nat
  deriving DecidableEq, Repr

/-- Step 1 of 43_psi.md R240: the destination window is in memory and apart from both latched cursor
ranges. -/
def checkArenaWindow (s : State) : Except Raise Unit := do
  check (WindowInMem s) .invalidArgument
  check (¬ WindowOverlaps s s.cur.base0.toNat s.cur.len0.toNat ∧
    ¬ WindowOverlaps s s.cur.base1.toNat s.cur.len1.toNat) .invalidArgument

/-- `Σ esl over L` (43_psi.md R246). -/
def esTotal {n : Nat} (items : List (EsItem n)) : Nat := (items.map (·.len)).sum

/-- The bytes `Arena(P, L)` writes at DST_ADDR (43_psi.md R247). -/
def arenaBytes {n : Nat} (body info : List Byte) (items : List (EsItem n)) : List Byte :=
  info ++ items.flatMap fun e => slice body e.offset e.len

/-! ### PAT -/

/-- Entry `i` of a PAT section (43_psi.md R241). -/
def patEntryOf (body : List Byte) (i : Nat) : PatEntry :=
  { program := field16 body (8 + 4 * i), pid := field13 body (10 + 4 * i) }

/-- The pseudocode of `PAT_READ` (43_psi.md R241). -/
def patRead (s : State) : Except Raise State := do
  let o ← prologue s
  let h ← take s o 3
  check (byteAt h 0 = 0x00 ∧ (byteAt h 1).getLsbD 7 = true) .invalidData
  let sl := (field12 h 1).toNat
  check (9 ≤ sl ∧ sl ≤ 1021 ∧ (sl - 9) % 4 = 0) .invalidData
  let rest ← take s (o + 3) sl
  let body := h ++ rest
  let n := 3 + sl
  check (crcAgrees body) .invalidData
  let tsid := field16 body 3
  let ver := (byteAt body 5).extractLsb' 1 5
  let cni := (byteAt body 5).getLsbD 0
  let count := (sl - 9) / 4
  if cni = false ∨ (s.pat.valid = true ∧ ver = s.pat.ver ∧ tsid = s.pat.tsid) then
    .ok ((s.epilogue (o + n)).doneIgnored (BitVec.ofNat 32 count) (BitVec.ofNat 32 n))
  else
    check (count ≤ s.params.patCap) .invalidArgument
    let pat := { tsid := tsid, ver := ver, valid := true,
                 entries := (List.range count).map (patEntryOf body) }
    .ok ((State.epilogue { s with pat := pat } (o + n)).done
      (BitVec.ofNat 32 count) (BitVec.ofNat 32 n))

/-- `PAT_READ` (43_psi.md R241). -/
def execPatRead (s : State) : Host.Outcome State Fault Refusal :=
  finish s (patRead s)

/-! ### PMT -/

/-- The entry loop of 43_psi.md R246 from `k`, up to the CRC at `stop`. `fuel` bounds its turns; `stop - k`
is enough, since every turn advances `k`. -/
def pmtItems (body : List Byte) (stop : Nat) : Nat → Nat → Except Raise (List (EsItem 13))
  | 0, _ => .ok []
  | fuel + 1, k =>
    if k < stop then do
      check (k + 5 ≤ stop) .invalidData
      let esl := (field12 body (k + 3)).toNat
      check (k + 5 + esl ≤ stop) .invalidData
      let rest ← pmtItems body stop fuel (k + 5 + esl)
      .ok ({ streamType := byteAt body k, id := field13 body (k + 1), offset := k + 5, len := esl }
        :: rest)
    else .ok []

/-- The staging entries of a rebuilt PMT: "entry `i` gets `es_addr = DST_ADDR + |P| + Σ_{j<i} L[j].length`"
(43_psi.md R247); `a` is the running address (log 8). -/
def pmtArenaEntries : Nat → List (EsItem 13) → List PmtEntry
  | _, [] => []
  | a, e :: items =>
    { streamType := e.streamType, pid := e.id, esAddr := BitVec.ofNat 32 a,
      esLen := BitVec.ofNat 32 e.len } :: pmtArenaEntries (a + e.len) items

/-- The pseudocode of `PMT_READ` (43_psi.md R246). -/
def pmtRead (s : State) : Except Raise State := do
  checkArenaWindow s
  let o ← prologue s
  let h ← take s o 3
  check (byteAt h 0 = 0x02 ∧ (byteAt h 1).getLsbD 7 = true) .invalidData
  let sl := (field12 h 1).toNat
  check (13 ≤ sl ∧ sl ≤ 1021) .invalidData
  let rest ← take s (o + 3) sl
  let body := h ++ rest
  let n := 3 + sl
  check (crcAgrees body) .invalidData
  let prog := field16 body 3
  let ver := (byteAt body 5).extractLsb' 1 5
  let cni := (byteAt body 5).getLsbD 0
  let pcr := field13 body 8
  let pi := (field12 body 10).toNat
  check (12 + pi ≤ n - 4) .invalidData
  let items ← pmtItems body (n - 4) (n - 4 - (12 + pi)) (12 + pi)
  if cni = false ∨ (s.pmt.valid = true ∧ ver = s.pmt.ver ∧ prog = s.pmt.prog) then
    .ok ((s.epilogue (o + n)).doneIgnored 0 (BitVec.ofNat 32 n))
  else
    check (items.length ≤ s.params.pmtCap) .invalidArgument
    let used := pi + esTotal items
    check (used ≤ s.dstCap.toNat) .outOfMemory
    let pmt := { prog := prog, ver := ver, valid := true, pcrPid := pcr,
                 pinfoAddr := s.dstAddr, pinfoLen := BitVec.ofNat 32 pi,
                 entries := pmtArenaEntries (s.dstAddr.toNat + pi) items }
    let t := s.writeWindow (arenaBytes body (slice body 12 pi) items)
    .ok ((State.epilogue { t with pmt := pmt } (o + n)).done
      (BitVec.ofNat 32 used) (BitVec.ofNat 32 n))

/-- `PMT_READ` (43_psi.md R246). -/
def execPmtRead (s : State) : Host.Outcome State Fault Refusal :=
  finish s (pmtRead s)

/-! ### PSM -/

/-- The entry loop of 43_psi.md R251; `fuel` as in `pmtItems`. -/
def psmItems (body : List Byte) (stop : Nat) : Nat → Nat → Except Raise (List (EsItem 8))
  | 0, _ => .ok []
  | fuel + 1, k =>
    if k < stop then do
      check (k + 4 ≤ stop) .invalidData
      let esl := (field16 body (k + 2)).toNat
      check (k + 4 + esl ≤ stop) .invalidData
      let rest ← psmItems body stop fuel (k + 4 + esl)
      .ok ({ streamType := byteAt body k, id := byteAt body (k + 1), offset := k + 4, len := esl }
        :: rest)
    else .ok []

/-- The staging entries of a rebuilt PSM (43_psi.md R247); `a` is the running address (log 8). -/
def psmArenaEntries : Nat → List (EsItem 8) → List PsmEntry
  | _, [] => []
  | a, e :: items =>
    { streamType := e.streamType, streamId := e.id, esAddr := BitVec.ofNat 32 a,
      esLen := BitVec.ofNat 32 e.len } :: psmArenaEntries (a + e.len) items

/-- The pseudocode of `PSM_READ` (43_psi.md R251); its marker bit, R252. -/
def psmRead (s : State) : Except Raise State := do
  checkArenaWindow s
  let o ← prologue s
  let h ← take s o 6
  check (h.take 4 = [0x00, 0x00, 0x01, 0xBC]) .invalidData
  let psml := (field16 h 4).toNat
  check (10 ≤ psml ∧ psml ≤ 1018) .invalidData
  let rest ← take s (o + 6) psml
  let body := h ++ rest
  let n := 6 + psml
  check (crcAgrees body) .invalidData
  let cni := (byteAt body 6).getLsbD 7
  let sext := (byteAt body 6).getLsbD 6
  let ver := (byteAt body 6).extractLsb' 0 5
  let mk := !(byteAt body 7).getLsbD 0
  let pi := (field16 body 8).toNat
  check (12 + pi ≤ n - 4) .invalidData
  let esml := (field16 body (10 + pi)).toNat
  check (12 + pi + esml = n - 4) .invalidData
  let items ← psmItems body (n - 4) (n - 4 - (12 + pi)) (12 + pi)
  if cni = false ∨ (s.psm.valid = true ∧ ver = s.psm.ver) then
    .ok (((s.epilogue (o + n)).mark mk).doneIgnored 0 (BitVec.ofNat 32 n))
  else
    check (items.length ≤ s.params.psmCap) .invalidArgument
    let used := pi + esTotal items
    check (used ≤ s.dstCap.toNat) .outOfMemory
    let psm := { ver := ver, sext := sext, valid := true,
                 pinfoAddr := s.dstAddr, pinfoLen := BitVec.ofNat 32 pi,
                 entries := psmArenaEntries (s.dstAddr.toNat + pi) items }
    let t := s.writeWindow (arenaBytes body (slice body 10 pi) items)
    .ok (((State.epilogue { t with psm := psm } (o + n)).mark mk).done
      (BitVec.ofNat 32 used) (BitVec.ofNat 32 n))

/-- `PSM_READ` (43_psi.md R251). -/
def execPsmRead (s : State) : Host.Outcome State Fault Refusal :=
  finish s (psmRead s)

end Sys2Proof.Machine
end

