-- ==== Sys2Proof/Machine/PsiWrite.lean ====
section
/-! DEFINITION. The section writers (43_psi.md section 2). -/

namespace Sys2Proof.Machine

/-- A writer's descriptor range `[a, a+n)`: in memory, and apart from the destination window
(43_psi.md R231). -/
abbrev RangeOk (s : State) (a n : Word) : Prop :=
  InMem s a.toNat n.toNat ∧ ¬ WindowOverlaps s a.toNat n.toNat

/-- Steps 5 and 6 of 43_psi.md R230: write `S ++ BE32(c)` at DST_ADDR, RESULT_HI ← `c`,
`done(|S| + 4)`. -/
def emitSection (s : State) (body : List Byte) : State :=
  (s.writeWindow (sealed body)).done (crc32 psiSeed body) (BitVec.ofNat 32 (body.length + 4))

/-- The pseudocode of `PAT_WRITE` (43_psi.md R233). -/
def patWrite (s : State) : Except Raise State := do
  check (WindowInMem s) .invalidArgument
  let sl := patLength (s.count .pat).toNat
  check (sl ≤ 1021) .invalidArgument
  check (3 + sl ≤ s.dstCap.toNat) .outOfMemory
  .ok (emitSection s (patSection s.pat.tsid s.pat.ver s.patList))

/-- `PAT_WRITE` (43_psi.md R233). -/
def execPatWrite (s : State) : Host.Outcome State Fault Refusal :=
  finish s (patWrite s)

/-- A PMT entry with its descriptor bytes "as they are in memory then" (43_psi.md R231). -/
def State.pmtData (s : State) (e : PmtEntry) : EsData 13 :=
  { streamType := e.streamType, id := e.pid, info := s.mem.readBytes e.esAddr.toNat e.esLen.toNat }

/-- The pseudocode of `PMT_WRITE` (43_psi.md R235). -/
def pmtWrite (s : State) : Except Raise State := do
  check (WindowInMem s) .invalidArgument
  check (RangeOk s s.pmt.pinfoAddr s.pmt.pinfoLen) .invalidArgument
  check (∀ e ∈ s.pmtList, RangeOk s e.esAddr e.esLen) .invalidArgument
  let sl := pmtLength s.pmt.pinfoLen.toNat (s.pmtList.map (·.esLen.toNat))
  check (sl ≤ 1021) .invalidArgument
  check (3 + sl ≤ s.dstCap.toNat) .outOfMemory
  let info := s.mem.readBytes s.pmt.pinfoAddr.toNat s.pmt.pinfoLen.toNat
  .ok (emitSection s
    (pmtSection s.pmt.prog s.pmt.ver s.pmt.pcrPid info (s.pmtList.map s.pmtData)))

/-- `PMT_WRITE` (43_psi.md R235). -/
def execPmtWrite (s : State) : Host.Outcome State Fault Refusal :=
  finish s (pmtWrite s)

/-- A PSM entry with its descriptor bytes (43_psi.md R231). -/
def State.psmData (s : State) (e : PsmEntry) : EsData 8 :=
  { streamType := e.streamType, id := e.streamId
    info := s.mem.readBytes e.esAddr.toNat e.esLen.toNat }

/-- The pseudocode of `PSM_WRITE` (43_psi.md R237). -/
def psmWrite (s : State) : Except Raise State := do
  check (WindowInMem s) .invalidArgument
  check (RangeOk s s.psm.pinfoAddr s.psm.pinfoLen) .invalidArgument
  check (∀ e ∈ s.psmList, RangeOk s e.esAddr e.esLen) .invalidArgument
  let psml := psmLength s.psm.pinfoLen.toNat (s.psmList.map (·.esLen.toNat))
  check (psml ≤ 1018) .invalidArgument
  check (6 + psml ≤ s.dstCap.toNat) .outOfMemory
  let info := s.mem.readBytes s.psm.pinfoAddr.toNat s.psm.pinfoLen.toNat
  .ok (emitSection s (psmSection s.psm.ver s.psm.sext info (s.psmList.map s.psmData)))

/-- `PSM_WRITE` (43_psi.md R237). -/
def execPsmWrite (s : State) : Host.Outcome State Fault Refusal :=
  finish s (psmWrite s)

end Sys2Proof.Machine
end

