-- ==== Sys2Proof/Machine/Dispatch.lean ====
section
/-! DEFINITION. The meaning of each command (30_encoding.md R93), one arm per constructor. -/

namespace Sys2Proof.Machine

def exec (i : Instr) (s : State) : Host.Outcome State Fault Refusal :=
  match i with
  | .nop => Sys2Proof.Machine.execNop s
  | .crcRun init => Sys2Proof.Machine.execCrcRun init s
  | .crcCheck => Sys2Proof.Machine.execCrcCheck s
  | .crcSeal => Sys2Proof.Machine.execCrcSeal s
  | .curInit => Sys2Proof.Machine.execCurInit s
  | .curRead nbits => Sys2Proof.Machine.execCurRead nbits s
  | .curSkip count => Sys2Proof.Machine.execCurSkip count s
  | .curSeek target => Sys2Proof.Machine.execCurSeek target s
  | .tsEnc sel pfx => Sys2Proof.Machine.execTsEnc sel pfx s
  | .tsDec => Sys2Proof.Machine.execTsDec s
  | .pesWrite unb => Sys2Proof.Machine.execPesWrite unb s
  | .pesRead layout => Sys2Proof.Machine.execPesRead layout s
  | .patWrite => Sys2Proof.Machine.execPatWrite s
  | .patRead => Sys2Proof.Machine.execPatRead s
  | .pmtWrite => Sys2Proof.Machine.execPmtWrite s
  | .pmtRead => Sys2Proof.Machine.execPmtRead s
  | .psmWrite => Sys2Proof.Machine.execPsmWrite s
  | .psmRead => Sys2Proof.Machine.execPsmRead s
  | .tblClear t => Sys2Proof.Machine.execTblClear t s
  | .tblAdd t => Sys2Proof.Machine.execTblAdd t s
  | .tblGet t idx => Sys2Proof.Machine.execTblGet t idx s

end Sys2Proof.Machine
end

