-- ==== Sys2Proof/Machine/HostPort.lean ====
section
/-! DEFINITION. The host's accesses other than a command (44_control.md R272, R273; 20_memory.md R70) and the
platform's reset (70_reset_and_hazards.md R300). -/

namespace Sys2Proof.Machine

/-- "The host accesses registers only as whole aligned 32-bit words" (10_state.md R22). -/
def legalAccess (width : Nat) (offset : BitVec 9) : Bool := width == 4 && offset.toNat % 4 == 0

/-- A host write at an offset other than CMD's (44_control.md R272): "To an offset that names no register, it is
ignored." -/
def hostRegWrite (offset : BitVec 9) (v : Word) (s : State) : State :=
  match regAt offset with
  | some r => s.writeReg r v
  | none => s

/-- The value a host read of an offset returns (44_control.md R273). -/
def hostRegValue (offset : BitVec 9) (s : State) : Word :=
  match regAt offset with
  | some r => s.readReg r
  | none => 0

/-- A host read "has no side effect" (44_control.md R273); the model records its value (log 6). -/
def hostRegRead (offset : BitVec 9) (s : State) : State :=
  { s with reads := .reg offset (hostRegValue offset s) :: s.reads }

/-- A host write through its memory port (20_memory.md R70); outside memory it faults (log 9). -/
def hostMemWrite (addr : Word) (bytes : List Byte) (s : State) : Host.Outcome State Fault Refusal :=
  if InMem s addr.toNat bytes.length then
    .next { s with mem := s.mem.writeBytes addr.toNat bytes }
  else .fault .hostAddress

/-- A host read through its memory port (20_memory.md R70); outside memory it faults (log 9). -/
def hostMemRead (addr : Word) (len : Nat) (s : State) : Host.Outcome State Fault Refusal :=
  if InMem s addr.toNat len then
    .next { s with reads := .mem addr (s.mem.readBytes addr.toNat len) :: s.reads }
  else .fault .hostAddress

/-- Reset between commands (70_reset_and_hazards.md R300): every register and all hidden state; not memory
(R301), the parameters, the host's sequence or the record of its reads (log 11). -/
def platformReset (s : State) : State :=
  { State.resetWith s.params s.mem with
    host := s.host, hostPos := s.hostPos, pc := s.pc, reads := s.reads }

/-! ### Program lines -/

/-- `wr NAME, value` (30_encoding.md R96). -/
def wr (r : Reg) (v : Word) : HostEvent := .regWrite 4 (regOffset r) v

/-- `rd NAME` (30_encoding.md R96). -/
def rd (r : Reg) : HostEvent := .regRead 4 (regOffset r)

/-- A command line: its word written to CMD (30_encoding.md R90, R96). -/
def command (w : Word) : HostEvent := wr .cmd w

/-- Does an event write CMD, and so launch a command? (10_state.md R25) -/
def isCommand : HostEvent → Bool
  | .regWrite width offset _ => legalAccess width offset && offset == regOffset .cmd
  | .regRead _ _ => false
  | .memWrite _ _ => false
  | .memRead _ _ => false
  | .reset => false

end Sys2Proof.Machine
end

