-- ==== Sys2Proof/Machine/Step.lean ====
section
/-! DEFINITION. One step: the host's next access (00_scope.md R15, 20_memory.md R81). A CMD write launches the
command its word encodes and completes when the command has (10_state.md R25). -/

namespace Sys2Proof.Machine

/-- "To CMD, it stores `v` in CMD and launches the command `v` encodes" (44_control.md R272); the command index
advances by one (10_state.md R21). -/
def launch (v : Word) (s : State) : Host.Outcome State Fault Refusal :=
  let t := { s with cmd := v, pc := s.pc + 1 }
  match decode v with
  | .ok i => exec i t
  | .error _ => .next t.illegalWord

/-- The effect of one event of the host's sequence, already taken from it. -/
def perform (e : HostEvent) (s : State) : Host.Outcome State Fault Refusal :=
  match e with
  | .regWrite width offset v =>
    if legalAccess width offset then
      if isCommand (.regWrite width offset v) then launch v s
      else .next (hostRegWrite offset v s)
    else .refused .registerAccess
  | .regRead width offset =>
    if legalAccess width offset then .next (hostRegRead offset s) else .refused .registerAccess
  | .memWrite addr bytes => hostMemWrite addr bytes s
  | .memRead addr len => hostMemRead addr len s
  | .reset => .next (platformReset s)

/-- One step. When the host has issued all of its sequence the engine "idles with its state unchanged"
(60_exceptions.md R291, log 5). -/
def step (s : State) : Host.Outcome State Fault Refusal :=
  match s.host[s.hostPos]? with
  | none => .next s
  | some e => perform e { s with hostPos := s.hostPos + 1 }

/-- `s` with the host's next access a CMD write of the word `w` (log 4): the event at `hostPos` is replaced,
or the sequence is made long enough to have one there. -/
def State.withFetchWord (s : State) (nbits w : Nat) : State :=
  { s with
    host := s.host.take s.hostPos ++
      List.replicate (s.hostPos - s.host.length) (rd .status) ++
      command (BitVec.ofNat 32 (w % 2 ^ nbits)) :: s.host.drop (s.hostPos + 1) }

end Sys2Proof.Machine
end

