-- ==== Sys2Proof/Safety.lean ====
section
/-! DEFINITION. The terms claims use: the invariant of every reachable state, how a failing command leaves the
state, the register map, and the layouts of input bytes as the rules describe them (offsets and conditions, no parsing). -/

namespace Sys2Proof.Machine

/-! ### The invariant -/

/-- What holds at reset and after every step, whatever the host does. -/
structure State.Inv (s : State) : Prop where
  /-- The parameters meet 00_scope.md R8. -/
  params : s.params.wf = true
  /-- Memory is in canonical form. -/
  memWf : s.mem.wf = true
  /-- Every listed byte lies in `Mem[0 .. MEM_BYTES-1]` (20_memory.md R70). -/
  memIn : ∀ c ∈ s.mem, c.1 < s.params.memBytes
  /-- The latched ranges are in memory (41_cursor.md R162). -/
  range0 : InMem s s.cur.base0.toNat s.cur.len0.toNat
  range1 : InMem s s.cur.base1.toNat s.cur.len1.toNat
  /-- "`CUR_INIT` bounds the stream below 2^29 bytes" (00_scope.md R16). -/
  total : s.cur.total < 2 ^ 29
  /-- `0 ≤ cur.pos ≤ 8·CurTotal` (41_cursor.md R161). -/
  pos : s.cur.pos.toNat ≤ 8 * s.cur.total
  /-- `WriteFailed`: never (60_exceptions.md R280). -/
  code : s.status.code ≠ .writeFailed
  /-- A staging list never holds more than its capacity, where COUNT can hold the capacity (log 7). -/
  patCap : s.params.patCap < 2 ^ 16 → s.pat.entries.length ≤ s.params.patCap
  pmtCap : s.params.pmtCap < 2 ^ 16 → s.pmt.entries.length ≤ s.params.pmtCap
  psmCap : s.params.psmCap < 2 ^ 16 → s.psm.entries.length ≤ s.params.psmCap
  /-- The next access is one of the host's sequence, or its end. -/
  hostPos : s.hostPos ≤ s.host.length
  /-- "The index advances by one per CMD write" (10_state.md R21). -/
  pc : s.pc = (s.host.take s.hostPos).countP isCommand

/-! ### How a command ends, spelled out -/

/-- STATUS after `done` (60_exceptions.md R283). -/
def State.okStatus (s : State) : Status := { s.status with code := .ok, ignored := false }

/-- `raise c` (60_exceptions.md R283): CODE and IGNORED, nothing else. -/
def State.failed (s : State) (c : Code) : State :=
  { s with status := { s.status with code := c, ignored := false } }

/-- `raise InvalidData keeping {cur.err}` with `cur.err = 1` (41_cursor.md R166). -/
def State.ranOut (s : State) : State :=
  { s with
    status := { s.status with code := .invalidData, ignored := false }
    cur := { s.cur with err := true } }

/-! ### Commands -/

/-- The commands that decode a structure through the cursor (41_cursor.md R166). -/
def isDecoder : Instr → Bool
  | .tsDec => true
  | .pesRead _ => true
  | .patRead => true
  | .pmtRead => true
  | .psmRead => true
  | _ => false

/-- The section readers (43_psi.md R240). -/
def isSectionReader : Instr → Bool
  | .patRead => true
  | .pmtRead => true
  | .psmRead => true
  | _ => false

/-- The table of causes (60_exceptions.md R281): may the command end with this code? -/
def mayRaise : Instr → Code → Bool
  | _, .ok => true
  | _, .writeFailed => false
  | .nop, _ => false
  | .crcRun _, c => c == .invalidArgument
  | .crcCheck, c => c == .invalidArgument || c == .invalidData
  | .crcSeal, c => c == .invalidArgument
  | .curInit, c => c == .invalidArgument
  | .curRead _, c => c == .invalidData
  | .curSkip _, c => c == .invalidData
  | .curSeek _, c => c == .invalidData
  | .tsEnc _ _, c => c == .outOfMemory || c == .invalidArgument
  | .tsDec, c => c == .invalidArgument || c == .invalidData
  | .pesWrite _, c => c == .outOfMemory || c == .invalidArgument
  | .pesRead _, c => c == .invalidArgument || c == .invalidData
  | .tblClear _, _ => false
  | .tblAdd _, c => c == .invalidArgument
  | .tblGet _ _, c => c == .invalidArgument
  | .patWrite, c => c == .outOfMemory || c == .invalidArgument
  | .pmtWrite, c => c == .outOfMemory || c == .invalidArgument
  | .psmWrite, c => c == .outOfMemory || c == .invalidArgument
  | .patRead, c => c == .invalidArgument || c == .invalidData
  | .pmtRead, c => c == .outOfMemory || c == .invalidArgument || c == .invalidData
  | .psmRead, c => c == .outOfMemory || c == .invalidArgument || c == .invalidData

/-- Where a command that succeeded from `s` to `t` stored, as (address, length): the trailer of `CRC_SEAL`, the
first RESULT bytes of the destination window for a writer (5 for `TS_ENC`), the RESULT_HI bytes of the arena
for a `PMT_READ` or `PSM_READ` that rebuilt its table (20_memory.md R71, 43_psi.md R247). -/
def storedAt (i : Instr) (s t : State) : Nat × Nat :=
  match i with
  | .crcSeal => (s.srcAddr.toNat + s.srcLen.toNat, 4)
  | .tsEnc _ _ => (s.dstAddr.toNat, 5)
  | .pesWrite _ => (s.dstAddr.toNat, t.result.toNat)
  | .patWrite => (s.dstAddr.toNat, t.result.toNat)
  | .pmtWrite => (s.dstAddr.toNat, t.result.toNat)
  | .psmWrite => (s.dstAddr.toNat, t.result.toNat)
  | .pmtRead => (s.dstAddr.toNat, if t.status.ignored then 0 else t.resultHi.toNat)
  | .psmRead => (s.dstAddr.toNat, if t.status.ignored then 0 else t.resultHi.toNat)
  | _ => (0, 0)

/-! ### Reset -/

/-- The reset column of 10_state.md R23. -/
def resetValue : Reg → Word
  | .crcSeed => 0xFFFFFFFF
  | .crcAcc => 0xFFFFFFFF
  | .ptsHi => 0x80000000
  | .dtsHi => 0x80000000
  | _ => 0

/-! ### The register map -/

/-- A row of the table of 10_state.md R23: where a register lies, how the host may access it, which bits it has
and what it holds after reset. -/
structure RegRow where
  offset : BitVec 9
  reg : Reg
  access : Access
  bits : Word
  reset : Word
  deriving DecidableEq, Repr

/-- The table of 10_state.md R23, row by row. -/
def registerMap : List RegRow :=
  [⟨0x000, .cmd, .launch, 0xFFFFFFFF, 0x00000000⟩, ⟨0x004, .status, .w1c, 0x000000FF, 0x00000000⟩,
    ⟨0x008, .srcAddr, .rw, 0xFFFFFFFF, 0x00000000⟩, ⟨0x00C, .srcLen, .rw, 0xFFFFFFFF, 0x00000000⟩,
    ⟨0x010, .dstAddr, .rw, 0xFFFFFFFF, 0x00000000⟩, ⟨0x014, .dstCap, .rw, 0xFFFFFFFF, 0x00000000⟩,
    ⟨0x018, .result, .ro, 0xFFFFFFFF, 0x00000000⟩, ⟨0x01C, .resultHi, .ro, 0xFFFFFFFF, 0x00000000⟩,
    ⟨0x020, .crcSeed, .rw, 0xFFFFFFFF, 0xFFFFFFFF⟩, ⟨0x024, .crcAcc, .rw, 0xFFFFFFFF, 0xFFFFFFFF⟩,
    ⟨0x030, .curBase0, .rw, 0xFFFFFFFF, 0x00000000⟩, ⟨0x034, .curLen0, .rw, 0xFFFFFFFF, 0x00000000⟩,
    ⟨0x038, .curBase1, .rw, 0xFFFFFFFF, 0x00000000⟩, ⟨0x03C, .curLen1, .rw, 0xFFFFFFFF, 0x00000000⟩,
    ⟨0x040, .curPos, .ro, 0xFFFFFFFF, 0x00000000⟩, ⟨0x044, .curTotal, .ro, 0xFFFFFFFF, 0x00000000⟩] ++
  [⟨0x080, .pesSid, .rw, 0x000000FF, 0x00000000⟩, ⟨0x084, .pesPktlen, .rw, 0x0000FFFF, 0x00000000⟩,
    ⟨0x088, .pesFlags, .rw, 0x0000003F, 0x00000000⟩, ⟨0x08C, .pesOpt, .ro, 0x0000FFFF, 0x00000000⟩,
    ⟨0x090, .pesHdrlen, .ro, 0x000000FF, 0x00000000⟩, ⟨0x094, .ptsLo, .rw, 0xFFFFFFFF, 0x00000000⟩,
    ⟨0x098, .ptsHi, .rw, 0xFFFFFFFF, 0x80000000⟩, ⟨0x09C, .dtsLo, .rw, 0xFFFFFFFF, 0x00000000⟩,
    ⟨0x0A0, .dtsHi, .rw, 0xFFFFFFFF, 0x80000000⟩, ⟨0x0A4, .escrLo, .ro, 0xFFFFFFFF, 0x00000000⟩,
    ⟨0x0A8, .escrHi, .ro, 0x01FF0001, 0x00000000⟩, ⟨0x0AC, .esRate, .ro, 0x003FFFFF, 0x00000000⟩,
    ⟨0x0B0, .trick, .ro, 0x000000FF, 0x00000000⟩, ⟨0x0B4, .addcopy, .ro, 0x0000007F, 0x00000000⟩,
    ⟨0x0B8, .prevCrc, .ro, 0x0000FFFF, 0x00000000⟩, ⟨0x0BC, .stdBuf, .ro, 0x00013FFF, 0x00000000⟩,
    ⟨0x0C0, .pesPayloadLen, .rw, 0xFFFFFFFF, 0x00000000⟩] ++
  [⟨0x100, .patTsid, .rw, 0x0000FFFF, 0x00000000⟩, ⟨0x104, .patVer, .rw, 0x0000011F, 0x00000000⟩,
    ⟨0x108, .patCount, .ro, 0x0000FFFF, 0x00000000⟩, ⟨0x110, .pmtProg, .rw, 0x0000FFFF, 0x00000000⟩,
    ⟨0x114, .pmtVer, .rw, 0x0000011F, 0x00000000⟩, ⟨0x118, .pmtPcrPid, .rw, 0x00001FFF, 0x00000000⟩,
    ⟨0x11C, .pmtPinfoAddr, .rw, 0xFFFFFFFF, 0x00000000⟩, ⟨0x120, .pmtPinfoLen, .rw, 0xFFFFFFFF, 0x00000000⟩,
    ⟨0x124, .pmtCount, .ro, 0x0000FFFF, 0x00000000⟩, ⟨0x130, .psmVer, .rw, 0x0000015F, 0x00000000⟩,
    ⟨0x134, .psmPinfoAddr, .rw, 0xFFFFFFFF, 0x00000000⟩, ⟨0x138, .psmPinfoLen, .rw, 0xFFFFFFFF, 0x00000000⟩,
    ⟨0x13C, .psmCount, .ro, 0x0000FFFF, 0x00000000⟩, ⟨0x140, .entA, .rw, 0x0000FFFF, 0x00000000⟩,
    ⟨0x144, .entB, .rw, 0x00001FFF, 0x00000000⟩, ⟨0x148, .entAddr, .rw, 0xFFFFFFFF, 0x00000000⟩,
    ⟨0x14C, .entLen, .rw, 0xFFFFFFFF, 0x00000000⟩]

/-! ### Input bytes -/

/-- A decoder may start: the cursor is byte-aligned, not in error, and its next `n` bytes are the byte string
`b` (41_cursor.md R166). -/
structure Reads (s : State) (b : List Byte) : Prop where
  aligned : s.cur.pos.toNat % 8 = 0
  noErr : s.cur.err = false
  room : s.cur.pos.toNat / 8 + b.length ≤ s.cur.total
  bytes : s.curBytes (s.cur.pos.toNat / 8) b.length = b

/-- The cursor after the `n` bytes a decoder took: `cur.pos <- 8·(start + n)` (41_cursor.md R166). -/
def State.after (s : State) (n : Nat) : Cursor :=
  { s.cur with pos := BitVec.ofNat 32 (8 * (s.cur.pos.toNat / 8 + n)) }

/-! #### MPEG-2 optional fields -/

/-- Offsets of the optional fields in the area of `H` bytes, by the flags byte `f`: the sizes of
30_encoding.md R103. -/
def escrAt (f : Byte) : Nat := if f.getLsbD 7 then (if f.getLsbD 6 then 10 else 5) else 0
def esRateAt (f : Byte) : Nat := escrAt f + if f.getLsbD 5 then 6 else 0
def trickAt (f : Byte) : Nat := esRateAt f + if f.getLsbD 4 then 3 else 0
def addCopyAt (f : Byte) : Nat := trickAt f + if f.getLsbD 3 then 1 else 0
def prevCrcAt (f : Byte) : Nat := addCopyAt f + if f.getLsbD 2 then 1 else 0
def extensionAt (f : Byte) : Nat := prevCrcAt f + if f.getLsbD 1 then 2 else 0

/-- The flags byte of the PES extension (30_encoding.md R105). -/
def extFlags (f : Byte) (hb : List Byte) : Byte := byteAt hb (extensionAt f)

/-- Offsets of the parts of the PES extension: the sizes of 30_encoding.md R105. -/
def packAt (f : Byte) (hb : List Byte) : Nat :=
  extensionAt f + 1 + if (extFlags f hb).getLsbD 7 then 16 else 0
def counterAt (f : Byte) (hb : List Byte) : Nat :=
  packAt f hb + if (extFlags f hb).getLsbD 6 then 1 + (byteAt hb (packAt f hb)).toNat else 0
def pstdAt (f : Byte) (hb : List Byte) : Nat :=
  counterAt f hb + if (extFlags f hb).getLsbD 5 then 2 else 0
def ext2At (f : Byte) (hb : List Byte) : Nat :=
  pstdAt f hb + if (extFlags f hb).getLsbD 4 then 2 else 0
def extensionEnd (f : Byte) (hb : List Byte) : Nat :=
  ext2At f hb +
    if (extFlags f hb).getLsbD 0 then 1 + (byteAt hb (ext2At f hb)).toNat % 128 else 0

/-- How many bytes the fields of the optional area take (30_encoding.md R103, R105). -/
def optionalEnd (f : Byte) (hb : List Byte) : Nat :=
  if f.getLsbD 0 then extensionEnd f hb else extensionAt f

/-- A field as one big-endian number (42_pes.md R202). -/
def numberAt (n : Nat) (hb : List Byte) (k len : Nat) : BitVec n := BitVec.ofNat n (rdBE (slice hb k len))

/-- The registers the optional area decodes to (42_pes.md R201, R202, R203). -/
def optionalRegs (f : Byte) (hb : List Byte) (p : Pes) : Pes :=
  let escr := numberAt 48 hb (escrAt f) 6
  let std := numberAt 16 hb (pstdAt f hb) 2
  { p with
    pts := if f.getLsbD 7 then (tsValue (slice hb 0 5)).setWidth 64 else noValue
    dts := if f.getLsbD 7 then
        (tsValue (if f.getLsbD 6 then slice hb 5 5 else slice hb 0 5)).setWidth 64
      else noValue
    escrBase := if f.getLsbD 5 then
        escr.extractLsb' 43 3 ++ escr.extractLsb' 27 15 ++ escr.extractLsb' 11 15
      else 0
    escrExt := if f.getLsbD 5 then escr.extractLsb' 1 9 else 0
    esRate := if f.getLsbD 4 then (numberAt 24 hb (esRateAt f) 3).extractLsb' 1 22 else 0
    trick := if f.getLsbD 3 then byteAt hb (trickAt f) else 0
    addCopy := if f.getLsbD 2 then (byteAt hb (addCopyAt f)).extractLsb' 0 7 else 0
    prevCrc := if f.getLsbD 1 then numberAt 16 hb (prevCrcAt f) 2 else 0
    opt := (if f.getLsbD 0 then extFlags f hb else 0) ++ f
    stdBuf := if f.getLsbD 0 && (extFlags f hb).getLsbD 4 then
        { valid := true, scale := std.getLsbD 13, size := std.extractLsb' 0 13 }
      else {} }

/-- Are the markers and prefixes of a timestamp field as the format fixes them? -/
def stampWrong (p : BitVec 4) (t : List Byte) : Bool := tsPrefix t != p || !tsMarkersOk t

/-- Is some marker bit or fixed prefix of the optional area wrong? (42_pes.md R183, R201, R202, R203) -/
def optionalWrong (f : Byte) (hb : List Byte) : Bool :=
  let escr := numberAt 48 hb (escrAt f) 6
  let rate := numberAt 24 hb (esRateAt f) 3
  let x := extFlags f hb
  (f.getLsbD 7 && stampWrong (if f.getLsbD 6 then 0b0011 else 0b0010) (slice hb 0 5)) ||
  (f.getLsbD 7 && f.getLsbD 6 && stampWrong 0b0001 (slice hb 5 5)) ||
  (f.getLsbD 5 &&
    !(escr.getLsbD 42 && escr.getLsbD 26 && escr.getLsbD 10 && escr.getLsbD 0)) ||
  (f.getLsbD 4 && !(rate.getLsbD 23 && rate.getLsbD 0)) ||
  (f.getLsbD 2 && !(byteAt hb (addCopyAt f)).getLsbD 7) ||
  (f.getLsbD 0 && x.getLsbD 5 &&
    !((byteAt hb (counterAt f hb)).getLsbD 7 && (byteAt hb (counterAt f hb + 1)).getLsbD 7)) ||
  (f.getLsbD 0 && x.getLsbD 4 && ((numberAt 16 hb (pstdAt f hb) 2).extractLsb' 14 2 != 0b01)) ||
  (f.getLsbD 0 && x.getLsbD 0 && !(byteAt hb (ext2At f hb)).getLsbD 7)

/-! #### PES headers -/

/-- Bytes 0 to 5 of a PES packet (30_encoding.md R101). -/
def pesStart (sid : Byte) (len : BitVec 16) : List Byte := [0x00, 0x00, 0x01, sid] ++ be16 len

/-- An MPEG-2 layout header: bytes 6 to 8, then the optional area (30_encoding.md R102). -/
def mpeg2Header (sid : Byte) (len : BitVec 16) (flags : BitVec 6) (f : Byte) (hb : List Byte) :
    List Byte :=
  pesStart sid len ++ [0b10#2 ++ flags, f, BitVec.ofNat 8 hb.length] ++ hb

/-- The timestamps of an MPEG-1 layout header (30_encoding.md R106 part 3): the 5-byte fields as they lie in
the input, markers right or wrong. -/
inductive Mpeg1Stamps where
  | none
  | pts (t : List Byte)
  | both (t u : List Byte)

/-- Part 3 of 30_encoding.md R106 as bytes. -/
def Mpeg1Stamps.bytes : Mpeg1Stamps → List Byte
  | .none => [0x0F]
  | .pts t => t
  | .both t u => t ++ u

/-- Five bytes each, the first nibble as the format has it (30_encoding.md R106). -/
def Mpeg1Stamps.wf : Mpeg1Stamps → Prop
  | .none => True
  | .pts t => t.length = 5 ∧ tsPrefix t = 0b0010
  | .both t u => t.length = 5 ∧ tsPrefix t = 0b0011 ∧ u.length = 5

/-- PTS and DTS of an MPEG-1 header (42_pes.md R204, R184). -/
def Mpeg1Stamps.pts64 : Mpeg1Stamps → BitVec 64
  | .none => noValue
  | .pts t => (tsValue t).setWidth 64
  | .both t _ => (tsValue t).setWidth 64
def Mpeg1Stamps.dts64 : Mpeg1Stamps → BitVec 64
  | .none => noValue
  | .pts t => (tsValue t).setWidth 64
  | .both _ u => (tsValue u).setWidth 64

/-- PES_OPT[7:6] "records which timestamps were found" (42_pes.md R204). -/
def Mpeg1Stamps.opt : Mpeg1Stamps → BitVec 16
  | .none => 0
  | .pts _ => 0x0080
  | .both _ _ => 0x00C0

/-- Is a marker of an MPEG-1 header's timestamps wrong? (42_pes.md R204) -/
def Mpeg1Stamps.wrong : Mpeg1Stamps → Bool
  | .none => false
  | .pts t => !tsMarkersOk t
  | .both t u => !tsMarkersOk t || stampWrong 0b0001 u

/-- Part 2 of 30_encoding.md R106, where it is present: an STD buffer's scale and size. -/
def stdBufBytes : Option (Bool × BitVec 13) → List Byte
  | none => []
  | some (scale, size) => be16 (0b01#2 ++ BitVec.ofBool scale ++ size)

/-- An MPEG-1 layout header up to its last part: `n` stuffing bytes, an optional STD buffer. -/
def mpeg1Front (sid : Byte) (len : BitVec 16) (n : Nat) (std : Option (Bool × BitVec 13)) :
    List Byte :=
  pesStart sid len ++ List.replicate n 0xFF ++ stdBufBytes std

/-- An MPEG-1 layout header: stuffing, an optional STD buffer, the timestamps (30_encoding.md R106). -/
def mpeg1Header (sid : Byte) (len : BitVec 16) (n : Nat) (std : Option (Bool × BitVec 13))
    (st : Mpeg1Stamps) : List Byte :=
  mpeg1Front sid len n std ++ st.bytes

/-! #### Sections -/

/-- A PAT section as 43_psi.md R241 asks for it: syntax, length and CRC. -/
structure PatOk (b : List Byte) : Prop where
  tableId : byteAt b 0 = 0x00
  syntaxBit : (byteAt b 1).getLsbD 7 = true
  length : b.length = 3 + (field12 b 1).toNat
  low : 9 ≤ (field12 b 1).toNat
  high : (field12 b 1).toNat ≤ 1021
  whole : ((field12 b 1).toNat - 9) % 4 = 0
  crc : crcAgrees b

/-- A PMT section as 43_psi.md R246 asks for it, but for its entry loop. -/
structure PmtOk (b : List Byte) : Prop where
  tableId : byteAt b 0 = 0x02
  syntaxBit : (byteAt b 1).getLsbD 7 = true
  length : b.length = 3 + (field12 b 1).toNat
  low : 13 ≤ (field12 b 1).toNat
  high : (field12 b 1).toNat ≤ 1021
  crc : crcAgrees b

/-- A PSM section as 43_psi.md R251 asks for it, but for its entry loop. -/
structure PsmOk (b : List Byte) : Prop where
  startCode : b.take 4 = [0x00, 0x00, 0x01, 0xBC]
  length : b.length = 6 + (field16 b 4).toNat
  low : 10 ≤ (field16 b 4).toNat
  high : (field16 b 4).toNat ≤ 1018
  crc : crcAgrees b

/-- The streams of a PMT section from byte `k` end exactly at `stop` (30_encoding.md R111: stream_type, PID,
ES_info_length, ES-info). -/
def PmtStreams (b : List Byte) (stop : Nat) : Nat → List (EsItem 13) → Prop
  | k, [] => k = stop
  | k, e :: l =>
    e.streamType = byteAt b k ∧ e.id = field13 b (k + 1) ∧ e.offset = k + 5 ∧
      e.len = (field12 b (k + 3)).toNat ∧ k + 5 + e.len ≤ stop ∧
      PmtStreams b stop (k + 5 + e.len) l

/-- The streams of a PSM section from byte `k` end exactly at `stop` (30_encoding.md R112). -/
def PsmStreams (b : List Byte) (stop : Nat) : Nat → List (EsItem 8) → Prop
  | k, [] => k = stop
  | k, e :: l =>
    e.streamType = byteAt b k ∧ e.id = byteAt b (k + 1) ∧ e.offset = k + 4 ∧
      e.len = (field16 b (k + 2)).toNat ∧ k + 4 + e.len ≤ stop ∧
      PsmStreams b stop (k + 4 + e.len) l

/-- "entry `i` gets `es_addr = DST_ADDR + |P| + Σ_{j<i} L[j].length`" (43_psi.md R247), in 32 bits (log 8). -/
def arenaAddr {n : Nat} (dst : Word) (pi : Nat) (items : List (EsItem n)) (i : Nat) : Word :=
  BitVec.ofNat 32 (dst.toNat + pi + ((items.take i).map (·.len)).sum)

/-- The destination window is apart from both latched ranges and in memory (43_psi.md R240 step 1). -/
structure ArenaOk (s : State) : Prop where
  inMem : WindowInMem s
  apart0 : ¬ WindowOverlaps s s.cur.base0.toNat s.cur.len0.toNat
  apart1 : ¬ WindowOverlaps s s.cur.base1.toNat s.cur.len1.toNat

end Sys2Proof.Machine
end

