-- ==== Sys2Proof/Certificates/Slice0/Obligations.lean ====
section
/-! DEFINITION. The statements for the provers, from the numbered rules of spec/. Titles, tiers and citations are in
OBLIGATIONS.json. -/

open Sys2Proof Sys2Proof.Machine

/-! ### Command words -/

/-- Decoding an encoded well-formed command gives it back (30_encoding.md R91, R93). -/
def Obligations.DecodeEncode : Prop :=
  ∀ i : Instr, i.wf = true → decode (encode i) = .ok i

/-- A word that decodes is the one encoding of the command it names, and that command is well-formed. -/
def Obligations.EncodeDecode : Prop :=
  ∀ (w : Word) (i : Instr), decode w = .ok i → i.wf = true ∧ encode i = w

/-- 30_encoding.md R94: a word names a command exactly when a row of the table accepts it, and then exactly
one row does, the command's own. -/
def Obligations.WordNamesOneCommand : Prop :=
  (∀ w : Word, (∃ i, decode w = .ok i) ↔ ∃ r ∈ opcodeRows, r.accepts w = true) ∧
  (∀ (w : Word) (i : Instr), decode w = .ok i →
    ∀ r ∈ opcodeRows, r.accepts w = true ↔ r = i.row)

/-- 30_encoding.md R97, row by row. -/
def Obligations.PseudoInstructionWords : Prop :=
  asmWord ⟨"cur.read8", []⟩ = some 0x11000008 ∧
  asmWord ⟨"cur.read16", []⟩ = some 0x11000010 ∧
  asmWord ⟨"cur.read24", []⟩ = some 0x11000018 ∧
  asmWord ⟨"cur.read32", []⟩ = some 0x11000020 ∧
  asmWord ⟨"cur.read64", []⟩ = some 0x11000040 ∧
  asmWord ⟨"crc.start", []⟩ = some 0x01000001 ∧
  asmWord ⟨"crc.cont", []⟩ = some 0x01000000 ∧
  asmWord ⟨"pes.write.unb", []⟩ = some 0x22000001 ∧
  asmWord ⟨"pts.enc", []⟩ = some 0x20000002 ∧
  asmWord ⟨"pts.enc.withdts", []⟩ = some 0x20000003 ∧
  asmWord ⟨"dts.enc", []⟩ = some 0x20000011 ∧
  asmWord ⟨"tbl.clear", [.name "pat"]⟩ = some 0x38000000 ∧
  asmWord ⟨"tbl.clear", [.name "pmt"]⟩ = some 0x38010000 ∧
  asmWord ⟨"tbl.clear", [.name "psm"]⟩ = some 0x38020000 ∧
  asmWord ⟨"tbl.add", [.name "pat"]⟩ = some 0x39000000 ∧
  asmWord ⟨"tbl.add", [.name "pmt"]⟩ = some 0x39010000 ∧
  asmWord ⟨"tbl.add", [.name "psm"]⟩ = some 0x39020000

/-- One word of each family, written out from 30_encoding.md R91 and R93, decodes to its command, and words
with each kind of defect of R95 decode to none. -/
def Obligations.SampleWords : Prop :=
  decode 0b00000000_000000000000000000000000 = .ok .nop ∧
  decode 0b00000001_00000000000000000000000_1 = .ok (.crcRun true) ∧
  decode 0b00010001_00000000000000000_0001100 = .ok (.curRead 12) ∧
  decode 0b00010010_000000010000001000000011 = .ok (.curSkip 0x010203) ∧
  decode 0b00100000_0000000000000000000_1_0001 = .ok (.tsEnc .dts 1) ∧
  decode 0b00100011_0000000000000000000000_10 = .ok (.pesRead .auto) ∧
  decode 0b00110011_000000000000000000000000 = .ok .pmtRead ∧
  decode 0b00111010_000000_10_0000000000000011 = .ok (.tblGet .psm 3) ∧
  decode 0x04000000 = .error .unassignedOpcode ∧
  decode 0x11000041 = .error .reservedField ∧
  decode 0x02000001 = .error .reservedBit

/-! ### Steps -/

/-- When the host's next access writes CMD and the word decodes, the step is that command's meaning at the state
in which the access is taken from the sequence, the word stands in CMD and the command index has advanced
(10_state.md R21, R25). -/
def Obligations.StepRunsDecodedCommand : Prop :=
  ∀ (s : State) (w : Word) (i : Instr),
    s.host[s.hostPos]? = some (command w) → decode w = .ok i →
    step s = exec i { s with hostPos := s.hostPos + 1, cmd := w, pc := s.pc + 1 }

/-- 44_control.md R271: an illegal word is stored in CMD, sets CODE to InvalidArgument and IGNORED to 0, and
changes nothing else (beside the host's and the command index). -/
def Obligations.IllegalWordOnlySetsCode : Prop :=
  ∀ (s : State) (w : Word) (e : IllegalWord),
    s.host[s.hostPos]? = some (command w) → decode w = .error e →
    step s = .next
      { s with
        hostPos := s.hostPos + 1, cmd := w, pc := s.pc + 1
        status := { s.status with code := .invalidArgument, ignored := false } }

/-- 44_control.md R272: what a host register write does, for each access kind, for CMD and for an offset that
names no register; and that the host's other accesses change no register ("keeps its value until the next host
write"). -/
def Obligations.HostRegisterWrite : Prop :=
  (∀ (s : State) (off : BitVec 9) (v : Word),
    s.host[s.hostPos]? = some (.regWrite 4 off v) → off.toNat % 4 = 0 →
    (∀ r, regAt off = some r → regAccess r = .rw →
      ∃ t, step s = .next t ∧ t.readReg r = v &&& regBits r ∧
        (∀ r', r' ≠ r → t.readReg r' = s.readReg r') ∧
        t.cur = s.cur ∧ t.mem = s.mem ∧ t.pat.entries = s.pat.entries ∧
        t.pmt.entries = s.pmt.entries ∧ t.psm.entries = s.psm.entries ∧ t.pc = s.pc) ∧
    (∀ r, regAt off = some r → regAccess r = .ro →
      step s = .next { s with hostPos := s.hostPos + 1 }) ∧
    (regAt off = some .status →
      step s = .next
        { s with
          hostPos := s.hostPos + 1
          status := { s.status with
            markerErr := if v.getLsbD 5 then false else s.status.markerErr } }) ∧
    (regAt off = some .cmd →
      step s = launch v { s with hostPos := s.hostPos + 1 } ∧
      ∃ t, step s = .next t ∧ t.cmd = v) ∧
    (regAt off = none → step s = .next { s with hostPos := s.hostPos + 1 })) ∧
  (∀ (s t : State) (e : HostEvent),
    s.host[s.hostPos]? = some e → step s = .next t →
    (∀ w o v, e ≠ .regWrite w o v) → e ≠ .reset →
    (∀ r, t.readReg r = s.readReg r) ∧ t.cur = s.cur ∧ t.pat = s.pat ∧ t.pmt = s.pmt ∧
      t.psm = s.psm)

/-- 44_control.md R273: a host read returns the register's value (the model records it, log 6), bits the register
does not have read 0, and nothing else changes; the fields of STATUS as 10_state.md R24 places them. -/
def Obligations.HostRegisterRead : Prop :=
  (∀ (s : State) (off : BitVec 9),
    s.host[s.hostPos]? = some (.regRead 4 off) → off.toNat % 4 = 0 →
    (∀ r, regAt off = some r →
      step s = .next
        { s with hostPos := s.hostPos + 1, reads := .reg off (s.readReg r) :: s.reads }) ∧
    (regAt off = none →
      step s = .next { s with hostPos := s.hostPos + 1, reads := .reg off 0 :: s.reads })) ∧
  (∀ (s : State) (r : Reg), s.readReg r &&& ~~~ regBits r = 0) ∧
  (∀ s : State, s.readReg .curPos = s.cur.pos ∧
    s.readReg .curTotal = s.cur.len0 + s.cur.len1 ∧
    (s.readReg .status).extractLsb' 0 4 = s.status.code.bits ∧
    (s.readReg .status).getLsbD 4 = s.cur.err ∧
    (s.readReg .status).getLsbD 5 = s.status.markerErr ∧
    (s.readReg .status).getLsbD 6 = s.status.ignored ∧
    (s.readReg .status).getLsbD 7 = s.status.mpeg1)

/-- The register space (10_state.md R22, R23): the registers are those of the table of R23, each at the table's
offset with the table's access, bits and reset value; no other offset names a register; an access that is not a
whole aligned word is refused. (An offset that names no register: `HostRegisterWrite`, `HostRegisterRead`.) -/
def Obligations.RegisterSpace : Prop :=
  (∀ row ∈ registerMap,
    regAt row.offset = some row.reg ∧ regOffset row.reg = row.offset ∧ row.offset.toNat % 4 = 0 ∧
    regAccess row.reg = row.access ∧ regBits row.reg = row.bits ∧ resetValue row.reg = row.reset) ∧
  (∀ r : Reg, r ∈ registerMap.map (·.reg)) ∧
  (∀ (off : BitVec 9) (r : Reg), regAt off = some r → off = regOffset r) ∧
  (∀ (s : State) (width : Nat) (off : BitVec 9) (v : Word),
    (width ≠ 4 ∨ off.toNat % 4 ≠ 0) →
    (s.host[s.hostPos]? = some (.regWrite width off v) → step s = .refused .registerAccess) ∧
    (s.host[s.hostPos]? = some (.regRead width off) → step s = .refused .registerAccess))

/-- The host's memory port (20_memory.md R70): a write stores its bytes and nothing else, a read returns them, and
an access outside memory faults (log 9). -/
def Obligations.HostMemoryAccess : Prop :=
  (∀ (s : State) (a : Word) (b : List Byte),
    s.host[s.hostPos]? = some (.memWrite a b) →
    (s.params.memBytes < a.toNat + b.length → step s = .fault .hostAddress) ∧
    (s.mem.wf = true → a.toNat + b.length ≤ s.params.memBytes →
      ∃ m, step s = .next { s with hostPos := s.hostPos + 1, mem := m } ∧
        m.readBytes a.toNat b.length = b ∧
        ∀ x, x < a.toNat ∨ a.toNat + b.length ≤ x → m.read x = s.mem.read x)) ∧
  (∀ (s : State) (a : Word) (n : Nat),
    s.host[s.hostPos]? = some (.memRead a n) →
    (s.params.memBytes < a.toNat + n → step s = .fault .hostAddress) ∧
    (a.toNat + n ≤ s.params.memBytes →
      step s = .next
        { s with
          hostPos := s.hostPos + 1
          reads := .mem a (s.mem.readBytes a.toNat n) :: s.reads }))

/-- Reset (70_reset_and_hazards.md R300): every register reads its reset value, the cursor and the lists are
empty, for every parameters and every memory; and the platform's reset between commands gives that again, with
memory as it was (R301; what else the model keeps then, log 11). -/
def Obligations.ResetValues : Prop :=
  (∀ (p : Params) (m : Memory),
    (∀ r, (State.resetWith p m).readReg r = resetValue r) ∧
    (State.resetWith p m).cur =
      { base0 := 0, len0 := 0, base1 := 0, len1 := 0, pos := 0, err := false } ∧
    (State.resetWith p m).pat.entries = [] ∧ (State.resetWith p m).pmt.entries = [] ∧
    (State.resetWith p m).psm.entries = []) ∧
  (∀ s : State, s.host[s.hostPos]? = some .reset →
    ∃ t, step s = .next t ∧ (∀ r, t.readReg r = resetValue r) ∧
      t.cur = { base0 := 0, len0 := 0, base1 := 0, len1 := 0, pos := 0, err := false } ∧
      t.pat.entries = [] ∧ t.pmt.entries = [] ∧ t.psm.entries = [] ∧ t.mem = s.mem ∧
      t.params = s.params ∧ t.host = s.host ∧ t.hostPos = s.hostPos + 1 ∧ t.pc = s.pc ∧
      t.reads = s.reads)

/-! ### Every command -/

/-- "Every command ends in exactly one of two ways" (60_exceptions.md R283): with OK, or with one of the three
codes and then every part of the state as before but CODE, IGNORED and what a rule keeps: `cur.err` may become 1
with InvalidData, and `CUR_READ` may set RESULT and RESULT_HI to 0. -/
def Obligations.SuccessOrFailure : Prop :=
  ∀ (i : Instr) (s : State),
    ∃ t, exec i s = .next t ∧
      ((t.status.code = .ok ∧ (t.status.ignored = true → isSectionReader i = true)) ∨
       (t.status.code ≠ .ok ∧ t.status.code ≠ .writeFailed ∧
        t = { s.failed t.status.code with
              cur := { s.cur with err := t.cur.err }, result := t.result, resultHi := t.resultHi } ∧
        (t.cur.err ≠ s.cur.err → t.cur.err = true ∧ t.status.code = .invalidData) ∧
        ((t.result = s.result ∧ t.resultHi = s.resultHi) ∨
          (t.result = 0 ∧ t.resultHi = 0 ∧ ∃ n, i = .curRead n))))

/-- The table of causes (60_exceptions.md R281): a command ends only with a code its row allows. -/
def Obligations.OnlyListedCauses : Prop :=
  ∀ (i : Instr) (s t : State), exec i s = .next t → mayRaise i t.status.code = true

/-- "No command reads a STATUS flag except through `cur.err`" (10_state.md R43): whatever STATUS holds before, a
command answers the same, CODE and IGNORED the same, MARKER_ERR set where it sets it, and MPEG1 written only by
a successful `PES_READ`. -/
def Obligations.StatusNeverRead : Prop :=
  ∀ (i : Instr) (s t : State) (st : Status),
    s.status.markerErr = false → exec i s = .next t →
    exec i { s with status := st } = .next
      { t with
        status :=
          { code := t.status.code
            ignored := t.status.ignored
            markerErr := st.markerErr || t.status.markerErr
            mpeg1 := match i with
              | .pesRead _ => if t.status.code = .ok then t.status.mpeg1 else st.mpeg1
              | _ => st.mpeg1 } }

/-- "no command other than `CRC_RUN` reads or writes CRC_ACC" (10_state.md R32), nor CRC_SEED. -/
def Obligations.CrcStateOnlyInCrcRun : Prop :=
  ∀ (i : Instr) (s t : State) (seed acc : Word),
    (∀ init, i ≠ .crcRun init) → exec i s = .next t →
    exec i { s with crcSeed := seed, crcAcc := acc } =
      .next { t with crcSeed := seed, crcAcc := acc }

/-- 41_cursor.md R161: the position stays inside the stream, and an errored cursor changes only by a successful
`CUR_INIT`; every read then returns 0, and every decoding command fails. -/
def Obligations.CursorErrorIsSticky : Prop :=
  (∀ (i : Instr) (s t : State),
    s.cur.total < 2 ^ 29 → s.cur.pos.toNat ≤ 8 * s.cur.total → exec i s = .next t →
    t.cur.pos.toNat ≤ 8 * t.cur.total) ∧
  (∀ (i : Instr) (s t : State),
    s.cur.err = true → exec i s = .next t →
    (t.cur ≠ s.cur → i = .curInit ∧ t.status.code = .ok) ∧
    (∀ n, i = .curRead n → t.result = 0 ∧ t.resultHi = 0 ∧ t.status.code = .invalidData) ∧
    (isDecoder i = true → t.status.code ≠ .ok))

/-- MARKER_ERR: "No command clears it" (10_state.md R24), and only a successful `TS_DEC`, `PES_READ` or
`PSM_READ` sets it (42_pes.md R183, 43_psi.md R252). -/
def Obligations.MarkerErrOnlySet : Prop :=
  ∀ (i : Instr) (s t : State), exec i s = .next t →
    (s.status.markerErr = true → t.status.markerErr = true) ∧
    (t.status.markerErr ≠ s.status.markerErr →
      t.status.code = .ok ∧ (i = .tsDec ∨ (∃ l, i = .pesRead l) ∨ i = .psmRead))

/-- What no command changes: the parameters, CMD, the operand registers only the host writes, the host's sequence
and both indices; and each unit's state is changed by its own commands only. -/
def Obligations.CommandsChangeTheirUnitOnly : Prop :=
  ∀ (i : Instr) (s t : State), exec i s = .next t →
    (t.params = s.params ∧ t.cmd = s.cmd ∧ t.srcAddr = s.srcAddr ∧ t.srcLen = s.srcLen ∧
      t.dstAddr = s.dstAddr ∧ t.dstCap = s.dstCap ∧ t.crcSeed = s.crcSeed ∧
      t.curRegs = s.curRegs ∧ t.pes.payloadLen = s.pes.payloadLen ∧ t.host = s.host ∧
      t.hostPos = s.hostPos ∧ t.pc = s.pc ∧ t.reads = s.reads) ∧
    (t.crcAcc ≠ s.crcAcc → ∃ init, i = .crcRun init) ∧
    (t.pes ≠ s.pes → (∃ unb, i = .pesWrite unb) ∨ ∃ l, i = .pesRead l) ∧
    (t.pat ≠ s.pat → i = .patRead ∨ i = .tblClear .pat ∨ i = .tblAdd .pat) ∧
    (t.pmt ≠ s.pmt → i = .pmtRead ∨ i = .tblClear .pmt ∨ i = .tblAdd .pmt) ∧
    (t.psm ≠ s.psm → i = .psmRead ∨ i = .tblClear .psm ∨ i = .tblAdd .psm) ∧
    (t.ent ≠ s.ent → ∃ tb idx, i = .tblGet tb idx) ∧
    (t.cur ≠ s.cur → isDecoder i = true ∨ i = .curInit ∨ (∃ n, i = .curRead n) ∨
      (∃ k, i = .curSkip k) ∨ ∃ k, i = .curSeek k)

/-- Memory frame (20_memory.md R71, R78): a command stores only where `storedAt` says, and inside its declared
range; a failing command stores nothing. -/
def Obligations.StoresOnlyWhereDeclared : Prop :=
  ∀ (i : Instr) (s t : State), exec i s = .next t →
    (t.status.code ≠ .ok → t.mem = s.mem) ∧
    (t.status.code = .ok →
      (∀ a, a < (storedAt i s t).1 ∨ (storedAt i s t).1 + (storedAt i s t).2 ≤ a →
        t.mem.read a = s.mem.read a) ∧
      (storedAt i s t).1 + (storedAt i s t).2 ≤ s.params.memBytes ∧
      (i ≠ .crcSeal → (storedAt i s t).2 ≤ s.dstCap.toNat))

/-- The invariant holds after reset, for every parameters that meet 00_scope.md R8 and every canonical memory
inside `MEM_BYTES`. -/
def Obligations.ResetMeetsInvariant : Prop :=
  ∀ (p : Params) (m : Memory), p.wf = true → m.wf = true → (∀ c ∈ m, c.1 < p.memBytes) →
    (State.resetWith p m).Inv

/-- Every step keeps the invariant: memory canonical and inside `MEM_BYTES`, latched ranges in memory, the cursor
inside its stream, each table inside its capacity where that capacity is below 2^16 (log 7: above it the 16-bit COUNT
wraps, and nothing is claimed of the list's length), WriteFailed never, and pc the number of CMD writes. -/
def Obligations.StepKeepsInvariant : Prop :=
  ∀ s t : State, s.Inv → step s = .next t → t.Inv

/-! ### Control and CRC -/

/-- `NOP` (44_control.md R270), and its one word. -/
def Obligations.NopResult : Prop :=
  (∀ s : State, exec .nop s = .next { s with status := s.okStatus, result := 0, resultHi := 0 }) ∧
  ∀ w : Word, decode w = .ok .nop ↔ w = 0

/-- 40_crc.md R140: the table form is the same function, the first entries, the empty string, the check
value. -/
def Obligations.CrcTableForm : Prop :=
  (∀ (seed : Word) (b : List Byte), crc32ByTable seed b = crc32 seed b) ∧
  (∀ (seed : Word) (b : List Byte) (x : Byte),
    crc32 seed (b ++ [x]) =
      (crc32 seed b <<< 8) ^^^ crc32 0 [(crc32 seed b).extractLsb' 24 8 ^^^ x]) ∧
  crcTable 0 = 0x00000000 ∧ crcTable 1 = 0x04C11DB7 ∧ crcTable 2 = 0x09823B6E ∧
  crcTable 3 = 0x0D4326D9 ∧ crcTable 4 = 0x130476DC ∧ crcTable 8 = 0x2608EDB8 ∧
  crcTable 128 = 0x690CE0EE ∧ crcTable 255 = 0xB1F740B4 ∧
  (∀ seed : Word, crc32 seed [] = seed) ∧
  crc32 0xFFFFFFFF [0x31, 0x32, 0x33, 0x34, 0x35, 0x36, 0x37, 0x38, 0x39] = 0x0376E6E7

/-- 40_crc.md R141: chaining, and so over several `CRC_RUN` commands: a second one with INIT = 0 over the bytes
that follow ends with the CRC over the whole range. -/
def Obligations.CrcChaining : Prop :=
  (∀ (x : Word) (a b : List Byte), crc32 (crc32 x a) b = crc32 x (a ++ b)) ∧
  (∀ (s t : State) (init : Bool) (n k : Word),
    s.srcLen = n → s.srcAddr.toNat + n.toNat + k.toNat ≤ s.params.memBytes →
    s.srcAddr.toNat + n.toNat < 2 ^ 32 →
    exec (.crcRun init) s = .next t →
    ∃ u, exec (.crcRun false) { t with srcAddr := s.srcAddr + n, srcLen := k } = .next u ∧
      u.status.code = .ok ∧
      u.result = crc32 (if init then s.crcSeed else s.crcAcc)
        (s.mem.readBytes s.srcAddr.toNat (n.toNat + k.toNat)))

/-- 40_crc.md R145: a sealed section leaves residue 0, and corrupting one byte of it always changes the check. -/
def Obligations.SealedResidue : Prop :=
  (∀ b : List Byte, crc32 0xFFFFFFFF (b ++ be32 (crc32 0xFFFFFFFF b)) = 0) ∧
  (∀ (b : List Byte) (j : Nat) (x : Byte), j < (sealed b).length → x ≠ byteAt (sealed b) j →
    crc32 0xFFFFFFFF ((sealed b).set j x) ≠ 0 ∧ ¬ crcAgrees ((sealed b).set j x))

/-- `CRC_RUN` (40_crc.md R142). -/
def Obligations.CrcRunResult : Prop :=
  ∀ (init : Bool) (s : State),
    (InMem s s.srcAddr.toNat s.srcLen.toNat →
      exec (.crcRun init) s = .next
        { s with
          crcAcc := crc32 (if init then s.crcSeed else s.crcAcc)
            (s.mem.readBytes s.srcAddr.toNat s.srcLen.toNat)
          result := crc32 (if init then s.crcSeed else s.crcAcc)
            (s.mem.readBytes s.srcAddr.toNat s.srcLen.toNat)
          resultHi := 0
          status := s.okStatus }) ∧
    (¬ InMem s s.srcAddr.toNat s.srcLen.toNat →
      exec (.crcRun init) s = .next (s.failed .invalidArgument))

/-- `CRC_CHECK` (40_crc.md R143): a range that is `content ++ trailer`. -/
def Obligations.CrcCheckResult : Prop :=
  ∀ s : State,
    (∀ content trailer : List Byte, trailer.length = 4 →
      InMem s s.srcAddr.toNat s.srcLen.toNat →
      s.mem.readBytes s.srcAddr.toNat s.srcLen.toNat = content ++ trailer →
      ((crc32 0xFFFFFFFF content).toNat = rdBE trailer →
        exec .crcCheck s = .next
          { s with
            result := crc32 0xFFFFFFFF content, resultHi := 0, status := s.okStatus }) ∧
      ((crc32 0xFFFFFFFF content).toNat ≠ rdBE trailer →
        exec .crcCheck s = .next (s.failed .invalidData))) ∧
    (¬ InMem s s.srcAddr.toNat s.srcLen.toNat ∨ s.srcLen.toNat < 4 →
      exec .crcCheck s = .next (s.failed .invalidArgument))

/-- `CRC_SEAL` (40_crc.md R144): the trailer lands big-endian in the 4 bytes after the range, and nowhere else. -/
def Obligations.CrcSealResult : Prop :=
  ∀ s : State,
    (s.mem.wf = true → InMem s s.srcAddr.toNat (s.srcLen.toNat + 4) →
      ∃ m, exec .crcSeal s = .next
          { s with
            mem := m
            result := crc32 0xFFFFFFFF (s.mem.readBytes s.srcAddr.toNat s.srcLen.toNat)
            resultHi := 0
            status := s.okStatus } ∧
        m.readBytes (s.srcAddr.toNat + s.srcLen.toNat) 4 =
          be32 (crc32 0xFFFFFFFF (s.mem.readBytes s.srcAddr.toNat s.srcLen.toNat)) ∧
        ∀ a, a < s.srcAddr.toNat + s.srcLen.toNat ∨ s.srcAddr.toNat + s.srcLen.toNat + 4 ≤ a →
          m.read a = s.mem.read a) ∧
    (¬ InMem s s.srcAddr.toNat (s.srcLen.toNat + 4) →
      exec .crcSeal s = .next (s.failed .invalidArgument))

/-! ### Cursor -/

/-- The logical stream (41_cursor.md R160): range 0 then range 1 with no gap, and the bits of its bytes most
significant first (20_memory.md R74). -/
def Obligations.LogicalStream : Prop :=
  (∀ s : State,
    s.curBytes 0 s.cur.total =
      s.mem.readBytes s.cur.base0.toNat s.cur.len0.toNat ++
        s.mem.readBytes s.cur.base1.toNat s.cur.len1.toNat) ∧
  (∀ (s : State) (o n : Nat), s.curBits (8 * o) (8 * n) = rdBE (s.curBytes o n)) ∧
  (∀ (s : State) (j n k : Nat),
    s.curBits j (n + k) = s.curBits j n * 2 ^ k + s.curBits (j + n) k)

/-- `CUR_INIT` (41_cursor.md R162). -/
def Obligations.CurInitResult : Prop :=
  ∀ s : State,
    (InMem s s.curRegs.base0.toNat s.curRegs.len0.toNat →
      InMem s s.curRegs.base1.toNat s.curRegs.len1.toNat →
      s.curRegs.len0.toNat + s.curRegs.len1.toNat < 2 ^ 29 →
      exec .curInit s = .next
        { s with
          cur := { base0 := s.curRegs.base0, len0 := s.curRegs.len0, base1 := s.curRegs.base1,
                   len1 := s.curRegs.len1, pos := 0, err := false }
          result := BitVec.ofNat 32 (s.curRegs.len0.toNat + s.curRegs.len1.toNat)
          resultHi := 0
          status := s.okStatus }) ∧
    (¬ (InMem s s.curRegs.base0.toNat s.curRegs.len0.toNat ∧
        InMem s s.curRegs.base1.toNat s.curRegs.len1.toNat ∧
        s.curRegs.len0.toNat + s.curRegs.len1.toNat < 2 ^ 29) →
      exec .curInit s = .next (s.failed .invalidArgument))

/-- `CUR_READ` (41_cursor.md R163), the value bit by bit. -/
def Obligations.CurReadResult : Prop :=
  ∀ (n : BitVec 7) (s : State), 1 ≤ n.toNat → n.toNat ≤ 64 →
    (s.cur.err = false → s.cur.pos.toNat + n.toNat ≤ 8 * s.cur.total →
      ∃ v : BitVec 64,
        (∀ k, k < n.toNat → v.getLsbD (n.toNat - 1 - k) = s.curBit (s.cur.pos.toNat + k)) ∧
        (∀ k, n.toNat ≤ k → v.getLsbD k = false) ∧
        exec (.curRead n) s = .next
          { s with
            cur := { s.cur with pos := s.cur.pos + n.setWidth 32 }
            result := v.extractLsb' 0 32
            resultHi := v.extractLsb' 32 32
            status := s.okStatus }) ∧
    (s.cur.err = true ∨ 8 * s.cur.total < s.cur.pos.toNat + n.toNat →
      exec (.curRead n) s = .next { s.ranOut with result := 0, resultHi := 0 })

/-- `CUR_SKIP` and `CUR_SEEK` (41_cursor.md R164, R165). -/
def Obligations.CurSkipSeekResult : Prop :=
  ∀ (k : BitVec 24) (s : State),
    (s.cur.err = false → s.cur.pos.toNat + 8 * k.toNat ≤ 8 * s.cur.total →
      exec (.curSkip k) s = .next
        { s with
          cur := { s.cur with pos := s.cur.pos + 8 * k.setWidth 32 }
          result := s.cur.pos + 8 * k.setWidth 32
          resultHi := 0
          status := s.okStatus }) ∧
    (s.cur.err = true ∨ 8 * s.cur.total < s.cur.pos.toNat + 8 * k.toNat →
      exec (.curSkip k) s = .next s.ranOut) ∧
    (s.cur.err = false → k.toNat ≤ s.cur.total →
      exec (.curSeek k) s = .next
        { s with
          cur := { s.cur with pos := 8 * k.setWidth 32 }
          result := 8 * k.setWidth 32
          resultHi := 0
          status := s.okStatus }) ∧
    (s.cur.err = true ∨ s.cur.total < k.toNat →
      exec (.curSeek k) s = .next s.ranOut)

/-- The decoders' prologue and truncation (41_cursor.md R166): an unaligned cursor is InvalidArgument, a cursor in
error InvalidData, and an input shorter than the first bytes every structure has is truncation, which sets
`cur.err` and leaves the position. -/
def Obligations.DecoderProtocol : Prop :=
  ∀ (i : Instr) (need : Nat) (s : State),
    (i = .tsDec ∧ need = 5) ∨ (∃ l, i = .pesRead l ∧ need = 6) ∨ (i = .patRead ∧ need = 3) ∨
      (i = .pmtRead ∧ need = 3 ∧ ArenaOk s) ∨ (i = .psmRead ∧ need = 6 ∧ ArenaOk s) →
    (s.cur.pos.toNat % 8 ≠ 0 → exec i s = .next (s.failed .invalidArgument)) ∧
    (s.cur.pos.toNat % 8 = 0 → s.cur.err = true → exec i s = .next (s.failed .invalidData)) ∧
    (s.cur.pos.toNat % 8 = 0 → s.cur.err = false →
      s.cur.total < s.cur.pos.toNat / 8 + need → exec i s = .next s.ranOut)

/-- Truncation after the first bytes (41_cursor.md R166, 43_psi.md R240 step 4, 42_pes.md R200, R201, R204): the
stream ends before the bytes a length field asks for, right after byte 5 of a header-bearing PES packet, in bytes 6 to
8 of an MPEG-2 body, or anywhere inside an MPEG-1 header (stuffing to the end, a cut STD buffer, a cut timestamp):
InvalidData with `cur.err` set and the position as before. The forbidden PTS_DTS_flags `'01'` is found before the
optional area is taken, so it does not set `cur.err`. -/
def Obligations.TruncatedInput : Prop :=
  ∀ (s : State) (b : List Byte), Reads s b →
    (b.length = 3 → byteAt b 0 = 0x00 → (byteAt b 1).getLsbD 7 = true →
      9 ≤ (field12 b 1).toNat → (field12 b 1).toNat ≤ 1021 → ((field12 b 1).toNat - 9) % 4 = 0 →
      s.cur.total < s.cur.pos.toNat / 8 + 3 + (field12 b 1).toNat →
      exec .patRead s = .next s.ranOut) ∧
    (ArenaOk s → b.length = 3 → byteAt b 0 = 0x02 → (byteAt b 1).getLsbD 7 = true →
      13 ≤ (field12 b 1).toNat → (field12 b 1).toNat ≤ 1021 →
      s.cur.total < s.cur.pos.toNat / 8 + 3 + (field12 b 1).toNat →
      exec .pmtRead s = .next s.ranOut) ∧
    (ArenaOk s → b.length = 6 → b.take 4 = [0x00, 0x00, 0x01, 0xBC] →
      10 ≤ (field16 b 4).toNat → (field16 b 4).toNat ≤ 1018 →
      s.cur.total < s.cur.pos.toNat / 8 + 6 + (field16 b 4).toNat →
      exec .psmRead s = .next s.ranOut) ∧
    (∀ l, b.length = 9 → b.take 3 = [0x00, 0x00, 0x01] → hdrBearing (byteAt b 3) = true →
      l ≠ .mpeg1 → (byteAt b 6).extractLsb' 6 2 = 0b10 →
      s.cur.total < s.cur.pos.toNat / 8 + 9 + (byteAt b 8).toNat →
      exec (.pesRead l) s = .next
        (if (byteAt b 7).extractLsb' 6 2 = 0b01 then s.failed .invalidData else s.ranOut)) ∧
    (∀ l, b.length = 6 → b.take 3 = [0x00, 0x00, 0x01] → hdrBearing (byteAt b 3) = true →
      s.cur.total = s.cur.pos.toNat / 8 + 6 → exec (.pesRead l) s = .next s.ranOut) ∧
    (∀ l, b.length = 7 → b.take 3 = [0x00, 0x00, 0x01] → hdrBearing (byteAt b 3) = true →
      l = .mpeg2 ∨ (l = .auto ∧ (byteAt b 6).extractLsb' 6 2 = 0b10) →
      s.cur.total < s.cur.pos.toNat / 8 + 9 → exec (.pesRead l) s = .next s.ranOut) ∧
    (∀ l sid len n std st, l ≠ .mpeg2 → hdrBearing sid = true → st.wf → 6 ≤ b.length →
      b <+: mpeg1Header sid len n std st → b ≠ mpeg1Header sid len n std st →
      s.cur.total = s.cur.pos.toNat / 8 + b.length → exec (.pesRead l) s = .next s.ranOut)

/-! ### Timestamps and PES headers -/

/-- 30_encoding.md R100: the field's bits, and that reading a written field gives its prefix and value back with
all markers right. -/
def Obligations.TimestampField : Prop :=
  ∀ (p : BitVec 4) (v : BitVec 33),
    BitVec.ofNat 40 (rdBE (tsField p v)) =
      p ++ v.extractLsb' 30 3 ++ 1#1 ++ v.extractLsb' 15 15 ++ 1#1 ++ v.extractLsb' 0 15 ++ 1#1 ∧
    tsValue (tsField p v) = v ∧ tsPrefix (tsField p v) = p ∧ tsMarkersOk (tsField p v) = true

/-- 30_encoding.md R107: the stream-id classes, and the predicates of 42_pes.md R180 in terms of them. -/
def Obligations.StreamClasses : Prop :=
  ∀ sid : Byte,
    (streamClass sid = .notPes ↔ sid.toNat ≤ 0xBB) ∧
    (streamClass sid = .noHeader ↔
      sid = 0xBC ∨ sid = 0xBE ∨ sid = 0xBF ∨ sid = 0xF0 ∨ sid = 0xF1 ∨ sid = 0xF2 ∨ sid = 0xF8 ∨
        sid = 0xFF) ∧
    (streamClass sid = .video ↔ 0xE0 ≤ sid.toNat ∧ sid.toNat ≤ 0xEF) ∧
    (streamClass sid = .audio ↔ 0xC0 ≤ sid.toNat ∧ sid.toNat ≤ 0xDF) ∧
    (streamClass sid = .other ↔
      sid = 0xBD ∨ (0xF3 ≤ sid.toNat ∧ sid.toNat ≤ 0xF7) ∨
        (0xF9 ≤ sid.toNat ∧ sid.toNat ≤ 0xFE)) ∧
    (hdrBearing sid = true ↔
      streamClass sid = .video ∨ streamClass sid = .audio ∨ streamClass sid = .other) ∧
    (noHdr sid = true ↔ streamClass sid = .noHeader) ∧
    (isVideo sid = true ↔ streamClass sid = .video)

/-- `TS_ENC` (42_pes.md R185): the five bytes at DST_ADDR, all others as before, and its failures in order. -/
def Obligations.TsEncResult : Prop :=
  ∀ (sel : Stamp) (p : BitVec 4) (s : State) (v : BitVec 64),
    v = (match sel with | .pts => s.pes.pts | .dts => s.pes.dts) →
    (s.mem.wf = true → WindowInMem s → v ≠ noValue → 5 ≤ s.dstCap.toNat →
      ∃ m, exec (.tsEnc sel p) s = .next
          { s with mem := m, result := 5, resultHi := 0, status := s.okStatus } ∧
        m.readBytes s.dstAddr.toNat 5 = tsField p (BitVec.ofNat 33 (v.toNat % 2 ^ 33)) ∧
        ∀ a, a < s.dstAddr.toNat ∨ s.dstAddr.toNat + 5 ≤ a → m.read a = s.mem.read a) ∧
    (¬ WindowInMem s ∨ v = noValue → exec (.tsEnc sel p) s = .next (s.failed .invalidArgument)) ∧
    (WindowInMem s → v ≠ noValue → s.dstCap.toNat < 5 →
      exec (.tsEnc sel p) s = .next (s.failed .outOfMemory))

/-- `TS_DEC` (42_pes.md R186), over five bytes whatever their markers; and its failures. -/
def Obligations.TsDecResult : Prop :=
  ∀ s : State,
    (∀ t : List Byte, t.length = 5 → Reads s t →
      exec .tsDec s = .next
        { s with
          cur := s.after 5
          result := (tsValue t).extractLsb' 0 32
          resultHi := 0#24 ++ tsPrefix t ++ 0#3 ++ (tsValue t).extractLsb' 32 1
          status := { s.okStatus with markerErr := s.status.markerErr || !tsMarkersOk t } }) ∧
    (s.cur.pos.toNat % 8 ≠ 0 → exec .tsDec s = .next (s.failed .invalidArgument)) ∧
    (s.cur.pos.toNat % 8 = 0 → s.cur.err = true → exec .tsDec s = .next (s.failed .invalidData)) ∧
    (s.cur.pos.toNat % 8 = 0 → s.cur.err = false → s.cur.total < s.cur.pos.toNat / 8 + 5 →
      exec .tsDec s = .next s.ranOut)

/-- `PES_WRITE` (42_pes.md R190): when it completes, what it writes and where, and its registers. The length is 0
where UNB or an overflow asks for it on a video stream, else `3 + H + PES_PAYLOAD_LEN`. -/
def Obligations.PesWriteResult : Prop :=
  ∀ (unb : Bool) (s : State) (pv ed : Bool) (h len : Nat),
    pv = decide (s.pes.pts ≠ noValue) →
    ed = decide (s.pes.pts ≠ noValue ∧ s.pes.dts ≠ noValue ∧ s.pes.dts ≠ s.pes.pts) →
    h = (if pv then 5 else 0) + (if ed then 5 else 0) →
    len = (if unb ∨ 0xFFFF < 3 + h + s.pes.payloadLen.toNat then 0
      else 3 + h + s.pes.payloadLen.toNat) →
    s.mem.wf = true → hdrBearing s.pes.sid = true → WindowInMem s →
    (s.pes.dts ≠ noValue → s.pes.pts ≠ noValue) →
    (unb = true ∨ 0xFFFF < 3 + h + s.pes.payloadLen.toNat → isVideo s.pes.sid = true) →
    9 + h ≤ s.dstCap.toNat →
    ∃ m, exec (.pesWrite unb) s = .next
        { s with
          mem := m
          pes := { s.pes with
            pktLen := BitVec.ofNat 16 len
            opt := (if pv then 0x0080 else 0) ||| (if ed then 0x0040 else 0)
            hdrLen := BitVec.ofNat 8 h }
          result := BitVec.ofNat 32 (9 + h)
          resultHi := 0
          status := s.okStatus } ∧
      m.readBytes s.dstAddr.toNat (9 + h) =
        [0x00, 0x00, 0x01, s.pes.sid] ++ be16 (BitVec.ofNat 16 len) ++
          [0x80 ||| s.pes.flags.setWidth 8,
            (if pv then 0x80 else 0x00) ||| (if ed then 0x40 else 0x00), BitVec.ofNat 8 h] ++
          (if pv then tsField (if ed then 0b0011 else 0b0010) (s.pes.pts.setWidth 33) else []) ++
          (if ed then tsField 0b0001 (s.pes.dts.setWidth 33) else []) ∧
      ∀ a, a < s.dstAddr.toNat ∨ s.dstAddr.toNat + (9 + h) ≤ a → m.read a = s.mem.read a

/-- The failures of `PES_WRITE` in the order of its pseudocode (42_pes.md R190, 60_exceptions.md R284). -/
def Obligations.PesWriteFailures : Prop :=
  ∀ (unb : Bool) (s : State) (h : Nat),
    h = (if s.pes.pts ≠ noValue then 5 else 0) +
      (if s.pes.pts ≠ noValue ∧ s.pes.dts ≠ noValue ∧ s.pes.dts ≠ s.pes.pts then 5 else 0) →
    (hdrBearing s.pes.sid = false ∨ ¬ WindowInMem s ∨
        (s.pes.dts ≠ noValue ∧ s.pes.pts = noValue) ∨
        (isVideo s.pes.sid = false ∧
          (unb = true ∨ 0xFFFF < 3 + h + s.pes.payloadLen.toNat)) →
      exec (.pesWrite unb) s = .next (s.failed .invalidArgument)) ∧
    (hdrBearing s.pes.sid = true → WindowInMem s →
      (s.pes.dts ≠ noValue → s.pes.pts ≠ noValue) →
      (unb = true ∨ 0xFFFF < 3 + h + s.pes.payloadLen.toNat → isVideo s.pes.sid = true) →
      s.dstCap.toNat < 9 + h → exec (.pesWrite unb) s = .next (s.failed .outOfMemory))

/-- `PES_READ` of a stream_id with no optional header (42_pes.md R200): six bytes, every other field 0 or
`NOV`, whatever the layout and the length. -/
def Obligations.PesReadNoHeader : Prop :=
  ∀ (l : Layout) (s : State) (sid : Byte) (len : BitVec 16),
    noHdr sid = true → Reads s (pesStart sid len) →
    exec (.pesRead l) s = .next
      { s with
        cur := s.after 6
        pes := { sid := sid, pktLen := len, payloadLen := s.pes.payloadLen }
        result := 6
        resultHi := len.setWidth 32
        status := { s.okStatus with mpeg1 := false } }

/-- `PES_READ` of an MPEG-2 layout header, forced or detected (42_pes.md R200, R201, R202, R203): every field
at its place goes into its register; a field that does not fit in `H` bytes, the forbidden PTS_DTS_flags `'01'`,
and a packet length shorter than the header are InvalidData without `cur.err`. -/
def Obligations.PesReadMpeg2 : Prop :=
  ∀ (l : Layout) (s : State) (sid : Byte) (len : BitVec 16) (flags : BitVec 6) (f : Byte)
    (hb : List Byte),
    l ≠ .mpeg1 → hdrBearing sid = true → hb.length ≤ 255 →
    Reads s (mpeg2Header sid len flags f hb) →
    (f.extractLsb' 6 2 ≠ 0b01 → optionalEnd f hb ≤ hb.length →
      (len = 0 ∨ 3 + hb.length ≤ len.toNat) →
      exec (.pesRead l) s = .next
        { s with
          cur := s.after (9 + hb.length)
          pes := optionalRegs f hb
            { sid := sid, pktLen := len, flags := flags, hdrLen := BitVec.ofNat 8 hb.length
              payloadLen := s.pes.payloadLen }
          result := BitVec.ofNat 32 (9 + hb.length)
          resultHi := if len = 0 then 0 else BitVec.ofNat 32 (len.toNat - (3 + hb.length))
          status := { s.okStatus with
            mpeg1 := false, markerErr := s.status.markerErr || optionalWrong f hb } }) ∧
    (f.extractLsb' 6 2 = 0b01 ∨ hb.length < optionalEnd f hb ∨
        (len ≠ 0 ∧ len.toNat < 3 + hb.length) →
      exec (.pesRead l) s = .next (s.failed .invalidData))

/-- `PES_READ` of an MPEG-1 layout header, forced or detected (42_pes.md R204): stuffing, STD buffer and
timestamps; more than 16 stuffing bytes and wrong markers are flagged, not refused. -/
def Obligations.PesReadMpeg1 : Prop :=
  ∀ (l : Layout) (s : State) (sid : Byte) (len : BitVec 16) (n : Nat)
    (std : Option (Bool × BitVec 13)) (st : Mpeg1Stamps) (b : List Byte),
    l ≠ .mpeg2 → hdrBearing sid = true → st.wf → b = mpeg1Header sid len n std st → Reads s b →
    b.length < 2 ^ 29 →
    ((len = 0 ∨ b.length - 6 ≤ len.toNat) →
      exec (.pesRead l) s = .next
        { s with
          cur := s.after b.length
          pes :=
            { sid := sid, pktLen := len, opt := st.opt, pts := st.pts64, dts := st.dts64
              stdBuf := (match std with
                | none => {}
                | some (scale, size) => { valid := true, scale := scale, size := size })
              payloadLen := s.pes.payloadLen }
          result := BitVec.ofNat 32 b.length
          resultHi := if len = 0 then 0 else BitVec.ofNat 32 (len.toNat - (b.length - 6))
          status := { s.okStatus with
            mpeg1 := true
            markerErr := s.status.markerErr || decide (16 < n) || st.wrong } }) ∧
    (len ≠ 0 ∧ len.toNat < b.length - 6 → exec (.pesRead l) s = .next (s.failed .invalidData))

/-- What `PES_READ` rejects before the fields of a body (42_pes.md R200, R201, R204): a start code other than
`00 00 01`, a stream_id below 0xBC, a forced MPEG-2 body without its `'10'`, and, at the start of an MPEG-1 body, after
its stuffing or after its STD buffer, a byte `y` that begins no part that may stand there. -/
def Obligations.PesReadRejects : Prop :=
  ∀ (l : Layout) (s : State) (b : List Byte), Reads s b →
    (b.length = 6 → b.take 3 ≠ [0x00, 0x00, 0x01] ∨ (byteAt b 3).toNat < 0xBC →
      exec (.pesRead l) s = .next (s.failed .invalidData)) ∧
    (b.length = 9 → b.take 3 = [0x00, 0x00, 0x01] → hdrBearing (byteAt b 3) = true →
      l = .mpeg2 → (byteAt b 6).extractLsb' 6 2 ≠ 0b10 →
      exec (.pesRead l) s = .next (s.failed .invalidData)) ∧
    (∀ sid len n std y, b = mpeg1Front sid len n std ++ [y] → hdrBearing sid = true →
      l = .mpeg1 ∨ (l = .auto ∧ (byteAt b 6).extractLsb' 6 2 ≠ 0b10) →
      (std = none → y ≠ 0xFF ∧ y.extractLsb' 6 2 ≠ 0b01) →
      y ≠ 0x0F → y.extractLsb' 4 4 ≠ 0b0010 → y.extractLsb' 4 4 ≠ 0b0011 →
      exec (.pesRead l) s = .next (s.failed .invalidData))

/-- 42_pes.md R206: what `PES_WRITE` wrote, read by `PES_READ` with LAYOUT 0 or 2, restores the registers. -/
def Obligations.PesRoundTrip : Prop :=
  ∀ (unb : Bool) (l : Layout) (s t r : State),
    l ≠ .mpeg1 → s.mem.wf = true →
    (s.pes.pts = noValue ∨ s.pes.pts.toNat < 2 ^ 33) →
    (s.pes.dts = noValue ∨ s.pes.dts.toNat < 2 ^ 33) →
    exec (.pesWrite unb) s = .next t → t.status.code = .ok →
    Reads r (t.mem.readBytes s.dstAddr.toNat t.result.toNat) →
    ∃ u, exec (.pesRead l) r = .next u ∧ u.status.code = .ok ∧
      u.pes.sid = s.pes.sid ∧ u.pes.pktLen = t.pes.pktLen ∧ u.pes.flags = s.pes.flags ∧
      u.pes.pts = s.pes.pts ∧
      u.pes.dts = (if s.pes.dts = noValue then s.pes.pts else s.pes.dts) ∧
      u.result = t.result ∧ u.status.markerErr = r.status.markerErr

/-! ### Staging tables -/

/-- `TBL_CLEAR` (43_psi.md R220). -/
def Obligations.TblClearResult : Prop :=
  ∀ s : State,
    exec (.tblClear .pat) s = .next
      { s with
        pat := { s.pat with entries := [], valid := false }
        result := 0, resultHi := 0, status := s.okStatus } ∧
    exec (.tblClear .pmt) s = .next
      { s with
        pmt := { s.pmt with entries := [], valid := false }
        result := 0, resultHi := 0, status := s.okStatus } ∧
    exec (.tblClear .psm) s = .next
      { s with
        psm := { s.psm with entries := [], valid := false }
        result := 0, resultHi := 0, status := s.okStatus }

/-- `TBL_ADD` (43_psi.md R221), the entry from the entry registers as 10_state.md R41 gives. That COUNT, and so RESULT
and the test against the capacity, is the list's length modulo 2^16 is the model's reading for capacities above 65535
(log 7). -/
def Obligations.TblAddResult : Prop :=
  ∀ s : State,
    ((s.readReg .patCount).toNat ≠ s.params.patCap →
      exec (.tblAdd .pat) s = .next
        { s with
          pat := { s.pat with entries := s.pat.entries ++ [{ program := s.ent.a, pid := s.ent.b }] }
          result := BitVec.ofNat 32 ((s.pat.entries.length + 1) % 2 ^ 16)
          resultHi := 0, status := s.okStatus }) ∧
    ((s.readReg .patCount).toNat = s.params.patCap →
      exec (.tblAdd .pat) s = .next (s.failed .invalidArgument)) ∧
    ((s.readReg .pmtCount).toNat ≠ s.params.pmtCap →
      exec (.tblAdd .pmt) s = .next
        { s with
          pmt := { s.pmt with
            entries := s.pmt.entries ++
              [{ streamType := s.ent.a.extractLsb' 0 8, pid := s.ent.b, esAddr := s.ent.addr,
                 esLen := s.ent.len }] }
          result := BitVec.ofNat 32 ((s.pmt.entries.length + 1) % 2 ^ 16)
          resultHi := 0, status := s.okStatus }) ∧
    ((s.readReg .pmtCount).toNat = s.params.pmtCap →
      exec (.tblAdd .pmt) s = .next (s.failed .invalidArgument)) ∧
    ((s.readReg .psmCount).toNat ≠ s.params.psmCap →
      exec (.tblAdd .psm) s = .next
        { s with
          psm := { s.psm with
            entries := s.psm.entries ++
              [{ streamType := s.ent.a.extractLsb' 0 8, streamId := s.ent.b.extractLsb' 0 8,
                 esAddr := s.ent.addr, esLen := s.ent.len }] }
          result := BitVec.ofNat 32 ((s.psm.entries.length + 1) % 2 ^ 16)
          resultHi := 0, status := s.okStatus }) ∧
    ((s.readReg .psmCount).toNat = s.params.psmCap →
      exec (.tblAdd .psm) s = .next (s.failed .invalidArgument))

/-- `TBL_GET` (43_psi.md R222). -/
def Obligations.TblGetResult : Prop :=
  ∀ (s : State) (idx : BitVec 16),
    (∀ e, idx.toNat < (s.readReg .patCount).toNat → s.pat.entries[idx.toNat]? = some e →
      exec (.tblGet .pat idx) s = .next
        { s with
          ent := { a := e.program, b := e.pid, addr := 0, len := 0 }
          result := s.readReg .patCount, resultHi := 0, status := s.okStatus }) ∧
    ((s.readReg .patCount).toNat ≤ idx.toNat →
      exec (.tblGet .pat idx) s = .next (s.failed .invalidArgument)) ∧
    (∀ e, idx.toNat < (s.readReg .pmtCount).toNat → s.pmt.entries[idx.toNat]? = some e →
      exec (.tblGet .pmt idx) s = .next
        { s with
          ent := { a := e.streamType.setWidth 16, b := e.pid, addr := e.esAddr, len := e.esLen }
          result := s.readReg .pmtCount, resultHi := 0, status := s.okStatus }) ∧
    ((s.readReg .pmtCount).toNat ≤ idx.toNat →
      exec (.tblGet .pmt idx) s = .next (s.failed .invalidArgument)) ∧
    (∀ e, idx.toNat < (s.readReg .psmCount).toNat → s.psm.entries[idx.toNat]? = some e →
      exec (.tblGet .psm idx) s = .next
        { s with
          ent := { a := e.streamType.setWidth 16, b := e.streamId.setWidth 13, addr := e.esAddr,
                   len := e.esLen }
          result := s.readReg .psmCount, resultHi := 0, status := s.okStatus }) ∧
    ((s.readReg .psmCount).toNat ≤ idx.toNat →
      exec (.tblGet .psm idx) s = .next (s.failed .invalidArgument))

/-! ### Section writers -/

/-- `PAT_WRITE` (43_psi.md R233): the bytes as its pseudocode builds them. -/
def Obligations.PatWriteResult : Prop :=
  ∀ (s : State) (n : Nat) (sl : BitVec 12) (body : List Byte),
    n = s.pat.entries.length → n < 2 ^ 16 → sl = BitVec.ofNat 12 (9 + 4 * n) →
    body = [0x00, 0xB0 ||| (sl.extractLsb' 8 4).setWidth 8, sl.extractLsb' 0 8] ++
      be16 s.pat.tsid ++ [0xC1 ||| (s.pat.ver.setWidth 8 <<< 1), 0x00, 0x00] ++
      (s.pat.entries.map fun e =>
        be16 e.program ++
          [0xE0 ||| (e.pid.extractLsb' 8 5).setWidth 8, e.pid.extractLsb' 0 8]).flatten →
    (s.mem.wf = true → WindowInMem s → 9 + 4 * n ≤ 1021 → 12 + 4 * n ≤ s.dstCap.toNat →
      ∃ m, exec .patWrite s = .next
          { s with
            mem := m
            result := BitVec.ofNat 32 (12 + 4 * n)
            resultHi := crc32 0xFFFFFFFF body
            status := s.okStatus } ∧
        m.readBytes s.dstAddr.toNat (12 + 4 * n) = body ++ be32 (crc32 0xFFFFFFFF body) ∧
        ∀ a, a < s.dstAddr.toNat ∨ s.dstAddr.toNat + (12 + 4 * n) ≤ a →
          m.read a = s.mem.read a) ∧
    (¬ WindowInMem s ∨ 1021 < 9 + 4 * n → exec .patWrite s = .next (s.failed .invalidArgument)) ∧
    (WindowInMem s → 9 + 4 * n ≤ 1021 → s.dstCap.toNat < 12 + 4 * n →
      exec .patWrite s = .next (s.failed .outOfMemory))

/-- `PMT_WRITE` (43_psi.md R235, R231): the bytes as its pseudocode builds them, descriptor bytes as memory
holds them before the command. -/
def Obligations.PmtWriteResult : Prop :=
  ∀ (s : State) (size : Nat) (sl : BitVec 12) (body : List Byte),
    s.pmt.entries.length < 2 ^ 16 →
    size = 13 + s.pmt.pinfoLen.toNat + (s.pmt.entries.map fun e => 5 + e.esLen.toNat).sum →
    sl = BitVec.ofNat 12 size →
    body = [0x02, 0xB0 ||| (sl.extractLsb' 8 4).setWidth 8, sl.extractLsb' 0 8] ++
      be16 s.pmt.prog ++ [0xC1 ||| (s.pmt.ver.setWidth 8 <<< 1), 0x00, 0x00] ++
      [0xE0 ||| (s.pmt.pcrPid.extractLsb' 8 5).setWidth 8, s.pmt.pcrPid.extractLsb' 0 8] ++
      [0xF0 ||| (s.pmt.pinfoLen.extractLsb' 8 4).setWidth 8, s.pmt.pinfoLen.extractLsb' 0 8] ++
      s.mem.readBytes s.pmt.pinfoAddr.toNat s.pmt.pinfoLen.toNat ++
      (s.pmt.entries.map fun e =>
        [e.streamType, 0xE0 ||| (e.pid.extractLsb' 8 5).setWidth 8, e.pid.extractLsb' 0 8,
          0xF0 ||| (e.esLen.extractLsb' 8 4).setWidth 8, e.esLen.extractLsb' 0 8] ++
        s.mem.readBytes e.esAddr.toNat e.esLen.toNat).flatten →
    (s.mem.wf = true → WindowInMem s → RangeOk s s.pmt.pinfoAddr s.pmt.pinfoLen →
      (∀ e ∈ s.pmt.entries, RangeOk s e.esAddr e.esLen) → size ≤ 1021 →
      3 + size ≤ s.dstCap.toNat →
      ∃ m, exec .pmtWrite s = .next
          { s with
            mem := m
            result := BitVec.ofNat 32 (3 + size)
            resultHi := crc32 0xFFFFFFFF body
            status := s.okStatus } ∧
        m.readBytes s.dstAddr.toNat (3 + size) = body ++ be32 (crc32 0xFFFFFFFF body) ∧
        ∀ a, a < s.dstAddr.toNat ∨ s.dstAddr.toNat + (3 + size) ≤ a →
          m.read a = s.mem.read a) ∧
    (¬ WindowInMem s ∨ ¬ RangeOk s s.pmt.pinfoAddr s.pmt.pinfoLen ∨
        (∃ e ∈ s.pmt.entries, ¬ RangeOk s e.esAddr e.esLen) ∨ 1021 < size →
      exec .pmtWrite s = .next (s.failed .invalidArgument)) ∧
    (WindowInMem s → RangeOk s s.pmt.pinfoAddr s.pmt.pinfoLen →
      (∀ e ∈ s.pmt.entries, RangeOk s e.esAddr e.esLen) → size ≤ 1021 →
      s.dstCap.toNat < 3 + size → exec .pmtWrite s = .next (s.failed .outOfMemory))

/-- `PSM_WRITE` (43_psi.md R237, R231). -/
def Obligations.PsmWriteResult : Prop :=
  ∀ (s : State) (esml size : Nat) (body : List Byte),
    s.psm.entries.length < 2 ^ 16 →
    esml = (s.psm.entries.map fun e => 4 + e.esLen.toNat).sum →
    size = 10 + s.psm.pinfoLen.toNat + esml →
    body = [0x00, 0x00, 0x01, 0xBC] ++ be16 (BitVec.ofNat 16 size) ++
      [0x80 ||| (if s.psm.sext then 0x40 else 0x00) ||| 0x20 ||| s.psm.ver.setWidth 8, 0xFF] ++
      be16 (s.psm.pinfoLen.extractLsb' 0 16) ++
      s.mem.readBytes s.psm.pinfoAddr.toNat s.psm.pinfoLen.toNat ++
      be16 (BitVec.ofNat 16 esml) ++
      (s.psm.entries.map fun e =>
        [e.streamType, e.streamId] ++ be16 (e.esLen.extractLsb' 0 16) ++
          s.mem.readBytes e.esAddr.toNat e.esLen.toNat).flatten →
    (s.mem.wf = true → WindowInMem s → RangeOk s s.psm.pinfoAddr s.psm.pinfoLen →
      (∀ e ∈ s.psm.entries, RangeOk s e.esAddr e.esLen) → size ≤ 1018 →
      6 + size ≤ s.dstCap.toNat →
      ∃ m, exec .psmWrite s = .next
          { s with
            mem := m
            result := BitVec.ofNat 32 (6 + size)
            resultHi := crc32 0xFFFFFFFF body
            status := s.okStatus } ∧
        m.readBytes s.dstAddr.toNat (6 + size) = body ++ be32 (crc32 0xFFFFFFFF body) ∧
        ∀ a, a < s.dstAddr.toNat ∨ s.dstAddr.toNat + (6 + size) ≤ a →
          m.read a = s.mem.read a) ∧
    (¬ WindowInMem s ∨ ¬ RangeOk s s.psm.pinfoAddr s.psm.pinfoLen ∨
        (∃ e ∈ s.psm.entries, ¬ RangeOk s e.esAddr e.esLen) ∨ 1018 < size →
      exec .psmWrite s = .next (s.failed .invalidArgument)) ∧
    (WindowInMem s → RangeOk s s.psm.pinfoAddr s.psm.pinfoLen →
      (∀ e ∈ s.psm.entries, RangeOk s e.esAddr e.esLen) → size ≤ 1018 →
      s.dstCap.toNat < 6 + size → exec .psmWrite s = .next (s.failed .outOfMemory))

/-! ### Section readers -/

/-- `PAT_READ` of a good section (43_psi.md R241, R242): ignored, rebuilt, or refused for capacity. -/
def Obligations.PatReadResult : Prop :=
  ∀ (s : State) (b : List Byte) (n : Nat) (same : Prop),
    Reads s b → PatOk b → n = ((field12 b 1).toNat - 9) / 4 →
    (same ↔ (byteAt b 5).getLsbD 0 = false ∨
      (s.pat.valid = true ∧ (byteAt b 5).extractLsb' 1 5 = s.pat.ver ∧
        field16 b 3 = s.pat.tsid)) →
    (same →
      exec .patRead s = .next
        { s with
          cur := s.after b.length
          result := BitVec.ofNat 32 b.length
          resultHi := BitVec.ofNat 32 n
          status := { s.status with code := .ok, ignored := true } }) ∧
    (¬ same → n ≤ s.params.patCap →
      ∃ es : List PatEntry,
        exec .patRead s = .next
          { s with
            cur := s.after b.length
            pat := { tsid := field16 b 3, ver := (byteAt b 5).extractLsb' 1 5, valid := true
                     entries := es }
            result := BitVec.ofNat 32 b.length
            resultHi := BitVec.ofNat 32 n
            status := s.okStatus } ∧
        es.length = n ∧
        ∀ i e, es[i]? = some e →
          e.program = field16 b (8 + 4 * i) ∧ e.pid = field13 b (10 + 4 * i)) ∧
    (¬ same → s.params.patCap < n → exec .patRead s = .next (s.failed .invalidArgument))

/-- `PMT_READ` of a good section (43_psi.md R246, R242, R247): ignored, rebuilt with its descriptor bytes in the
arena, refused for capacity, or out of arena space. A stream's address is that of R247 (`arenaAddr`); that it is taken in
32 bits, so that an address of exactly 2^32 (an empty range at the end of a 4 GiB memory) is stored as 0, is the model's
choice (log 8, DEDUCED), not R247's. -/
def Obligations.PmtReadResult : Prop :=
  ∀ (s : State) (b : List Byte) (pi used : Nat) (items : List (EsItem 13)) (same : Prop),
    ArenaOk s → Reads s b → PmtOk b → pi = (field12 b 10).toNat → 12 + pi ≤ b.length - 4 →
    PmtStreams b (b.length - 4) (12 + pi) items → used = pi + (items.map (·.len)).sum →
    (same ↔ (byteAt b 5).getLsbD 0 = false ∨
      (s.pmt.valid = true ∧ (byteAt b 5).extractLsb' 1 5 = s.pmt.ver ∧
        field16 b 3 = s.pmt.prog)) →
    (same →
      exec .pmtRead s = .next
        { s with
          cur := s.after b.length
          result := BitVec.ofNat 32 b.length
          resultHi := 0
          status := { s.status with code := .ok, ignored := true } }) ∧
    (¬ same → s.mem.wf = true → items.length ≤ s.params.pmtCap → used ≤ s.dstCap.toNat →
      ∃ (m : Memory) (es : List PmtEntry),
        exec .pmtRead s = .next
          { s with
            mem := m
            cur := s.after b.length
            pmt := { prog := field16 b 3, ver := (byteAt b 5).extractLsb' 1 5, valid := true
                     pcrPid := field13 b 8, pinfoAddr := s.dstAddr
                     pinfoLen := BitVec.ofNat 32 pi, entries := es }
            result := BitVec.ofNat 32 b.length
            resultHi := BitVec.ofNat 32 used
            status := s.okStatus } ∧
        m.readBytes s.dstAddr.toNat used =
          slice b 12 pi ++ (items.map fun e => slice b e.offset e.len).flatten ∧
        (∀ a, a < s.dstAddr.toNat ∨ s.dstAddr.toNat + used ≤ a → m.read a = s.mem.read a) ∧
        es.length = items.length ∧
        ∀ (i : Nat) (x : EsItem 13) (e : PmtEntry), items[i]? = some x → es[i]? = some e →
          e = { streamType := x.streamType, pid := x.id, esAddr := arenaAddr s.dstAddr pi items i
                esLen := BitVec.ofNat 32 x.len }) ∧
    (¬ same → s.params.pmtCap < items.length →
      exec .pmtRead s = .next (s.failed .invalidArgument)) ∧
    (¬ same → items.length ≤ s.params.pmtCap → s.dstCap.toNat < used →
      exec .pmtRead s = .next (s.failed .outOfMemory))

/-- `PSM_READ` of a good section (43_psi.md R251, R242, R247, R252). A stream's address is that of R247 (`arenaAddr`); as
in `PmtReadResult`, that an address of exactly 2^32 is stored as 0 is the model's choice (log 8, DEDUCED). -/
def Obligations.PsmReadResult : Prop :=
  ∀ (s : State) (b : List Byte) (pi used : Nat) (items : List (EsItem 8)) (same : Prop) (mk : Bool),
    ArenaOk s → Reads s b → PsmOk b → pi = (field16 b 8).toNat → 12 + pi ≤ b.length - 4 →
    12 + pi + (field16 b (10 + pi)).toNat = b.length - 4 →
    PsmStreams b (b.length - 4) (12 + pi) items → used = pi + (items.map (·.len)).sum →
    (same ↔ (byteAt b 6).getLsbD 7 = false ∨
      (s.psm.valid = true ∧ (byteAt b 6).extractLsb' 0 5 = s.psm.ver)) →
    mk = (s.status.markerErr || !(byteAt b 7).getLsbD 0) →
    (same →
      exec .psmRead s = .next
        { s with
          cur := s.after b.length
          result := BitVec.ofNat 32 b.length
          resultHi := 0
          status := { s.status with code := .ok, ignored := true, markerErr := mk } }) ∧
    (¬ same → s.mem.wf = true → items.length ≤ s.params.psmCap → used ≤ s.dstCap.toNat →
      ∃ (m : Memory) (es : List PsmEntry),
        exec .psmRead s = .next
          { s with
            mem := m
            cur := s.after b.length
            psm := { ver := (byteAt b 6).extractLsb' 0 5, sext := (byteAt b 6).getLsbD 6
                     valid := true, pinfoAddr := s.dstAddr, pinfoLen := BitVec.ofNat 32 pi
                     entries := es }
            result := BitVec.ofNat 32 b.length
            resultHi := BitVec.ofNat 32 used
            status := { s.okStatus with markerErr := mk } } ∧
        m.readBytes s.dstAddr.toNat used =
          slice b 10 pi ++ (items.map fun e => slice b e.offset e.len).flatten ∧
        (∀ a, a < s.dstAddr.toNat ∨ s.dstAddr.toNat + used ≤ a → m.read a = s.mem.read a) ∧
        es.length = items.length ∧
        ∀ (i : Nat) (x : EsItem 8) (e : PsmEntry), items[i]? = some x → es[i]? = some e →
          e = { streamType := x.streamType, streamId := x.id
                esAddr := arenaAddr s.dstAddr pi items i, esLen := BitVec.ofNat 32 x.len }) ∧
    (¬ same → s.params.psmCap < items.length →
      exec .psmRead s = .next (s.failed .invalidArgument)) ∧
    (¬ same → items.length ≤ s.params.psmCap → s.dstCap.toNat < used →
      exec .psmRead s = .next (s.failed .outOfMemory))

/-- What the readers reject (43_psi.md R240): step 1, an arena window outside memory or overlapping a latched
range; step 3, a wrong table id, syntax indicator, start code or length; step 5, a CRC that does not agree; step 6,
a stream loop that does not end at the CRC. None of these sets `cur.err`. -/
def Obligations.SectionReadersReject : Prop :=
  (∀ s : State, ¬ ArenaOk s →
    exec .pmtRead s = .next (s.failed .invalidArgument) ∧
    exec .psmRead s = .next (s.failed .invalidArgument)) ∧
  (∀ (s : State) (b : List Byte), Reads s b → b.length = 3 →
    (byteAt b 0 ≠ 0x00 ∨ (byteAt b 1).getLsbD 7 = false ∨ (field12 b 1).toNat < 9 ∨
        1021 < (field12 b 1).toNat ∨ ((field12 b 1).toNat - 9) % 4 ≠ 0 →
      exec .patRead s = .next (s.failed .invalidData)) ∧
    (ArenaOk s → byteAt b 0 ≠ 0x02 ∨ (byteAt b 1).getLsbD 7 = false ∨ (field12 b 1).toNat < 13 ∨
        1021 < (field12 b 1).toNat →
      exec .pmtRead s = .next (s.failed .invalidData))) ∧
  (∀ (s : State) (b : List Byte), Reads s b → b.length = 6 → ArenaOk s →
    (b.take 4 ≠ [0x00, 0x00, 0x01, 0xBC] ∨ (field16 b 4).toNat < 10 ∨
      1018 < (field16 b 4).toNat) →
    exec .psmRead s = .next (s.failed .invalidData)) ∧
  (∀ (s : State) (b : List Byte), Reads s b → ¬ crcAgrees b →
    (b.length = 3 + (field12 b 1).toNat → exec .patRead s = .next (s.failed .invalidData)) ∧
    (b.length = 3 + (field12 b 1).toNat → ArenaOk s →
      exec .pmtRead s = .next (s.failed .invalidData)) ∧
    (b.length = 6 + (field16 b 4).toNat → ArenaOk s →
      exec .psmRead s = .next (s.failed .invalidData))) ∧
  (∀ (s : State) (b : List Byte), Reads s b → ArenaOk s → PmtOk b →
    (¬ ∃ items, PmtStreams b (b.length - 4) (12 + (field12 b 10).toNat) items) →
    exec .pmtRead s = .next (s.failed .invalidData)) ∧
  (∀ (s : State) (b : List Byte), Reads s b → ArenaOk s → PsmOk b →
    (12 + (field16 b 8).toNat + (field16 b (10 + (field16 b 8).toNat)).toNat ≠ b.length - 4 ∨
      ¬ ∃ items, PsmStreams b (b.length - 4) (12 + (field16 b 8).toNat) items) →
    exec .psmRead s = .next (s.failed .invalidData))

/-- 43_psi.md R255 for the PAT: a section `PAT_WRITE` wrote, read into a table with VALID = 0, gives the table
back. -/
def Obligations.PatRoundTrip : Prop :=
  ∀ s t r : State,
    s.mem.wf = true → s.pat.entries.length < 2 ^ 16 →
    exec .patWrite s = .next t → t.status.code = .ok →
    Reads r (t.mem.readBytes s.dstAddr.toNat t.result.toNat) → r.pat.valid = false →
    s.pat.entries.length ≤ r.params.patCap →
    ∃ u, exec .patRead r = .next u ∧ u.status.code = .ok ∧ u.status.ignored = false ∧
      u.result = t.result ∧ u.pat = { s.pat with valid := true }

/-- 43_psi.md R255 for the PMT: the same header fields and streams, and each descriptor range has the same bytes
as before, at the arena's addresses. -/
def Obligations.PmtRoundTrip : Prop :=
  ∀ s t r : State,
    s.mem.wf = true → r.mem.wf = true → s.pmt.entries.length < 2 ^ 16 →
    r.params.memBytes ≤ 2 ^ 32 →
    exec .pmtWrite s = .next t → t.status.code = .ok →
    Reads r (t.mem.readBytes s.dstAddr.toNat t.result.toNat) → ArenaOk r → r.pmt.valid = false →
    s.pmt.entries.length ≤ r.params.pmtCap →
    s.pmt.pinfoLen.toNat + (s.pmt.entries.map (·.esLen.toNat)).sum ≤ r.dstCap.toNat →
    ∃ u, exec .pmtRead r = .next u ∧ u.status.code = .ok ∧ u.status.ignored = false ∧
      u.result = t.result ∧ u.pmt.prog = s.pmt.prog ∧ u.pmt.ver = s.pmt.ver ∧
      u.pmt.valid = true ∧ u.pmt.pcrPid = s.pmt.pcrPid ∧ u.pmt.pinfoLen = s.pmt.pinfoLen ∧
      u.mem.readBytes u.pmt.pinfoAddr.toNat u.pmt.pinfoLen.toNat =
        s.mem.readBytes s.pmt.pinfoAddr.toNat s.pmt.pinfoLen.toNat ∧
      u.pmt.entries.length = s.pmt.entries.length ∧
      ∀ (i : Nat) (e e' : PmtEntry), s.pmt.entries[i]? = some e → u.pmt.entries[i]? = some e' →
        e'.streamType = e.streamType ∧ e'.pid = e.pid ∧ e'.esLen = e.esLen ∧
        u.mem.readBytes e'.esAddr.toNat e'.esLen.toNat =
          s.mem.readBytes e.esAddr.toNat e.esLen.toNat

/-- 43_psi.md R255 for the PSM. -/
def Obligations.PsmRoundTrip : Prop :=
  ∀ s t r : State,
    s.mem.wf = true → r.mem.wf = true → s.psm.entries.length < 2 ^ 16 →
    r.params.memBytes ≤ 2 ^ 32 →
    exec .psmWrite s = .next t → t.status.code = .ok →
    Reads r (t.mem.readBytes s.dstAddr.toNat t.result.toNat) → ArenaOk r → r.psm.valid = false →
    s.psm.entries.length ≤ r.params.psmCap →
    s.psm.pinfoLen.toNat + (s.psm.entries.map (·.esLen.toNat)).sum ≤ r.dstCap.toNat →
    ∃ u, exec .psmRead r = .next u ∧ u.status.code = .ok ∧ u.status.ignored = false ∧
      u.result = t.result ∧ u.psm.ver = s.psm.ver ∧ u.psm.sext = s.psm.sext ∧
      u.psm.valid = true ∧ u.psm.pinfoLen = s.psm.pinfoLen ∧
      u.mem.readBytes u.psm.pinfoAddr.toNat u.psm.pinfoLen.toNat =
        s.mem.readBytes s.psm.pinfoAddr.toNat s.psm.pinfoLen.toNat ∧
      u.psm.entries.length = s.psm.entries.length ∧
      ∀ (i : Nat) (e e' : PsmEntry), s.psm.entries[i]? = some e → u.psm.entries[i]? = some e' →
        e'.streamType = e.streamType ∧ e'.streamId = e.streamId ∧ e'.esLen = e.esLen ∧
        u.mem.readBytes e'.esAddr.toNat e'.esLen.toNat =
          s.mem.readBytes e.esAddr.toNat e.esLen.toNat

/-- 43_psi.md R256: a section that differs from a sealed one in exactly one byte, its length field the same, fails
its read with InvalidData, and nothing but CODE and IGNORED changes: the table is as before. -/
def Obligations.CorruptSectionRejected : Prop :=
  ∀ (s : State) (content b : List Byte) (j : Nat) (x : Byte),
    b = (sealed content).set j x → j < (sealed content).length → x ≠ byteAt (sealed content) j →
    Reads s b →
    (b.length = 3 + (field12 b 1).toNat → exec .patRead s = .next (s.failed .invalidData)) ∧
    (b.length = 3 + (field12 b 1).toNat → ArenaOk s →
      exec .pmtRead s = .next (s.failed .invalidData)) ∧
    (b.length = 6 + (field16 b 4).toNat → ArenaOk s →
      exec .psmRead s = .next (s.failed .invalidData))
end

