-- ==== Sys2Proof/Laws/State.lean ====
section
/-! SUPPORT. One lemma per field of State per shared update, so that no later proof unfolds a record
update. -/

namespace Sys2Proof.Machine

variable (s : State)

/-! ### State.done -/

@[simp] theorem State.done_params (hi r : Word) :
    (s.done hi r).params = s.params := rfl
@[simp] theorem State.done_cmd (hi r : Word) :
    (s.done hi r).cmd = s.cmd := rfl
@[simp] theorem State.done_status (hi r : Word) :
    (s.done hi r).status = { s.status with code := .ok, ignored := false } := rfl
@[simp] theorem State.done_srcAddr (hi r : Word) :
    (s.done hi r).srcAddr = s.srcAddr := rfl
@[simp] theorem State.done_srcLen (hi r : Word) :
    (s.done hi r).srcLen = s.srcLen := rfl
@[simp] theorem State.done_dstAddr (hi r : Word) :
    (s.done hi r).dstAddr = s.dstAddr := rfl
@[simp] theorem State.done_dstCap (hi r : Word) :
    (s.done hi r).dstCap = s.dstCap := rfl
@[simp] theorem State.done_result (hi r : Word) :
    (s.done hi r).result = r := rfl
@[simp] theorem State.done_resultHi (hi r : Word) :
    (s.done hi r).resultHi = hi := rfl
@[simp] theorem State.done_crcSeed (hi r : Word) :
    (s.done hi r).crcSeed = s.crcSeed := rfl
@[simp] theorem State.done_crcAcc (hi r : Word) :
    (s.done hi r).crcAcc = s.crcAcc := rfl
@[simp] theorem State.done_curRegs (hi r : Word) :
    (s.done hi r).curRegs = s.curRegs := rfl
@[simp] theorem State.done_cur (hi r : Word) :
    (s.done hi r).cur = s.cur := rfl
@[simp] theorem State.done_pes (hi r : Word) :
    (s.done hi r).pes = s.pes := rfl
@[simp] theorem State.done_pat (hi r : Word) :
    (s.done hi r).pat = s.pat := rfl
@[simp] theorem State.done_pmt (hi r : Word) :
    (s.done hi r).pmt = s.pmt := rfl
@[simp] theorem State.done_psm (hi r : Word) :
    (s.done hi r).psm = s.psm := rfl
@[simp] theorem State.done_ent (hi r : Word) :
    (s.done hi r).ent = s.ent := rfl
@[simp] theorem State.done_mem (hi r : Word) :
    (s.done hi r).mem = s.mem := rfl
@[simp] theorem State.done_host (hi r : Word) :
    (s.done hi r).host = s.host := rfl
@[simp] theorem State.done_hostPos (hi r : Word) :
    (s.done hi r).hostPos = s.hostPos := rfl
@[simp] theorem State.done_pc (hi r : Word) :
    (s.done hi r).pc = s.pc := rfl
@[simp] theorem State.done_reads (hi r : Word) :
    (s.done hi r).reads = s.reads := rfl

/-! ### State.doneIgnored -/

@[simp] theorem State.doneIgnored_params (hi r : Word) :
    (s.doneIgnored hi r).params = s.params := rfl
@[simp] theorem State.doneIgnored_cmd (hi r : Word) :
    (s.doneIgnored hi r).cmd = s.cmd := rfl
@[simp] theorem State.doneIgnored_status (hi r : Word) :
    (s.doneIgnored hi r).status = { s.status with code := .ok, ignored := true } := rfl
@[simp] theorem State.doneIgnored_srcAddr (hi r : Word) :
    (s.doneIgnored hi r).srcAddr = s.srcAddr := rfl
@[simp] theorem State.doneIgnored_srcLen (hi r : Word) :
    (s.doneIgnored hi r).srcLen = s.srcLen := rfl
@[simp] theorem State.doneIgnored_dstAddr (hi r : Word) :
    (s.doneIgnored hi r).dstAddr = s.dstAddr := rfl
@[simp] theorem State.doneIgnored_dstCap (hi r : Word) :
    (s.doneIgnored hi r).dstCap = s.dstCap := rfl
@[simp] theorem State.doneIgnored_result (hi r : Word) :
    (s.doneIgnored hi r).result = r := rfl
@[simp] theorem State.doneIgnored_resultHi (hi r : Word) :
    (s.doneIgnored hi r).resultHi = hi := rfl
@[simp] theorem State.doneIgnored_crcSeed (hi r : Word) :
    (s.doneIgnored hi r).crcSeed = s.crcSeed := rfl
@[simp] theorem State.doneIgnored_crcAcc (hi r : Word) :
    (s.doneIgnored hi r).crcAcc = s.crcAcc := rfl
@[simp] theorem State.doneIgnored_curRegs (hi r : Word) :
    (s.doneIgnored hi r).curRegs = s.curRegs := rfl
@[simp] theorem State.doneIgnored_cur (hi r : Word) :
    (s.doneIgnored hi r).cur = s.cur := rfl
@[simp] theorem State.doneIgnored_pes (hi r : Word) :
    (s.doneIgnored hi r).pes = s.pes := rfl
@[simp] theorem State.doneIgnored_pat (hi r : Word) :
    (s.doneIgnored hi r).pat = s.pat := rfl
@[simp] theorem State.doneIgnored_pmt (hi r : Word) :
    (s.doneIgnored hi r).pmt = s.pmt := rfl
@[simp] theorem State.doneIgnored_psm (hi r : Word) :
    (s.doneIgnored hi r).psm = s.psm := rfl
@[simp] theorem State.doneIgnored_ent (hi r : Word) :
    (s.doneIgnored hi r).ent = s.ent := rfl
@[simp] theorem State.doneIgnored_mem (hi r : Word) :
    (s.doneIgnored hi r).mem = s.mem := rfl
@[simp] theorem State.doneIgnored_host (hi r : Word) :
    (s.doneIgnored hi r).host = s.host := rfl
@[simp] theorem State.doneIgnored_hostPos (hi r : Word) :
    (s.doneIgnored hi r).hostPos = s.hostPos := rfl
@[simp] theorem State.doneIgnored_pc (hi r : Word) :
    (s.doneIgnored hi r).pc = s.pc := rfl
@[simp] theorem State.doneIgnored_reads (hi r : Word) :
    (s.doneIgnored hi r).reads = s.reads := rfl

/-! ### State.fail -/

@[simp] theorem State.fail_params (x : Raise) :
    (s.fail x).params = s.params := rfl
@[simp] theorem State.fail_cmd (x : Raise) :
    (s.fail x).cmd = s.cmd := rfl
@[simp] theorem State.fail_status (x : Raise) :
    (s.fail x).status = { s.status with code := x.code, ignored := false } := rfl
@[simp] theorem State.fail_srcAddr (x : Raise) :
    (s.fail x).srcAddr = s.srcAddr := rfl
@[simp] theorem State.fail_srcLen (x : Raise) :
    (s.fail x).srcLen = s.srcLen := rfl
@[simp] theorem State.fail_dstAddr (x : Raise) :
    (s.fail x).dstAddr = s.dstAddr := rfl
@[simp] theorem State.fail_dstCap (x : Raise) :
    (s.fail x).dstCap = s.dstCap := rfl
@[simp] theorem State.fail_result (x : Raise) :
    (s.fail x).result = (if x.keepDefault then 0 else s.result) := rfl
@[simp] theorem State.fail_resultHi (x : Raise) :
    (s.fail x).resultHi = (if x.keepDefault then 0 else s.resultHi) := rfl
@[simp] theorem State.fail_crcSeed (x : Raise) :
    (s.fail x).crcSeed = s.crcSeed := rfl
@[simp] theorem State.fail_crcAcc (x : Raise) :
    (s.fail x).crcAcc = s.crcAcc := rfl
@[simp] theorem State.fail_curRegs (x : Raise) :
    (s.fail x).curRegs = s.curRegs := rfl
@[simp] theorem State.fail_cur (x : Raise) :
    (s.fail x).cur = { s.cur with err := s.cur.err || x.keepErr } := rfl
@[simp] theorem State.fail_pes (x : Raise) :
    (s.fail x).pes = s.pes := rfl
@[simp] theorem State.fail_pat (x : Raise) :
    (s.fail x).pat = s.pat := rfl
@[simp] theorem State.fail_pmt (x : Raise) :
    (s.fail x).pmt = s.pmt := rfl
@[simp] theorem State.fail_psm (x : Raise) :
    (s.fail x).psm = s.psm := rfl
@[simp] theorem State.fail_ent (x : Raise) :
    (s.fail x).ent = s.ent := rfl
@[simp] theorem State.fail_mem (x : Raise) :
    (s.fail x).mem = s.mem := rfl
@[simp] theorem State.fail_host (x : Raise) :
    (s.fail x).host = s.host := rfl
@[simp] theorem State.fail_hostPos (x : Raise) :
    (s.fail x).hostPos = s.hostPos := rfl
@[simp] theorem State.fail_pc (x : Raise) :
    (s.fail x).pc = s.pc := rfl
@[simp] theorem State.fail_reads (x : Raise) :
    (s.fail x).reads = s.reads := rfl

/-! ### State.mark -/

@[simp] theorem State.mark_params (m : Bool) :
    (s.mark m).params = s.params := rfl
@[simp] theorem State.mark_cmd (m : Bool) :
    (s.mark m).cmd = s.cmd := rfl
@[simp] theorem State.mark_status (m : Bool) :
    (s.mark m).status = { s.status with markerErr := s.status.markerErr || m } := rfl
@[simp] theorem State.mark_srcAddr (m : Bool) :
    (s.mark m).srcAddr = s.srcAddr := rfl
@[simp] theorem State.mark_srcLen (m : Bool) :
    (s.mark m).srcLen = s.srcLen := rfl
@[simp] theorem State.mark_dstAddr (m : Bool) :
    (s.mark m).dstAddr = s.dstAddr := rfl
@[simp] theorem State.mark_dstCap (m : Bool) :
    (s.mark m).dstCap = s.dstCap := rfl
@[simp] theorem State.mark_result (m : Bool) :
    (s.mark m).result = s.result := rfl
@[simp] theorem State.mark_resultHi (m : Bool) :
    (s.mark m).resultHi = s.resultHi := rfl
@[simp] theorem State.mark_crcSeed (m : Bool) :
    (s.mark m).crcSeed = s.crcSeed := rfl
@[simp] theorem State.mark_crcAcc (m : Bool) :
    (s.mark m).crcAcc = s.crcAcc := rfl
@[simp] theorem State.mark_curRegs (m : Bool) :
    (s.mark m).curRegs = s.curRegs := rfl
@[simp] theorem State.mark_cur (m : Bool) :
    (s.mark m).cur = s.cur := rfl
@[simp] theorem State.mark_pes (m : Bool) :
    (s.mark m).pes = s.pes := rfl
@[simp] theorem State.mark_pat (m : Bool) :
    (s.mark m).pat = s.pat := rfl
@[simp] theorem State.mark_pmt (m : Bool) :
    (s.mark m).pmt = s.pmt := rfl
@[simp] theorem State.mark_psm (m : Bool) :
    (s.mark m).psm = s.psm := rfl
@[simp] theorem State.mark_ent (m : Bool) :
    (s.mark m).ent = s.ent := rfl
@[simp] theorem State.mark_mem (m : Bool) :
    (s.mark m).mem = s.mem := rfl
@[simp] theorem State.mark_host (m : Bool) :
    (s.mark m).host = s.host := rfl
@[simp] theorem State.mark_hostPos (m : Bool) :
    (s.mark m).hostPos = s.hostPos := rfl
@[simp] theorem State.mark_pc (m : Bool) :
    (s.mark m).pc = s.pc := rfl
@[simp] theorem State.mark_reads (m : Bool) :
    (s.mark m).reads = s.reads := rfl

/-! ### State.setPos -/

@[simp] theorem State.setPos_params (p : Nat) :
    (s.setPos p).params = s.params := rfl
@[simp] theorem State.setPos_cmd (p : Nat) :
    (s.setPos p).cmd = s.cmd := rfl
@[simp] theorem State.setPos_status (p : Nat) :
    (s.setPos p).status = s.status := rfl
@[simp] theorem State.setPos_srcAddr (p : Nat) :
    (s.setPos p).srcAddr = s.srcAddr := rfl
@[simp] theorem State.setPos_srcLen (p : Nat) :
    (s.setPos p).srcLen = s.srcLen := rfl
@[simp] theorem State.setPos_dstAddr (p : Nat) :
    (s.setPos p).dstAddr = s.dstAddr := rfl
@[simp] theorem State.setPos_dstCap (p : Nat) :
    (s.setPos p).dstCap = s.dstCap := rfl
@[simp] theorem State.setPos_result (p : Nat) :
    (s.setPos p).result = s.result := rfl
@[simp] theorem State.setPos_resultHi (p : Nat) :
    (s.setPos p).resultHi = s.resultHi := rfl
@[simp] theorem State.setPos_crcSeed (p : Nat) :
    (s.setPos p).crcSeed = s.crcSeed := rfl
@[simp] theorem State.setPos_crcAcc (p : Nat) :
    (s.setPos p).crcAcc = s.crcAcc := rfl
@[simp] theorem State.setPos_curRegs (p : Nat) :
    (s.setPos p).curRegs = s.curRegs := rfl
@[simp] theorem State.setPos_cur (p : Nat) :
    (s.setPos p).cur = { s.cur with pos := BitVec.ofNat 32 p } := rfl
@[simp] theorem State.setPos_pes (p : Nat) :
    (s.setPos p).pes = s.pes := rfl
@[simp] theorem State.setPos_pat (p : Nat) :
    (s.setPos p).pat = s.pat := rfl
@[simp] theorem State.setPos_pmt (p : Nat) :
    (s.setPos p).pmt = s.pmt := rfl
@[simp] theorem State.setPos_psm (p : Nat) :
    (s.setPos p).psm = s.psm := rfl
@[simp] theorem State.setPos_ent (p : Nat) :
    (s.setPos p).ent = s.ent := rfl
@[simp] theorem State.setPos_mem (p : Nat) :
    (s.setPos p).mem = s.mem := rfl
@[simp] theorem State.setPos_host (p : Nat) :
    (s.setPos p).host = s.host := rfl
@[simp] theorem State.setPos_hostPos (p : Nat) :
    (s.setPos p).hostPos = s.hostPos := rfl
@[simp] theorem State.setPos_pc (p : Nat) :
    (s.setPos p).pc = s.pc := rfl
@[simp] theorem State.setPos_reads (p : Nat) :
    (s.setPos p).reads = s.reads := rfl

/-! ### State.epilogue -/

@[simp] theorem State.epilogue_params (o : Nat) :
    (s.epilogue o).params = s.params := rfl
@[simp] theorem State.epilogue_cmd (o : Nat) :
    (s.epilogue o).cmd = s.cmd := rfl
@[simp] theorem State.epilogue_status (o : Nat) :
    (s.epilogue o).status = s.status := rfl
@[simp] theorem State.epilogue_srcAddr (o : Nat) :
    (s.epilogue o).srcAddr = s.srcAddr := rfl
@[simp] theorem State.epilogue_srcLen (o : Nat) :
    (s.epilogue o).srcLen = s.srcLen := rfl
@[simp] theorem State.epilogue_dstAddr (o : Nat) :
    (s.epilogue o).dstAddr = s.dstAddr := rfl
@[simp] theorem State.epilogue_dstCap (o : Nat) :
    (s.epilogue o).dstCap = s.dstCap := rfl
@[simp] theorem State.epilogue_result (o : Nat) :
    (s.epilogue o).result = s.result := rfl
@[simp] theorem State.epilogue_resultHi (o : Nat) :
    (s.epilogue o).resultHi = s.resultHi := rfl
@[simp] theorem State.epilogue_crcSeed (o : Nat) :
    (s.epilogue o).crcSeed = s.crcSeed := rfl
@[simp] theorem State.epilogue_crcAcc (o : Nat) :
    (s.epilogue o).crcAcc = s.crcAcc := rfl
@[simp] theorem State.epilogue_curRegs (o : Nat) :
    (s.epilogue o).curRegs = s.curRegs := rfl
@[simp] theorem State.epilogue_cur (o : Nat) :
    (s.epilogue o).cur = { s.cur with pos := BitVec.ofNat 32 (8 * o) } := rfl
@[simp] theorem State.epilogue_pes (o : Nat) :
    (s.epilogue o).pes = s.pes := rfl
@[simp] theorem State.epilogue_pat (o : Nat) :
    (s.epilogue o).pat = s.pat := rfl
@[simp] theorem State.epilogue_pmt (o : Nat) :
    (s.epilogue o).pmt = s.pmt := rfl
@[simp] theorem State.epilogue_psm (o : Nat) :
    (s.epilogue o).psm = s.psm := rfl
@[simp] theorem State.epilogue_ent (o : Nat) :
    (s.epilogue o).ent = s.ent := rfl
@[simp] theorem State.epilogue_mem (o : Nat) :
    (s.epilogue o).mem = s.mem := rfl
@[simp] theorem State.epilogue_host (o : Nat) :
    (s.epilogue o).host = s.host := rfl
@[simp] theorem State.epilogue_hostPos (o : Nat) :
    (s.epilogue o).hostPos = s.hostPos := rfl
@[simp] theorem State.epilogue_pc (o : Nat) :
    (s.epilogue o).pc = s.pc := rfl
@[simp] theorem State.epilogue_reads (o : Nat) :
    (s.epilogue o).reads = s.reads := rfl

/-! ### State.writeWindow -/

@[simp] theorem State.writeWindow_params (bs : List Byte) :
    (s.writeWindow bs).params = s.params := rfl
@[simp] theorem State.writeWindow_cmd (bs : List Byte) :
    (s.writeWindow bs).cmd = s.cmd := rfl
@[simp] theorem State.writeWindow_status (bs : List Byte) :
    (s.writeWindow bs).status = s.status := rfl
@[simp] theorem State.writeWindow_srcAddr (bs : List Byte) :
    (s.writeWindow bs).srcAddr = s.srcAddr := rfl
@[simp] theorem State.writeWindow_srcLen (bs : List Byte) :
    (s.writeWindow bs).srcLen = s.srcLen := rfl
@[simp] theorem State.writeWindow_dstAddr (bs : List Byte) :
    (s.writeWindow bs).dstAddr = s.dstAddr := rfl
@[simp] theorem State.writeWindow_dstCap (bs : List Byte) :
    (s.writeWindow bs).dstCap = s.dstCap := rfl
@[simp] theorem State.writeWindow_result (bs : List Byte) :
    (s.writeWindow bs).result = s.result := rfl
@[simp] theorem State.writeWindow_resultHi (bs : List Byte) :
    (s.writeWindow bs).resultHi = s.resultHi := rfl
@[simp] theorem State.writeWindow_crcSeed (bs : List Byte) :
    (s.writeWindow bs).crcSeed = s.crcSeed := rfl
@[simp] theorem State.writeWindow_crcAcc (bs : List Byte) :
    (s.writeWindow bs).crcAcc = s.crcAcc := rfl
@[simp] theorem State.writeWindow_curRegs (bs : List Byte) :
    (s.writeWindow bs).curRegs = s.curRegs := rfl
@[simp] theorem State.writeWindow_cur (bs : List Byte) :
    (s.writeWindow bs).cur = s.cur := rfl
@[simp] theorem State.writeWindow_pes (bs : List Byte) :
    (s.writeWindow bs).pes = s.pes := rfl
@[simp] theorem State.writeWindow_pat (bs : List Byte) :
    (s.writeWindow bs).pat = s.pat := rfl
@[simp] theorem State.writeWindow_pmt (bs : List Byte) :
    (s.writeWindow bs).pmt = s.pmt := rfl
@[simp] theorem State.writeWindow_psm (bs : List Byte) :
    (s.writeWindow bs).psm = s.psm := rfl
@[simp] theorem State.writeWindow_ent (bs : List Byte) :
    (s.writeWindow bs).ent = s.ent := rfl
@[simp] theorem State.writeWindow_mem (bs : List Byte) :
    (s.writeWindow bs).mem = s.mem.writeBytes s.dstAddr.toNat bs := rfl
@[simp] theorem State.writeWindow_host (bs : List Byte) :
    (s.writeWindow bs).host = s.host := rfl
@[simp] theorem State.writeWindow_hostPos (bs : List Byte) :
    (s.writeWindow bs).hostPos = s.hostPos := rfl
@[simp] theorem State.writeWindow_pc (bs : List Byte) :
    (s.writeWindow bs).pc = s.pc := rfl
@[simp] theorem State.writeWindow_reads (bs : List Byte) :
    (s.writeWindow bs).reads = s.reads := rfl

/-! ### Reset -/

theorem State.resetWith_params (p : Params) (m : Memory) : (State.resetWith p m).params = p := rfl
theorem State.resetWith_mem (p : Params) (m : Memory) : (State.resetWith p m).mem = m := rfl

end Sys2Proof.Machine
end

