-- ==== Sys2Proof/Laws/Memory.lean ====
section
/-! SUPPORT. The laws of memory: what a read gives after a write, that every operation keeps the canonical form,
and that the form makes equal memories equal lists (20_memory.md R70, R77). -/

namespace Sys2Proof.Machine

/-! ### Reads elsewhere, and of the byte written -/

/-- A write leaves every other byte alone, in any list of cells. -/
theorem Memory.read_write_other (m : Memory) {a a' : Nat} (b : Byte) (h : a' ≠ a) :
    (m.write a b).read a' = m.read a' := by
  induction m with
  | nil =>
    simp only [Memory.write]
    split <;> simp [Memory.read, Ne.symm h]
  | cons c m ih =>
    obtain ⟨k, v⟩ := c
    simp only [Memory.write]
    split
    · split <;> simp [Memory.read, Ne.symm h]
    · split
      · rename_i hk
        subst hk
        split <;> simp [Memory.read, Ne.symm h]
      · simp [Memory.read, ih]

/-- No cell below the lower bound of a canonical form. -/
theorem Memory.read_below {m : Memory} {lo a : Nat} (h : Memory.wfFrom lo m = true) (ha : a < lo) :
    m.read a = Config.unlistedByte := by
  induction m generalizing lo with
  | nil => rfl
  | cons c m ih =>
    obtain ⟨k, v⟩ := c
    simp only [Memory.wfFrom, Bool.and_eq_true, decide_eq_true_eq] at h
    have hk : k ≠ a := by omega
    simp only [Memory.read, if_neg hk]
    exact ih h.2 (by omega)

/-- A canonical form from `lo` is one from any lower bound. -/
theorem Memory.wfFrom_mono {m : Memory} {lo lo' : Nat} (h : Memory.wfFrom lo m = true)
    (hl : lo' ≤ lo) : Memory.wfFrom lo' m = true := by
  cases m with
  | nil => rfl
  | cons c m =>
    obtain ⟨k, v⟩ := c
    simp only [Memory.wfFrom, Bool.and_eq_true, decide_eq_true_eq] at h ⊢
    exact ⟨⟨by omega, h.1.2⟩, h.2⟩

/-- A write reads back. -/
theorem Memory.read_write_same {m : Memory} {lo : Nat} (h : Memory.wfFrom lo m = true) (a : Nat)
    (b : Byte) : (m.write a b).read a = b := by
  induction m generalizing lo with
  | nil =>
    simp only [Memory.write]
    split
    · rename_i hb; simp [Memory.read, hb]
    · simp [Memory.read]
  | cons c m ih =>
    obtain ⟨k, v⟩ := c
    simp only [Memory.wfFrom, Bool.and_eq_true, decide_eq_true_eq] at h
    simp only [Memory.write]
    split
    · rename_i hk
      split
      · rename_i hb
        have : k ≠ a := by omega
        simp only [Memory.read, if_neg this]
        rw [Memory.read_below h.2 (by omega), hb]
      · simp [Memory.read]
    · split
      · rename_i hk
        subst hk
        split
        · rename_i hb
          rw [Memory.read_below h.2 (by omega), hb]
        · simp [Memory.read]
      · rename_i hk
        have : k ≠ a := fun e => hk e.symm
        simp only [Memory.read, if_neg this]
        exact ih h.2

/-! ### The canonical form is kept -/

theorem Memory.write_wfFrom {m : Memory} {lo a : Nat} (h : Memory.wfFrom lo m = true) (b : Byte)
    (ha : lo ≤ a) : Memory.wfFrom lo (m.write a b) = true := by
  induction m generalizing lo with
  | nil =>
    simp only [Memory.write]
    split
    · rfl
    · rename_i hb; simp [Memory.wfFrom, ha, hb]
  | cons c m ih =>
    obtain ⟨k, v⟩ := c
    have h' := h
    simp only [Memory.wfFrom, Bool.and_eq_true, decide_eq_true_eq] at h
    simp only [Memory.write]
    split
    · split
      · exact h'
      · rename_i hk hb
        simp only [Memory.wfFrom, Bool.and_eq_true, decide_eq_true_eq]
        exact ⟨⟨ha, by simpa using hb⟩, ⟨⟨by omega, h.1.2⟩, h.2⟩⟩
    · split
      · rename_i hk
        split
        · exact Memory.wfFrom_mono h.2 (by omega)
        · rename_i hb
          subst hk
          simp only [Memory.wfFrom, Bool.and_eq_true, decide_eq_true_eq]
          exact ⟨⟨ha, by simpa using hb⟩, h.2⟩
      · rename_i h1 h2
        simp only [Memory.wfFrom, Bool.and_eq_true, decide_eq_true_eq]
        exact ⟨h.1, ih h.2 (by omega)⟩

/-- A write keeps the canonical form. -/
theorem Memory.write_wf {m : Memory} (h : m.wf = true) (a : Nat) (b : Byte) :
    (m.write a b).wf = true :=
  Memory.write_wfFrom h b (Nat.zero_le a)

/-- A write of a byte string keeps the canonical form. -/
theorem Memory.writeBytes_wf {m : Memory} (h : m.wf = true) (a : Nat) (s : List Byte) :
    (m.writeBytes a s).wf = true := by
  induction s generalizing m a with
  | nil => exact h
  | cons b s ih => exact ih (Memory.write_wf h a b) (a + 1)

/-- The memory of `State.reset` is canonical. -/
theorem reset_mem_wf : State.reset.mem.wf = true := rfl

/-! ### Byte strings -/

@[simp] theorem Memory.readBytes_length (m : Memory) (a n : Nat) : (m.readBytes a n).length = n := by
  simp [Memory.readBytes]

theorem Memory.readBytes_zero (m : Memory) (a : Nat) : m.readBytes a 0 = [] := rfl

theorem Memory.readBytes_succ (m : Memory) (a n : Nat) :
    m.readBytes a (n + 1) = m.read a :: m.readBytes (a + 1) n := by
  simp only [Memory.readBytes, List.range_succ_eq_map, List.map_cons, List.map_map, Nat.add_zero]
  congr 1
  apply List.map_congr_left
  intro i _
  simp only [Function.comp]
  congr 1
  omega

theorem Memory.readBytes_append (m : Memory) (a n k : Nat) :
    m.readBytes a (n + k) = m.readBytes a n ++ m.readBytes (a + n) k := by
  induction n generalizing a with
  | zero => simp [Memory.readBytes_zero]
  | succ n ih =>
    rw [show n + 1 + k = (n + k) + 1 by omega, Memory.readBytes_succ, Memory.readBytes_succ, ih,
      List.cons_append, show a + (n + 1) = a + 1 + n by omega]

/-- A write of a byte string leaves every byte outside it alone. -/
theorem Memory.read_writeBytes_outside (m : Memory) (s : List Byte) {a a' : Nat}
    (h : a' < a ∨ a + s.length ≤ a') : (m.writeBytes a s).read a' = m.read a' := by
  induction s generalizing m a with
  | nil => rfl
  | cons b s ih =>
    simp only [List.length_cons] at h
    simp only [Memory.writeBytes]
    rw [ih _ (by omega), Memory.read_write_other _ _ (by omega)]

/-- A byte string written reads back. -/
theorem Memory.readBytes_writeBytes {m : Memory} (h : m.wf = true) (a : Nat) (s : List Byte) :
    (m.writeBytes a s).readBytes a s.length = s := by
  induction s generalizing m a with
  | nil => rfl
  | cons b s ih =>
    rw [List.length_cons, Memory.readBytes_succ, Memory.writeBytes, ih (Memory.write_wf h a b),
      Memory.read_writeBytes_outside _ _ (Or.inl (Nat.lt_succ_self a)), Memory.read_write_same h]

/-- A range apart from the bytes written reads as before (20_memory.md R78). -/
theorem Memory.readBytes_writeBytes_apart (m : Memory) (s : List Byte) {a b n : Nat}
    (h : b + n ≤ a ∨ a + s.length ≤ b) : (m.writeBytes a s).readBytes b n = m.readBytes b n := by
  simp only [Memory.readBytes]
  apply List.map_congr_left
  intro i hi
  rw [List.mem_range] at hi
  exact Memory.read_writeBytes_outside _ _ (by omega)

/-! ### Where cells lie -/

theorem Memory.mem_write {m : Memory} {a : Nat} {b : Byte} {c : Host.Cell} (h : c ∈ m.write a b) :
    c.1 = a ∨ c ∈ m := by
  induction m with
  | nil =>
    simp only [Memory.write] at h
    split at h <;> simp_all
  | cons d m ih =>
    obtain ⟨k, v⟩ := d
    simp only [Memory.write] at h
    split at h
    · split at h
      · exact .inr h
      · rcases List.mem_cons.mp h with rfl | h
        · exact .inl rfl
        · exact .inr h
    · split at h
      · split at h
        · exact .inr (List.mem_cons_of_mem _ h)
        · rcases List.mem_cons.mp h with rfl | h
          · exact .inl rfl
          · exact .inr (List.mem_cons_of_mem _ h)
      · rcases List.mem_cons.mp h with rfl | h
        · exact .inr List.mem_cons_self
        · rcases ih h with h | h
          · exact .inl h
          · exact .inr (List.mem_cons_of_mem _ h)

/-- A write of a byte string adds cells only where it writes. -/
theorem Memory.mem_writeBytes {m : Memory} {a : Nat} {s : List Byte} {c : Host.Cell}
    (h : c ∈ m.writeBytes a s) : (a ≤ c.1 ∧ c.1 < a + s.length) ∨ c ∈ m := by
  induction s generalizing m a with
  | nil => exact .inr h
  | cons b s ih =>
    rw [List.length_cons]
    rcases ih h with h | h
    · left; omega
    · rcases Memory.mem_write h with h | h
      · left; omega
      · exact .inr h

/-! ### Equal memories are equal lists -/

theorem Memory.read_head {lo k : Nat} {v : Byte} {m : Memory}
    (h : Memory.wfFrom lo ((k, v) :: m) = true) : v ≠ Config.unlistedByte := by
  simp only [Memory.wfFrom, Bool.and_eq_true, bne_iff_ne] at h
  exact h.1.2

/-- Two canonical memories that read alike everywhere are the same list. -/
theorem Memory.ext_of_wf {m m' : Memory} {lo : Nat} (h : Memory.wfFrom lo m = true)
    (h' : Memory.wfFrom lo m' = true) (e : ∀ a, m.read a = m'.read a) : m = m' := by
  induction m generalizing m' lo with
  | nil =>
    cases m' with
    | nil => rfl
    | cons c m' =>
      obtain ⟨k, v⟩ := c
      have := e k
      simp only [Memory.read, if_true] at this
      exact absurd this.symm (Memory.read_head h')
  | cons c m ih =>
    obtain ⟨k, v⟩ := c
    cases m' with
    | nil =>
      have := e k
      simp only [Memory.read, if_true] at this
      exact absurd this (Memory.read_head h)
    | cons c' m' =>
      obtain ⟨k', v'⟩ := c'
      have hv := Memory.read_head h
      have hv' := Memory.read_head h'
      simp only [Memory.wfFrom, Bool.and_eq_true, decide_eq_true_eq] at h h'
      have hk : k = k' := by
        rcases Nat.lt_trichotomy k k' with hlt | heq | hlt
        · have := e k
          simp only [Memory.read, if_true, if_neg (show k' ≠ k by omega)] at this
          rw [Memory.read_below h'.2 (by omega)] at this
          exact absurd this hv
        · exact heq
        · have := e k'
          simp only [Memory.read, if_true, if_neg (show k ≠ k' by omega)] at this
          rw [Memory.read_below h.2 (by omega)] at this
          exact absurd this.symm hv'
      subst hk
      have hvv : v = v' := by simpa [Memory.read] using e k
      subst hvv
      congr 1
      apply ih h.2 h'.2
      intro a
      by_cases ha : k = a
      · subst ha
        rw [Memory.read_below h.2 (by omega), Memory.read_below h'.2 (by omega)]
      · simpa [Memory.read, ha] using e a

end Sys2Proof.Machine
end

