-- ==== Sys2Proof/Laws/Ops.lean ====
section
/-! SUPPORT. One lemma per shared operation saying everything it can do: a sequence of checks peeled apart, how a
command ends (60_exceptions.md R283), and the decoders' protocol (41_cursor.md R166). -/

namespace Sys2Proof.Machine

/-! ### Sequencing -/

/-! A command's pseudocode goes on with the value of its first part, or ends with that part's failure
(60_exceptions.md R283, R284). -/

section Sequence
variable {α β : Type} {first : Except Raise α} {rest : α → Except Raise β}

/-- Everything a sequence can answer. -/
theorem bind_answers {answer : Except Raise β} :
    first >>= rest = answer ↔
      match first with
      | .ok v => rest v = answer
      | .error r => .error r = answer := by
  cases first <;> exact Iff.rfl

theorem bind_eq_ok {w : β} : first >>= rest = .ok w ↔ ∃ v, first = .ok v ∧ rest v = .ok w := by
  rw [bind_answers]; cases first <;> simp

theorem bind_eq_error {r : Raise} :
    first >>= rest = .error r ↔ first = .error r ∨ ∃ v, first = .ok v ∧ rest v = .error r := by
  rw [bind_answers]; cases first <;> simp

@[simp] theorem ok_bind {v : α} : (.ok v : Except Raise α) >>= rest = rest v := rfl

@[simp] theorem error_bind {r : Raise} : (.error r : Except Raise α) >>= rest = .error r := rfl

end Sequence

theorem check_eq_ok {c : Prop} [Decidable c] {r : Raise} {u : Unit} : check c r = .ok u ↔ c := by
  unfold check; split <;> simp [*]

theorem check_eq_error {c : Prop} [Decidable c] {r e : Raise} :
    check c r = .error e ↔ ¬ c ∧ r = e := by
  unfold check; split <;> simp [*]

theorem check_of {c : Prop} [Decidable c] (h : c) (r : Raise) : check c r = .ok () := if_pos h

theorem check_of_not {c : Prop} [Decidable c] (h : ¬ c) (r : Raise) : check c r = .error r := if_neg h

theorem check_bind_eq_ok {c : Prop} [Decidable c] {r : Raise} {β : Type} {f : Unit → Except Raise β}
    {b : β} : (check c r >>= f) = .ok b ↔ c ∧ f () = .ok b := by
  unfold check; split <;> simp [*]

theorem check_bind_eq_error {c : Prop} [Decidable c] {r e : Raise} {β : Type}
    {f : Unit → Except Raise β} :
    (check c r >>= f) = .error e ↔ (¬ c ∧ r = e) ∨ (c ∧ f () = .error e) := by
  unfold check; split <;> simp [*]

/-! ### How a command ends -/

@[simp] theorem finish_ok (s t : State) : finish s (.ok t) = .next t := rfl

@[simp] theorem finish_error (s : State) (r : Raise) : finish s (.error r) = .next (s.fail r) := rfl

/-- Everything `finish` can answer. -/
theorem finish_eq_next {s t : State} {x : Except Raise State} :
    finish s x = .next t ↔ x = .ok t ∨ ∃ r, x = .error r ∧ t = s.fail r := by
  cases x <;> simp [finish, eq_comm]

/-- A failing command leaves everything but CODE, IGNORED and the kept writes (60_exceptions.md R283). -/
theorem fail_eq_of_plain {s : State} {r : Raise} (h : r.keepErr = false) (h' : r.keepDefault = false) :
    s.fail r = { s with status := { s.status with code := r.code, ignored := false } } := by
  simp [State.fail, h, h']

/-! ### The decoders' protocol -/

theorem prologue_eq_ok {s : State} {o : Nat} :
    prologue s = .ok o ↔ s.cur.pos.toNat % 8 = 0 ∧ s.cur.err = false ∧ o = s.cur.pos.toNat / 8 := by
  simp only [prologue, check_bind_eq_ok, Except.ok.injEq, eq_comm (a := o)]

theorem prologue_eq_error {s : State} {e : Raise} :
    prologue s = .error e ↔
      (s.cur.pos.toNat % 8 ≠ 0 ∧ e = .invalidArgument) ∨
      (s.cur.pos.toNat % 8 = 0 ∧ s.cur.err = true ∧ e = .invalidData) := by
  simp only [prologue, check_bind_eq_error, reduceCtorEq, and_false, or_false, Bool.not_eq_false,
    eq_comm (a := e)]

theorem take_eq_ok {s : State} {o n : Nat} {b : List Byte} :
    take s o n = .ok b ↔ o + n ≤ s.cur.total ∧ b = s.curBytes o n := by
  simp only [take, check_bind_eq_ok, Except.ok.injEq, eq_comm (a := b)]

theorem take_eq_error {s : State} {o n : Nat} {e : Raise} :
    take s o n = .error e ↔ s.cur.total < o + n ∧ e = .pastEnd := by
  simp only [take, check_bind_eq_error, reduceCtorEq, and_false, or_false, Nat.not_le,
    eq_comm (a := e)]

theorem peek_eq_ok {s : State} {o : Nat} {b : Byte} :
    peek s o = .ok b ↔ o + 1 ≤ s.cur.total ∧ b = s.curByte o := by
  simp only [peek, check_bind_eq_ok, Except.ok.injEq, eq_comm (a := b)]

theorem peek_eq_error {s : State} {o : Nat} {e : Raise} :
    peek s o = .error e ↔ s.cur.total < o + 1 ∧ e = .pastEnd := by
  simp only [peek, check_bind_eq_error, reduceCtorEq, and_false, or_false, Nat.not_le,
    eq_comm (a := e)]

theorem getField_eq_ok {hb b : List Byte} {k n : Nat} :
    getField hb k n = .ok b ↔ k + n ≤ hb.length ∧ b = slice hb k n := by
  simp only [getField, check_bind_eq_ok, Except.ok.injEq, eq_comm (a := b)]

theorem getField_eq_error {hb : List Byte} {k n : Nat} {e : Raise} :
    getField hb k n = .error e ↔ hb.length < k + n ∧ e = .invalidData := by
  simp only [getField, check_bind_eq_error, reduceCtorEq, and_false, or_false, Nat.not_le,
    eq_comm (a := e)]

theorem checkArenaWindow_eq_ok {s : State} {u : Unit} :
    checkArenaWindow s = .ok u ↔
      WindowInMem s ∧ ¬ WindowOverlaps s s.cur.base0.toNat s.cur.len0.toNat ∧
        ¬ WindowOverlaps s s.cur.base1.toNat s.cur.len1.toNat := by
  simp only [checkArenaWindow, check_bind_eq_ok, check_eq_ok]

/-! ### Byte strings of the stream -/

@[simp] theorem curBytes_length (s : State) (o n : Nat) : (s.curBytes o n).length = n := by
  simp [State.curBytes]

theorem curBytes_zero (s : State) (o : Nat) : s.curBytes o 0 = [] := rfl

theorem curBytes_succ (s : State) (o n : Nat) :
    s.curBytes o (n + 1) = s.curByte o :: s.curBytes (o + 1) n := by
  simp only [State.curBytes, List.range_succ_eq_map, List.map_cons, List.map_map, Nat.add_zero]
  congr 1
  apply List.map_congr_left
  intro i _
  simp only [Function.comp]
  congr 1
  omega

theorem curBytes_append (s : State) (o n k : Nat) :
    s.curBytes o (n + k) = s.curBytes o n ++ s.curBytes (o + n) k := by
  induction n generalizing o with
  | zero => simp [curBytes_zero]
  | succ n ih =>
    rw [show n + 1 + k = (n + k) + 1 by omega, curBytes_succ, curBytes_succ, ih, List.cons_append,
      show o + (n + 1) = o + 1 + n by omega]

theorem byteAt_curBytes {s : State} {o n i : Nat} (h : i < n) :
    byteAt (s.curBytes o n) i = s.curByte (o + i) := by
  simp [byteAt, State.curBytes, List.getD_eq_getElem?_getD, h]

theorem slice_curBytes {s : State} {o n i k : Nat} (h : i + k ≤ n) :
    slice (s.curBytes o n) i k = s.curBytes (o + i) k := by
  obtain ⟨r, rfl⟩ := Nat.exists_eq_add_of_le h
  rw [curBytes_append, curBytes_append, slice, List.append_assoc, List.drop_append_of_le_length (by simp),
    List.drop_of_length_le (by simp), List.nil_append, List.take_append_of_le_length (by simp),
    List.take_of_length_le (by simp)]

/-! ### Big-endian fields -/

@[simp] theorem be16_length (x : BitVec 16) : (be16 x).length = 2 := rfl
@[simp] theorem be32_length (x : Word) : (be32 x).length = 4 := rfl
@[simp] theorem be13_length (x : BitVec 13) : (be13 x).length = 2 := rfl
@[simp] theorem be12_length (t : BitVec 4) (x : BitVec 12) : (be12 t x).length = 2 := rfl
@[simp] theorem tsField_length (p : BitVec 4) (v : BitVec 33) : (tsField p v).length = 5 := rfl

end Sys2Proof.Machine
end

