-- ==== Sys2Proof/Laws/Commands.lean ====
section
/-! SUPPORT. What each command can do: for its pseudocode, when it succeeds and with which state, and with which
failure it can end. -/

namespace Sys2Proof.Machine

/-! ### CRC unit -/

theorem crcRun_eq_ok {init : Bool} {s t : State} :
    crcRun init s = .ok t ↔
      InMem s s.srcAddr.toNat s.srcLen.toNat ∧
      t = State.done
        { s with
          crcAcc := crc32 (if init then s.crcSeed else s.crcAcc)
            (s.mem.readBytes s.srcAddr.toNat s.srcLen.toNat) } 0
        (crc32 (if init then s.crcSeed else s.crcAcc)
          (s.mem.readBytes s.srcAddr.toNat s.srcLen.toNat)) := by
  simp only [crcRun, check_bind_eq_ok, Except.ok.injEq, eq_comm (a := t)]

theorem crcRun_eq_error {init : Bool} {s : State} {r : Raise} :
    crcRun init s = .error r ↔
      ¬ InMem s s.srcAddr.toNat s.srcLen.toNat ∧ r = .invalidArgument := by
  simp only [crcRun, check_bind_eq_error, reduceCtorEq, and_false, or_false, eq_comm (a := r)]

theorem crcCheck_eq_ok {s t : State} :
    crcCheck s = .ok t ↔
      InMem s s.srcAddr.toNat s.srcLen.toNat ∧ 4 ≤ s.srcLen.toNat ∧
      (crc32 psiSeed (s.mem.readBytes s.srcAddr.toNat (s.srcLen.toNat - 4))).toNat =
        rdBE (s.mem.readBytes (s.srcAddr.toNat + s.srcLen.toNat - 4) 4) ∧
      t = s.done 0 (crc32 psiSeed (s.mem.readBytes s.srcAddr.toNat (s.srcLen.toNat - 4))) := by
  simp only [crcCheck, check_bind_eq_ok, Except.ok.injEq, eq_comm (a := t)]

theorem crcCheck_error {s : State} {r : Raise} (h : crcCheck s = .error r) :
    r = .invalidArgument ∨ r = .invalidData := by
  simp only [crcCheck, check_bind_eq_error, reduceCtorEq, and_false, or_false] at h
  tauto

theorem crcSeal_eq_ok {s t : State} :
    crcSeal s = .ok t ↔
      InMem s s.srcAddr.toNat (s.srcLen.toNat + 4) ∧
      t = State.done
        { s with
          mem := s.mem.writeBytes (s.srcAddr.toNat + s.srcLen.toNat)
            (be32 (crc32 psiSeed (s.mem.readBytes s.srcAddr.toNat s.srcLen.toNat))) } 0
        (crc32 psiSeed (s.mem.readBytes s.srcAddr.toNat s.srcLen.toNat)) := by
  simp only [crcSeal, check_bind_eq_ok, Except.ok.injEq, eq_comm (a := t)]

theorem crcSeal_eq_error {s : State} {r : Raise} :
    crcSeal s = .error r ↔
      ¬ InMem s s.srcAddr.toNat (s.srcLen.toNat + 4) ∧ r = .invalidArgument := by
  simp only [crcSeal, check_bind_eq_error, reduceCtorEq, and_false, or_false, eq_comm (a := r)]

/-! ### Cursor unit -/

theorem curInit_eq_ok {s t : State} :
    curInit s = .ok t ↔
      InMem s s.curRegs.base0.toNat s.curRegs.len0.toNat ∧
      InMem s s.curRegs.base1.toNat s.curRegs.len1.toNat ∧
      s.curRegs.len0.toNat + s.curRegs.len1.toNat < 2 ^ 29 ∧
      t = State.done
        { s with
          cur := { base0 := s.curRegs.base0, len0 := s.curRegs.len0, base1 := s.curRegs.base1,
                   len1 := s.curRegs.len1, pos := 0, err := false } }
        0 (s.curRegs.len0 + s.curRegs.len1) := by
  simp only [curInit, check_bind_eq_ok, Except.ok.injEq, eq_comm (a := t)]

theorem curInit_error {s : State} {r : Raise} (h : curInit s = .error r) : r = .invalidArgument := by
  simp only [curInit, check_bind_eq_error, reduceCtorEq, and_false, or_false] at h
  tauto

theorem curRead_eq_ok {n : BitVec 7} {s t : State} :
    curRead n s = .ok t ↔
      (s.cur.err = false ∧ s.cur.pos.toNat + n.toNat ≤ 8 * s.cur.total) ∧
      t = (s.setPos (s.cur.pos.toNat + n.toNat)).done
        ((BitVec.ofNat 64 (s.curBits s.cur.pos.toNat n.toNat)).extractLsb' 32 32)
        ((BitVec.ofNat 64 (s.curBits s.cur.pos.toNat n.toNat)).extractLsb' 0 32) := by
  simp only [curRead, check_bind_eq_ok, Except.ok.injEq, eq_comm (a := t)]

theorem curRead_eq_error {n : BitVec 7} {s : State} {r : Raise} :
    curRead n s = .error r ↔
      ¬ (s.cur.err = false ∧ s.cur.pos.toNat + n.toNat ≤ 8 * s.cur.total) ∧ r = .readPastEnd := by
  simp only [curRead, check_bind_eq_error, reduceCtorEq, and_false, or_false, eq_comm (a := r)]

theorem curSkip_eq_ok {k : BitVec 24} {s t : State} :
    curSkip k s = .ok t ↔
      (s.cur.err = false ∧ s.cur.pos.toNat + 8 * k.toNat ≤ 8 * s.cur.total) ∧
      t = (s.setPos (s.cur.pos.toNat + 8 * k.toNat)).done 0
        (BitVec.ofNat 32 (s.cur.pos.toNat + 8 * k.toNat)) := by
  simp only [curSkip, check_bind_eq_ok, Except.ok.injEq, eq_comm (a := t)]
  rfl

theorem curSkip_eq_error {k : BitVec 24} {s : State} {r : Raise} :
    curSkip k s = .error r ↔
      ¬ (s.cur.err = false ∧ s.cur.pos.toNat + 8 * k.toNat ≤ 8 * s.cur.total) ∧ r = .pastEnd := by
  simp only [curSkip, check_bind_eq_error, reduceCtorEq, and_false, or_false, eq_comm (a := r)]

theorem curSeek_eq_ok {k : BitVec 24} {s t : State} :
    curSeek k s = .ok t ↔
      (s.cur.err = false ∧ k.toNat ≤ s.cur.total) ∧
      t = (s.setPos (8 * k.toNat)).done 0 (BitVec.ofNat 32 (8 * k.toNat)) := by
  simp only [curSeek, check_bind_eq_ok, Except.ok.injEq, eq_comm (a := t)]
  rfl

theorem curSeek_eq_error {k : BitVec 24} {s : State} {r : Raise} :
    curSeek k s = .error r ↔
      ¬ (s.cur.err = false ∧ k.toNat ≤ s.cur.total) ∧ r = .pastEnd := by
  simp only [curSeek, check_bind_eq_error, reduceCtorEq, and_false, or_false, eq_comm (a := r)]

/-! ### Timestamp fields and PES headers -/

theorem tsEnc_eq_ok {sel : Stamp} {p : BitVec 4} {s t : State} :
    tsEnc sel p s = .ok t ↔
      WindowInMem s ∧ s.stamp sel ≠ noValue ∧ 5 ≤ s.dstCap.toNat ∧
      t = (s.writeWindow (tsField p (wireStamp (s.stamp sel)))).done 0 5 := by
  simp only [tsEnc, check_bind_eq_ok, Except.ok.injEq, eq_comm (a := t)]

theorem tsEnc_error {sel : Stamp} {p : BitVec 4} {s : State} {r : Raise}
    (h : tsEnc sel p s = .error r) : r = .invalidArgument ∨ r = .outOfMemory := by
  simp only [tsEnc, check_bind_eq_error, reduceCtorEq, and_false, or_false] at h
  tauto

theorem prologue_error {s : State} {r : Raise} (h : prologue s = .error r) :
    r = .invalidArgument ∨ r = .invalidData := by
  rcases prologue_eq_error.1 h with h | h
  · exact .inl h.2
  · exact .inr h.2.2

theorem tsDec_eq_ok {s t : State} :
    tsDec s = .ok t ↔ ∃ o b, prologue s = .ok o ∧ take s o 5 = .ok b ∧
      t = ((s.epilogue (o + 5)).mark (!tsMarkersOk b)).done (tsDecHi b)
        ((tsValue b).extractLsb' 0 32) := by
  simp only [tsDec, bind_eq_ok, Except.ok.injEq, eq_comm (a := t)]
  constructor
  · rintro ⟨o, h, b, h', e⟩; exact ⟨o, b, h, h', e⟩
  · rintro ⟨o, b, h, h', e⟩; exact ⟨o, h, b, h', e⟩

theorem tsDec_error {s : State} {r : Raise} (h : tsDec s = .error r) :
    r = .invalidArgument ∨ r = .invalidData ∨ (r = .pastEnd ∧ s.cur.err = false) := by
  simp only [tsDec, bind_eq_error, reduceCtorEq, and_false, exists_false, or_false] at h
  rcases h with h | ⟨o, ho, h⟩
  · rcases prologue_error h with h | h <;> simp [h]
  · exact .inr (.inr ⟨(take_eq_error.1 h).2, (prologue_eq_ok.1 ho).2.1⟩)

theorem pesPacketLen_error {unb : Bool} {p : Pes} {r : Raise} (h : pesPacketLen unb p = .error r) :
    r = .invalidArgument := by
  unfold pesPacketLen at h
  split at h
  · simp only [check_bind_eq_error, reduceCtorEq, and_false, or_false] at h
    exact h.2.symm
  · simp only at h
    split at h
    · simp only [check_bind_eq_error, reduceCtorEq, and_false, or_false] at h
      exact h.2.symm
    · cases h

/-- The state after a successful `PES_WRITE` with packet length `len`. -/
def pesWritten (s : State) (len : Nat) : State :=
  State.done
    { s with
      mem := s.mem.writeBytes s.dstAddr.toNat (pesHeader s.pes len)
      pes := { s.pes with
        pktLen := BitVec.ofNat 16 len
        opt := 0#8 ++ pesFlagsByte s.pes
        hdrLen := BitVec.ofNat 8 (pesOptLen s.pes) } }
    0 (BitVec.ofNat 32 (9 + pesOptLen s.pes))

theorem pesWrite_eq_ok {unb : Bool} {s t : State} :
    pesWrite unb s = .ok t ↔
      hdrBearing s.pes.sid = true ∧ WindowInMem s ∧ (s.pes.dts ≠ noValue → s.pes.pts ≠ noValue) ∧
      ∃ len, pesPacketLen unb s.pes = .ok len ∧ 9 + pesOptLen s.pes ≤ s.dstCap.toNat ∧
        t = pesWritten s len := by
  simp only [pesWrite, bind_eq_ok, check_eq_ok, exists_const, Except.ok.injEq, eq_comm (a := t)]
  rfl

theorem pesWrite_error {unb : Bool} {s : State} {r : Raise} (h : pesWrite unb s = .error r) :
    r = .invalidArgument ∨ r = .outOfMemory := by
  simp only [pesWrite, bind_eq_error, check_eq_error, check_eq_ok, exists_const, reduceCtorEq,
    and_false, or_false] at h
  rcases h with h | ⟨-, h | ⟨-, h | ⟨-, h | ⟨_, -, h⟩⟩⟩⟩
  · exact .inl h.2.symm
  · exact .inl h.2.symm
  · exact .inl h.2.symm
  · exact .inl (pesPacketLen_error h)
  · exact .inr h.2.symm

@[simp] theorem pesStamps_length (p : Pes) : (pesStamps p).length = pesOptLen p := by
  unfold pesStamps pesOptLen
  cases emitsPts p <;> cases emitsDts p <;> rfl

@[simp] theorem pesHeader_length (p : Pes) (len : Nat) : (pesHeader p len).length = 9 + pesOptLen p := by
  simp only [pesHeader, pesFixed, List.length_append, List.length_cons, List.length_nil, be16_length,
    pesStamps_length]


/-! `PES_READ`: each step of the body keeps what the packet's commit relies on. -/

/-- A body step ends inside the stream, and leaves PES_PAYLOAD_LEN's copy alone. -/
structure PesStep (s : State) (p q : PesScan) : Prop where
  from_le : p.o ≤ q.o
  room : q.o ≤ s.cur.total
  payloadLen : q.r.payloadLen = p.r.payloadLen

theorem optStep_payloadLen {f : Byte} {hb : List Byte} {a b : OptScan}
    (h : optFields f hb a = .ok b) : b.r.payloadLen = a.r.payloadLen := by
  simp only [optFields, bind_eq_ok] at h
  obtain ⟨a1, h1, a2, h2, a3, h3, a4, h4, a5, h5, a6, h6, h7⟩ := h
  have e1 : a1.r.payloadLen = a.r.payloadLen := by
    unfold optStamps at h1
    split at h1
    · split at h1
      · simp only [bind_eq_ok, Except.ok.injEq] at h1
        obtain ⟨_, _, _, _, rfl⟩ := h1; rfl
      · simp only [bind_eq_ok, Except.ok.injEq] at h1
        obtain ⟨_, _, rfl⟩ := h1; rfl
    · cases h1; rfl
  have e2 : a2.r.payloadLen = a1.r.payloadLen := by
    unfold optEscr at h2
    split at h2
    · simp only [bind_eq_ok, Except.ok.injEq] at h2
      obtain ⟨_, _, rfl⟩ := h2; rfl
    · cases h2; rfl
  have e3 : a3.r.payloadLen = a2.r.payloadLen := by
    unfold optEsRate at h3
    split at h3
    · simp only [bind_eq_ok, Except.ok.injEq] at h3
      obtain ⟨_, _, rfl⟩ := h3; rfl
    · cases h3; rfl
  have e4 : a4.r.payloadLen = a3.r.payloadLen := by
    unfold optTrick at h4
    split at h4
    · simp only [bind_eq_ok, Except.ok.injEq] at h4
      obtain ⟨_, _, rfl⟩ := h4; rfl
    · cases h4; rfl
  have e5 : a5.r.payloadLen = a4.r.payloadLen := by
    unfold optAddCopy at h5
    split at h5
    · simp only [bind_eq_ok, Except.ok.injEq] at h5
      obtain ⟨_, _, rfl⟩ := h5; rfl
    · cases h5; rfl
  have e6 : a6.r.payloadLen = a5.r.payloadLen := by
    unfold optPrevCrc at h6
    split at h6
    · simp only [bind_eq_ok, Except.ok.injEq] at h6
      obtain ⟨_, _, rfl⟩ := h6; rfl
    · cases h6; rfl
  have e7 : b.r.payloadLen = a6.r.payloadLen := by
    unfold optExtension at h7
    split at h7
    · simp only [bind_eq_ok] at h7
      obtain ⟨_, -, c1, k1, c2, k2, c3, k3, c4, k4, k5⟩ := h7
      have f1 : c1.r = { a6.r with opt := c1.r.opt } := by
        unfold extPrivate at k1
        split at k1
        · simp only [bind_eq_ok, Except.ok.injEq] at k1
          obtain ⟨_, _, rfl⟩ := k1; rfl
        · cases k1; rfl
      have f2 : c2.r = c1.r := by
        unfold extPack at k2
        split at k2
        · simp only [bind_eq_ok, Except.ok.injEq] at k2
          obtain ⟨_, _, _, _, rfl⟩ := k2; rfl
        · cases k2; rfl
      have f3 : c3.r = c2.r := by
        unfold extCounter at k3
        split at k3
        · simp only [bind_eq_ok, Except.ok.injEq] at k3
          obtain ⟨_, _, rfl⟩ := k3; rfl
        · cases k3; rfl
      have f4 : c4.r.payloadLen = c3.r.payloadLen := by
        unfold extStdBuf at k4
        split at k4
        · simp only [bind_eq_ok, Except.ok.injEq] at k4
          obtain ⟨_, _, rfl⟩ := k4; rfl
        · cases k4; rfl
      have f5 : b.r = c4.r := by
        unfold extField at k5
        split at k5
        · simp only [bind_eq_ok, Except.ok.injEq] at k5
          obtain ⟨_, _, _, _, rfl⟩ := k5; rfl
        · cases k5; rfl
      rw [f5, f4, f3, f2, f1]
    · cases h7; rfl
  rw [e7, e6, e5, e4, e3, e2, e1]

theorem mpeg2Body_step {s : State} {p q : PesScan} (h : mpeg2Body s p = .ok q) :
    PesStep s p q ∧ q.mpeg1 = p.mpeg1 := by
  simp only [mpeg2Body, bind_eq_ok, check_eq_ok, exists_const, Except.ok.injEq] at h
  obtain ⟨b, -, -, -, hb, hh, a, ha, rfl⟩ := h
  have := optStep_payloadLen ha
  have := (take_eq_ok.1 hh).1
  exact ⟨⟨by simp only; omega, by simp only; omega, by simpa using optStep_payloadLen ha⟩, rfl⟩

theorem skipStuffing_ok {s : State} {fuel o n o' n' : Nat}
    (h : skipStuffing s fuel o n = .ok (o', n')) : o ≤ o' ∧ o' + 1 ≤ s.cur.total := by
  induction fuel generalizing o n with
  | zero => cases h
  | succ fuel ih =>
    simp only [skipStuffing, bind_eq_ok] at h
    obtain ⟨b, hb, h⟩ := h
    split at h
    · have := ih h; omega
    · simp only [Except.ok.injEq, Prod.mk.injEq] at h
      have := (peek_eq_ok.1 hb).1
      omega

theorem mpeg1StdBuf_step {s : State} {p q : PesScan} (h : mpeg1StdBuf s p = .ok q) :
    PesStep s p q ∧ q.mpeg1 = p.mpeg1 := by
  simp only [mpeg1StdBuf, bind_eq_ok] at h
  obtain ⟨b, hb, h⟩ := h
  have hp := (peek_eq_ok.1 hb).1
  split at h
  · simp only [bind_eq_ok, Except.ok.injEq] at h
    obtain ⟨t, ht, rfl⟩ := h
    have := (take_eq_ok.1 ht).1
    exact ⟨⟨by simp only; omega, by simp only; omega, rfl⟩, rfl⟩
  · cases h
    exact ⟨⟨Nat.le_refl _, by omega, rfl⟩, rfl⟩

theorem mpeg1Stamps_step {s : State} {p q : PesScan} (h : mpeg1Stamps s p = .ok q) :
    PesStep s p q ∧ q.mpeg1 = p.mpeg1 := by
  simp only [mpeg1Stamps, bind_eq_ok] at h
  obtain ⟨b, hb, h⟩ := h
  split at h
  · simp only [bind_eq_ok, Except.ok.injEq] at h
    obtain ⟨t, ht, rfl⟩ := h
    have := (take_eq_ok.1 ht).1
    exact ⟨⟨by simp only; omega, by simp only; omega, rfl⟩, rfl⟩
  · split at h
    · simp only [bind_eq_ok, Except.ok.injEq] at h
      obtain ⟨t, ht, u, hu, rfl⟩ := h
      have := (take_eq_ok.1 hu).1
      exact ⟨⟨by simp only; omega, by simp only; omega, rfl⟩, rfl⟩
    · split at h
      · simp only [bind_eq_ok, Except.ok.injEq] at h
        obtain ⟨t, ht, rfl⟩ := h
        have := (take_eq_ok.1 ht).1
        exact ⟨⟨by simp only; omega, by simp only; omega, rfl⟩, rfl⟩
      · cases h

theorem mpeg1Body_step {s : State} {p q : PesScan} (h : mpeg1Body s p = .ok q) : PesStep s p q := by
  simp only [mpeg1Body, bind_eq_ok, Prod.exists] at h
  obtain ⟨o, n, hs, q1, h1, h2⟩ := h
  have a := skipStuffing_ok hs
  have b := (mpeg1StdBuf_step h1).1
  have c := (mpeg1Stamps_step h2).1
  have d := b.from_le
  simp only at d
  exact ⟨by have := c.from_le; omega, c.room, by rw [c.payloadLen, b.payloadLen]⟩

theorem pesBody_step {l : Layout} {s : State} {p q : PesScan} (hp : p.o ≤ s.cur.total)
    (h : pesBody l s p = .ok q) : PesStep s p q := by
  unfold pesBody at h
  split at h
  · cases h; exact ⟨Nat.le_refl _, hp, rfl⟩
  · split at h
    · exact (mpeg2Body_step h).1
    · exact mpeg1Body_step h
    · simp only [bind_eq_ok] at h
      obtain ⟨b, -, h⟩ := h
      split at h
      · exact (mpeg2Body_step h).1
      · exact mpeg1Body_step h

/-- Everything a successful `PES_READ` does (42_pes.md R200, R205): a record is committed, the cursor advances
past a header of at least 6 bytes that lies in the stream. -/
theorem pesRead_ok {l : Layout} {s t : State} (h : pesRead l s = .ok t) :
    ∃ (o : Nat) (p : PesScan) (hi : Word),
      prologue s = .ok o ∧ o + 6 ≤ p.o ∧ p.o ≤ s.cur.total ∧ p.r.payloadLen = s.pes.payloadLen ∧
      t = ((commitPes s p).epilogue p.o).done hi (BitVec.ofNat 32 (p.o - o)) := by
  simp only [pesRead, bind_eq_ok, check_eq_ok, exists_const, Except.ok.injEq] at h
  obtain ⟨o, ho, b, hb, -, -, p, hp, -, rfl⟩ := h
  have ht := (take_eq_ok.1 hb).1
  have st := pesBody_step (by simpa using ht) hp
  exact ⟨o, p, _, ho, by simpa using st.from_le, st.room, by simpa using st.payloadLen, rfl⟩

/-- The failures of a decoder after its prologue: InvalidData, or the end of the stream. -/
def DataError (r : Raise) : Prop := r = .invalidData ∨ r = .pastEnd

theorem take_dataError {s : State} {o n : Nat} {r : Raise} (h : take s o n = .error r) :
    DataError r := .inr (take_eq_error.1 h).2

theorem peek_dataError {s : State} {o : Nat} {r : Raise} (h : peek s o = .error r) :
    DataError r := .inr (peek_eq_error.1 h).2

theorem getField_dataError {hb : List Byte} {k n : Nat} {r : Raise}
    (h : getField hb k n = .error r) : DataError r := .inl (getField_eq_error.1 h).2

theorem check_dataError {c : Prop} [Decidable c] {r : Raise}
    (h : check c .invalidData = .error r) : DataError r := .inl (check_eq_error.1 h).2.symm

theorem bind_dataError {α β : Type} {x : Except Raise α} {f : α → Except Raise β} {r : Raise}
    (h : (x >>= f) = .error r) (hx : x = .error r → DataError r)
    (hf : ∀ a, f a = .error r → DataError r) : DataError r := by
  rcases bind_eq_error.1 h with h | ⟨a, -, h⟩
  · exact hx h
  · exact hf a h

theorem optFields_dataError {f : Byte} {hb : List Byte} {a : OptScan} {r : Raise}
    (h : optFields f hb a = .error r) : DataError r := by
  unfold optFields at h
  refine bind_dataError h (fun h => ?_) fun a h => bind_dataError h (fun h => ?_) fun a h =>
    bind_dataError h (fun h => ?_) fun a h => bind_dataError h (fun h => ?_) fun a h =>
    bind_dataError h (fun h => ?_) fun a h => bind_dataError h (fun h => ?_) fun a h => ?_
  · unfold optStamps at h
    split at h
    · split at h
      · exact bind_dataError h getField_dataError fun _ h =>
          bind_dataError h getField_dataError fun _ h => by cases h
      · exact bind_dataError h getField_dataError fun _ h => by cases h
    · cases h
  · unfold optEscr at h
    split at h
    · exact bind_dataError h getField_dataError fun _ h => by cases h
    · cases h
  · unfold optEsRate at h
    split at h
    · exact bind_dataError h getField_dataError fun _ h => by cases h
    · cases h
  · unfold optTrick at h
    split at h
    · exact bind_dataError h getField_dataError fun _ h => by cases h
    · cases h
  · unfold optAddCopy at h
    split at h
    · exact bind_dataError h getField_dataError fun _ h => by cases h
    · cases h
  · unfold optPrevCrc at h
    split at h
    · exact bind_dataError h getField_dataError fun _ h => by cases h
    · cases h
  · unfold optExtension at h
    split at h
    · refine bind_dataError h getField_dataError fun _ h => bind_dataError h (fun h => ?_) fun _ h =>
        bind_dataError h (fun h => ?_) fun _ h => bind_dataError h (fun h => ?_) fun _ h =>
        bind_dataError h (fun h => ?_) fun _ h => ?_
      · unfold extPrivate at h
        split at h
        · exact bind_dataError h getField_dataError fun _ h => by cases h
        · cases h
      · unfold extPack at h
        split at h
        · exact bind_dataError h getField_dataError fun _ h =>
            bind_dataError h getField_dataError fun _ h => by cases h
        · cases h
      · unfold extCounter at h
        split at h
        · exact bind_dataError h getField_dataError fun _ h => by cases h
        · cases h
      · unfold extStdBuf at h
        split at h
        · exact bind_dataError h getField_dataError fun _ h => by cases h
        · cases h
      · unfold extField at h
        split at h
        · exact bind_dataError h getField_dataError fun _ h =>
            bind_dataError h getField_dataError fun _ h => by cases h
        · cases h
    · cases h

theorem mpeg2Body_dataError {s : State} {p : PesScan} {r : Raise} (h : mpeg2Body s p = .error r) :
    DataError r := by
  unfold mpeg2Body at h
  exact bind_dataError h take_dataError fun _ h => bind_dataError h check_dataError fun _ h =>
    bind_dataError h check_dataError fun _ h => bind_dataError h take_dataError fun _ h =>
    bind_dataError h optFields_dataError fun _ h => by cases h

theorem skipStuffing_dataError {s : State} {fuel o n : Nat} {r : Raise}
    (h : skipStuffing s fuel o n = .error r) : DataError r := by
  induction fuel generalizing o n with
  | zero => cases h; exact .inr rfl
  | succ fuel ih =>
    refine bind_dataError h peek_dataError fun _ h => ?_
    split at h
    · exact ih h
    · cases h

theorem mpeg1Body_dataError {s : State} {p : PesScan} {r : Raise} (h : mpeg1Body s p = .error r) :
    DataError r := by
  refine bind_dataError h skipStuffing_dataError fun _ h => bind_dataError h (fun h => ?_) fun _ h => ?_
  · refine bind_dataError h peek_dataError fun _ h => ?_
    split at h
    · exact bind_dataError h take_dataError fun _ h => by cases h
    · cases h
  · refine bind_dataError h peek_dataError fun _ h => ?_
    split at h
    · exact bind_dataError h take_dataError fun _ h => by cases h
    · split at h
      · exact bind_dataError h take_dataError fun _ h => bind_dataError h take_dataError fun _ h => by
          cases h
      · split at h
        · exact bind_dataError h take_dataError fun _ h => by cases h
        · cases h; exact .inl rfl

theorem pesBody_dataError {l : Layout} {s : State} {p : PesScan} {r : Raise}
    (h : pesBody l s p = .error r) : DataError r := by
  unfold pesBody at h
  split at h
  · cases h
  · split at h
    · exact mpeg2Body_dataError h
    · exact mpeg1Body_dataError h
    · refine bind_dataError h peek_dataError fun _ h => ?_
      split at h
      · exact mpeg2Body_dataError h
      · exact mpeg1Body_dataError h

theorem pesRead_error {l : Layout} {s : State} {r : Raise} (h : pesRead l s = .error r) :
    r = .invalidArgument ∨ r = .invalidData ∨ (r = .pastEnd ∧ s.cur.err = false) := by
  unfold pesRead at h
  rcases bind_eq_error.1 h with h | ⟨o, ho, h⟩
  · rcases prologue_error h with h | h <;> simp [h]
  · have : DataError r := bind_dataError h take_dataError fun _ h =>
      bind_dataError h check_dataError fun _ h => bind_dataError h check_dataError fun _ h =>
      bind_dataError h pesBody_dataError fun _ h => bind_dataError h check_dataError fun _ h => by
        cases h
    exact .inr (this.imp_right fun h => ⟨h, (prologue_eq_ok.1 ho).2.1⟩)

/-! ### Staging tables -/

theorem tblAdd_eq_ok {tb : Table} {s t : State} :
    tblAdd tb s = .ok t ↔
      (s.count tb).toNat ≠ s.cap tb ∧
      t = (s.addEntry tb).done 0 (((s.addEntry tb).count tb).setWidth 32) := by
  simp only [tblAdd, check_bind_eq_ok, Except.ok.injEq, eq_comm (a := t)]

theorem tblAdd_eq_error {tb : Table} {s : State} {r : Raise} :
    tblAdd tb s = .error r ↔ (s.count tb).toNat = s.cap tb ∧ r = .invalidArgument := by
  simp only [tblAdd, check_bind_eq_error, reduceCtorEq, and_false, or_false, Decidable.not_not,
    eq_comm (a := r)]

theorem tblGet_eq_ok {tb : Table} {k : BitVec 16} {s t : State} :
    tblGet tb k s = .ok t ↔ ∃ e, s.entryAt tb k.toNat = some e ∧
      t = State.done { s with ent := e } 0 ((s.count tb).setWidth 32) := by
  unfold tblGet
  cases s.entryAt tb k.toNat <;> simp [eq_comm]

theorem tblGet_eq_error {tb : Table} {k : BitVec 16} {s : State} {r : Raise} :
    tblGet tb k s = .error r ↔ s.entryAt tb k.toNat = none ∧ r = .invalidArgument := by
  unfold tblGet
  cases s.entryAt tb k.toNat <;> simp [eq_comm]

/-! ### Section writers -/

theorem patWrite_eq_ok {s t : State} :
    patWrite s = .ok t ↔
      WindowInMem s ∧ patLength (s.count .pat).toNat ≤ 1021 ∧
      3 + patLength (s.count .pat).toNat ≤ s.dstCap.toNat ∧
      t = emitSection s (patSection s.pat.tsid s.pat.ver s.patList) := by
  simp only [patWrite, check_bind_eq_ok, Except.ok.injEq, eq_comm (a := t)]

theorem patWrite_error {s : State} {r : Raise} (h : patWrite s = .error r) :
    r = .invalidArgument ∨ r = .outOfMemory := by
  simp only [patWrite, check_bind_eq_error, reduceCtorEq, and_false, or_false] at h
  tauto

theorem pmtWrite_eq_ok {s t : State} :
    pmtWrite s = .ok t ↔
      WindowInMem s ∧ RangeOk s s.pmt.pinfoAddr s.pmt.pinfoLen ∧
      (∀ e ∈ s.pmtList, RangeOk s e.esAddr e.esLen) ∧
      pmtLength s.pmt.pinfoLen.toNat (s.pmtList.map (·.esLen.toNat)) ≤ 1021 ∧
      3 + pmtLength s.pmt.pinfoLen.toNat (s.pmtList.map (·.esLen.toNat)) ≤ s.dstCap.toNat ∧
      t = emitSection s
        (pmtSection s.pmt.prog s.pmt.ver s.pmt.pcrPid
          (s.mem.readBytes s.pmt.pinfoAddr.toNat s.pmt.pinfoLen.toNat) (s.pmtList.map s.pmtData)) := by
  simp only [pmtWrite, check_bind_eq_ok, Except.ok.injEq, eq_comm (a := t)]

theorem pmtWrite_error {s : State} {r : Raise} (h : pmtWrite s = .error r) :
    r = .invalidArgument ∨ r = .outOfMemory := by
  simp only [pmtWrite, check_bind_eq_error, reduceCtorEq, and_false, or_false] at h
  tauto

theorem psmWrite_eq_ok {s t : State} :
    psmWrite s = .ok t ↔
      WindowInMem s ∧ RangeOk s s.psm.pinfoAddr s.psm.pinfoLen ∧
      (∀ e ∈ s.psmList, RangeOk s e.esAddr e.esLen) ∧
      psmLength s.psm.pinfoLen.toNat (s.psmList.map (·.esLen.toNat)) ≤ 1018 ∧
      6 + psmLength s.psm.pinfoLen.toNat (s.psmList.map (·.esLen.toNat)) ≤ s.dstCap.toNat ∧
      t = emitSection s
        (psmSection s.psm.ver s.psm.sext
          (s.mem.readBytes s.psm.pinfoAddr.toNat s.psm.pinfoLen.toNat) (s.psmList.map s.psmData)) := by
  simp only [psmWrite, check_bind_eq_ok, Except.ok.injEq, eq_comm (a := t)]

theorem psmWrite_error {s : State} {r : Raise} (h : psmWrite s = .error r) :
    r = .invalidArgument ∨ r = .outOfMemory := by
  simp only [psmWrite, check_bind_eq_error, reduceCtorEq, and_false, or_false] at h
  tauto

/-! Lengths of the sections. -/

theorem patSection_length (tsid : BitVec 16) (ver : BitVec 5) (es : List PatEntry) :
    (patSection tsid ver es).length = 8 + 4 * es.length := by
  simp only [patSection, List.length_append, List.length_cons, List.length_nil, be12_length,
    be16_length, List.length_flatMap, be13_length]
  simp [Nat.mul_comm]

theorem pmtSection_length (prog : BitVec 16) (ver : BitVec 5) (pcr : BitVec 13) (info : List Byte)
    (es : List (EsData 13)) :
    (pmtSection prog ver pcr info es).length + 1 =
      pmtLength info.length (es.map (·.info.length)) := by
  simp only [pmtSection, pmtLength, List.length_append, List.length_cons, List.length_nil, be12_length,
    be16_length, List.length_flatMap, be13_length, List.map_map]
  rw [show ((fun x => 5 + x) ∘ fun e : EsData 13 => e.info.length) =
    fun e : EsData 13 => 0 + 1 + 2 + 2 + e.info.length from rfl]
  omega

theorem psmSection_length (ver : BitVec 5) (sext : Bool) (info : List Byte) (es : List (EsData 8)) :
    (psmSection ver sext info es).length = 2 + psmLength info.length (es.map (·.info.length)) := by
  simp only [psmSection, psmLength, psmMapLength, List.length_append, List.length_cons, List.length_nil,
    be16_length, List.length_flatMap, List.map_map]
  rw [show ((fun x => 4 + x) ∘ fun e : EsData 8 => e.info.length) =
    fun e : EsData 8 => 0 + 1 + 1 + 2 + e.info.length from rfl]
  omega

@[simp] theorem sealed_length (b : List Byte) : (sealed b).length = b.length + 4 := by
  simp [sealed]

end Sys2Proof.Machine
end

