-- ==== Sys2Proof/Laws/Crc.lean ====
section
/-! SUPPORT. The CRC step (40_crc.md R140): it is injective, since the polynomial's constant term is 1, and it takes
out its own top byte. -/

namespace Sys2Proof.Machine

/-! ### One shift -/

theorem crcShift_of_clear {c : Word} (h : c.getLsbD 31 = false) : crcShift c = c <<< 1 := by
  rw [crcShift, h]; rfl

/-- Bit 0 of a shifted value tells the bit that was shifted out. -/
theorem crcShift_bit0 (c : Word) : (crcShift c).getLsbD 0 = c.getLsbD 31 := by
  unfold crcShift
  split
  · next h => rw [h]; simp [crcPoly]
  · next h => simp at h; simp [h]

theorem crcShift_injective {a b : Word} (h : crcShift a = crcShift b) : a = b := by
  have h31 : a.getLsbD 31 = b.getLsbD 31 := by rw [← crcShift_bit0, h, crcShift_bit0]
  have hs : a <<< 1 = b <<< 1 := by
    unfold crcShift at h
    rw [h31] at h
    split at h
    · exact (BitVec.xor_left_inj _).1 h
    · exact h
  apply BitVec.eq_of_getLsbD_eq
  intro i hi
  by_cases h' : i = 31
  · rw [h', h31]
  · have := congrArg (fun v : Word => v.getLsbD (i + 1)) hs
    simpa [show i + 1 < 32 by omega, BitVec.getLsbD_eq_getElem hi] using this

/-- The step is linear. -/
theorem crcShift_xor (a b : Word) : crcShift (a ^^^ b) = crcShift a ^^^ crcShift b := by
  have e : (a ^^^ b) <<< 1 = a <<< 1 ^^^ b <<< 1 := BitVec.shiftLeft_xor_distrib a b 1
  unfold crcShift
  rw [BitVec.getLsbD_xor, e]
  cases a.getLsbD 31 <;> cases b.getLsbD 31
  · rfl
  · exact BitVec.xor_assoc _ _ _
  · show (a <<< 1 ^^^ b <<< 1) ^^^ crcPoly = (a <<< 1 ^^^ crcPoly) ^^^ b <<< 1
    rw [BitVec.xor_assoc, BitVec.xor_comm (b <<< 1), ← BitVec.xor_assoc]
  · show a <<< 1 ^^^ b <<< 1 = (a <<< 1 ^^^ crcPoly) ^^^ (b <<< 1 ^^^ crcPoly)
    rw [BitVec.xor_assoc, BitVec.xor_comm (b <<< 1), ← BitVec.xor_assoc crcPoly, BitVec.xor_self,
      BitVec.zero_xor]

theorem crcShifts_xor (n : Nat) (a b : Word) :
    crcShifts n (a ^^^ b) = crcShifts n a ^^^ crcShifts n b := by
  induction n generalizing a b with
  | zero => rfl
  | succ n ih => rw [crcShifts, crcShift_xor, ih]; rfl

theorem crcShifts_injective {n : Nat} {a b : Word} (h : crcShifts n a = crcShifts n b) : a = b := by
  induction n generalizing a b with
  | zero => exact h
  | succ n ih => exact crcShift_injective (ih h)

theorem crcShifts_of_clear {n : Nat} {c : Word} (h : ∀ i, 32 - n ≤ i → c.getLsbD i = false)
    (hn : n ≤ 32) : crcShifts n c = c <<< n := by
  induction n generalizing c with
  | zero => simp [crcShifts]
  | succ n ih =>
    rw [crcShifts, crcShift_of_clear (h 31 (by omega)), ih (fun i hi => ?_) (by omega)]
    · rw [← BitVec.shiftLeft_add, Nat.add_comm]
    · simp only [BitVec.getLsbD_shiftLeft]
      by_cases hi1 : i < 1
      · simp [hi1]
      · rw [h (i - 1) (by omega)]; simp

/-! ### One byte -/

theorem byteTop_injective {x y : Byte} (h : x.setWidth 32 <<< 24 = (y.setWidth 32 <<< 24 : Word)) :
    x = y := by
  apply BitVec.eq_of_getLsbD_eq
  intro i hi
  have := congrArg (fun v : Word => v.getLsbD (i + 24)) h
  simpa [show i + 24 < 32 by omega, show i < 32 by omega] using this

/-- Equal bytes keep different states different. -/
theorem crcByte_injective_state {a b : Word} {x : Byte} (h : crcByte a x = crcByte b x) : a = b :=
  (BitVec.xor_left_inj _).1 (crcShifts_injective h)

/-- Different bytes make equal states different. -/
theorem crcByte_injective_byte {c : Word} {x y : Byte} (h : crcByte c x = crcByte c y) : x = y :=
  byteTop_injective ((BitVec.xor_right_inj _).1 (crcShifts_injective h))

/-- A state takes out its own top byte. -/
theorem crcByte_top (c : Word) : crcByte c (c.extractLsb' 24 8) = c <<< 8 := by
  rw [crcByte, crcShifts_of_clear (fun i hi => ?_) (by omega)]
  · apply BitVec.eq_of_getLsbD_eq
    intro i hi
    simp only [BitVec.getLsbD_shiftLeft, BitVec.getLsbD_xor, BitVec.getLsbD_setWidth,
      BitVec.getLsbD_extractLsb']
    by_cases h8 : i < 8
    · simp [h8]
    · simp [h8, show i - 8 < 24 by omega]
  · simp only [BitVec.getLsbD_xor, BitVec.getLsbD_shiftLeft, BitVec.getLsbD_setWidth,
      BitVec.getLsbD_extractLsb']
    by_cases h32 : i < 32
    · simp [h32, show ¬ i < 24 by omega, show i - 24 < 8 by omega, show i - 24 < 32 by omega,
        show 24 + (i - 24) = i by omega]
    · simp [h32, BitVec.getLsbD_of_ge c i (by omega)]

/-! ### Byte strings -/

theorem crc32_injective_state {a b : Word} {s : List Byte} (h : crc32 a s = crc32 b s) : a = b := by
  induction s generalizing a b with
  | nil => exact h
  | cons x s ih => exact crcByte_injective_state (ih h)

/-- One changed byte changes the CRC. -/
theorem crc32_set_ne {seed : Word} {s : List Byte} {j : Nat} {x : Byte} (hj : j < s.length)
    (hx : x ≠ s[j]) : crc32 seed (s.set j x) ≠ crc32 seed s := by
  induction s generalizing seed j with
  | nil => simp at hj
  | cons y s ih =>
    cases j with
    | zero =>
      intro h
      exact hx (crcByte_injective_byte (crc32_injective_state h))
    | succ j => exact ih (by simpa using hj) (by simpa using hx)

/-- A value leaves nothing over its own big-endian bytes. -/
theorem crc32_be32 (c : Word) : crc32 c (be32 c) = 0 := by
  have e (k : Nat) (hk : k ≤ 24) : c.extractLsb' (24 - k) 8 = (c <<< k).extractLsb' 24 8 := by
    apply BitVec.eq_of_getLsbD_eq
    intro i hi
    simp only [BitVec.getLsbD_extractLsb', BitVec.getLsbD_shiftLeft, hi, decide_true, Bool.true_and,
      show 24 + i < 32 by omega, show ¬ 24 + i < k by omega, decide_false, Bool.not_false]
    congr 1
    omega
  have e8 := e 8 (by omega)
  have e16 := e 16 (by omega)
  have e24 := e 24 (by omega)
  simp only [crc32, be32, List.foldl_cons, List.foldl_nil]
  rw [crcByte_top, show c.extractLsb' 16 8 = _ from e8, crcByte_top, ← BitVec.shiftLeft_add, show c.extractLsb' 8 8 = _ from e16,
    crcByte_top, ← BitVec.shiftLeft_add,
    show c.extractLsb' 0 8 = _ from e24, crcByte_top, ← BitVec.shiftLeft_add]
  apply BitVec.eq_of_getLsbD_eq
  intro i hi
  simp [hi]

end Sys2Proof.Machine
end

