-- ==== Sys2Proof/Laws/Readers.lean ====
section
/-! SUPPORT. What the section readers can do (43_psi.md R240): the bytes a decoder takes, the entry loops, and each
reader's answer on a good section. -/

namespace Sys2Proof.Machine

/-! ### The bytes a decoder takes -/

theorem Reads.prologue {s : State} {b : List Byte} (h : Reads s b) :
    prologue s = .ok (s.cur.pos.toNat / 8) :=
  prologue_eq_ok.2 ⟨h.aligned, h.noErr, rfl⟩

/-- A part of the bytes read, taken at its offset. -/
theorem Reads.take {s : State} {b : List Byte} (h : Reads s b) {i n : Nat} (hi : i + n ≤ b.length) :
    take s (s.cur.pos.toNat / 8 + i) n = .ok (slice b i n) := by
  rw [take_eq_ok]
  have := h.room
  refine ⟨by omega, ?_⟩
  have e := slice_curBytes (s := s) (o := s.cur.pos.toNat / 8) hi
  rw [h.bytes] at e
  exact e

theorem Reads.take_zero {s : State} {b : List Byte} (h : Reads s b) {n : Nat} (hi : n ≤ b.length) :
    Machine.take s (s.cur.pos.toNat / 8) n = .ok (b.take n) := by
  have := h.take (i := 0) (n := n) (by omega)
  simpa [slice] using this

/-- Two takes in a row are one byte string of the stream. -/
theorem curBytes_split (s : State) (o n k : Nat) :
    s.curBytes o n ++ s.curBytes (o + n) k = s.curBytes o (n + k) := (curBytes_append s o n k).symm

theorem reads_of {s : State} {o n : Nat} (ho : prologue s = .ok o) (hn : o + n ≤ s.cur.total) :
    Reads s (s.curBytes o n) := by
  obtain ⟨h1, h2, rfl⟩ := prologue_eq_ok.1 ho
  exact ⟨h1, h2, by simpa using hn, by simp⟩

theorem byteAt_append_left {a b : List Byte} {i : Nat} (h : i < a.length) :
    byteAt (a ++ b) i = byteAt a i := by
  simp [byteAt, List.getD_eq_getElem?_getD, List.getElem?_append_left h]

theorem byteAt_take {a : List Byte} {i n : Nat} (h : i < n) : byteAt (a.take n) i = byteAt a i := by
  simp [byteAt, List.getD_eq_getElem?_getD, h]

theorem field12_take {a : List Byte} {i n : Nat} (h : i + 1 < n) :
    field12 (a.take n) i = field12 a i := by
  simp only [field12, byteAt_take h, byteAt_take (show i < n by omega)]

theorem field16_take {a : List Byte} {i n : Nat} (h : i + 1 < n) :
    field16 (a.take n) i = field16 a i := by
  simp only [field16, byteAt_take h, byteAt_take (show i < n by omega)]

theorem take_append_slice {b : List Byte} {i n : Nat} (h : i + n = b.length) :
    b.take i ++ slice b i n = b := by
  have : (b.drop i).take n = b.drop i := List.take_of_length_le (by simp; omega)
  rw [slice, this, List.take_append_drop]

/-! ### The entry loops -/

theorem pmtItems_eq_ok {b : List Byte} {stop fuel k : Nat} {items : List (EsItem 13)}
    (hk : k ≤ stop) (hf : stop - k ≤ fuel) :
    pmtItems b stop fuel k = .ok items ↔ PmtStreams b stop k items := by
  induction fuel generalizing k items with
  | zero =>
    have : k = stop := by omega
    subst this
    cases items with
    | nil => simp [pmtItems, PmtStreams]
    | cons e l => simp only [pmtItems, PmtStreams]; exact ⟨fun h => (by cases h), fun h => (by omega)⟩
  | succ fuel ih =>
    unfold pmtItems
    split
    · next hlt =>
      simp only [bind_eq_ok, check_eq_ok, exists_const, Except.ok.injEq]
      constructor
      · rintro ⟨h1, h2, rest, hr, rfl⟩
        exact ⟨rfl, rfl, rfl, rfl, h2, (ih h2 (by omega)).1 hr⟩
      · intro h
        cases items with
        | nil => simp only [PmtStreams] at h; omega
        | cons e l =>
          obtain ⟨e1, e2, e3, e4, h2, hr⟩ := h
          rw [e4] at h2 hr
          refine ⟨by omega, h2, l, (ih h2 (by omega)).2 hr, ?_⟩
          cases e
          simp_all
    · next hge =>
      have : k = stop := by omega
      subst this
      cases items with
      | nil => simp [PmtStreams]
      | cons e l => simp only [PmtStreams]; exact ⟨fun h => (by cases h), fun h => (by omega)⟩

theorem psmItems_eq_ok {b : List Byte} {stop fuel k : Nat} {items : List (EsItem 8)}
    (hk : k ≤ stop) (hf : stop - k ≤ fuel) :
    psmItems b stop fuel k = .ok items ↔ PsmStreams b stop k items := by
  induction fuel generalizing k items with
  | zero =>
    have : k = stop := by omega
    subst this
    cases items with
    | nil => simp [psmItems, PsmStreams]
    | cons e l => simp only [psmItems, PsmStreams]; exact ⟨fun h => (by cases h), fun h => (by omega)⟩
  | succ fuel ih =>
    unfold psmItems
    split
    · next hlt =>
      simp only [bind_eq_ok, check_eq_ok, exists_const, Except.ok.injEq]
      constructor
      · rintro ⟨h1, h2, rest, hr, rfl⟩
        exact ⟨rfl, rfl, rfl, rfl, h2, (ih h2 (by omega)).1 hr⟩
      · intro h
        cases items with
        | nil => simp only [PsmStreams] at h; omega
        | cons e l =>
          obtain ⟨e1, e2, e3, e4, h2, hr⟩ := h
          rw [e4] at h2 hr
          refine ⟨by omega, h2, l, (ih h2 (by omega)).2 hr, ?_⟩
          cases e
          simp_all
    · next hge =>
      have : k = stop := by omega
      subst this
      cases items with
      | nil => simp [PsmStreams]
      | cons e l => simp only [PsmStreams]; exact ⟨fun h => (by cases h), fun h => (by omega)⟩

theorem pmtItems_error {b : List Byte} {stop fuel k : Nat} {r : Raise}
    (h : pmtItems b stop fuel k = .error r) : r = .invalidData := by
  induction fuel generalizing k with
  | zero => cases h
  | succ fuel ih =>
    unfold pmtItems at h
    split at h
    · simp only [bind_eq_error, check_eq_error, check_eq_ok, exists_const, reduceCtorEq, and_false,
        or_false] at h
      rcases h with h | ⟨-, h | ⟨-, h⟩⟩
      · exact h.2.symm
      · exact h.2.symm
      · exact ih h
    · cases h

theorem psmItems_error {b : List Byte} {stop fuel k : Nat} {r : Raise}
    (h : psmItems b stop fuel k = .error r) : r = .invalidData := by
  induction fuel generalizing k with
  | zero => cases h
  | succ fuel ih =>
    unfold psmItems at h
    split at h
    · simp only [bind_eq_error, check_eq_error, check_eq_ok, exists_const, reduceCtorEq, and_false,
        or_false] at h
      rcases h with h | ⟨-, h | ⟨-, h⟩⟩
      · exact h.2.symm
      · exact h.2.symm
      · exact ih h
    · cases h

/-- The items of a stream loop lie one after another, so their lengths add up to at most what lies before the
CRC. -/
theorem PmtStreams.sum_le {b : List Byte} {stop k : Nat} {items : List (EsItem 13)}
    (h : PmtStreams b stop k items) : k + esTotal items + 5 * items.length = stop := by
  induction items generalizing k with
  | nil => simpa [PmtStreams, esTotal] using h
  | cons e l ih =>
    obtain ⟨-, -, -, -, -, h⟩ := h
    have := ih h
    simp only [esTotal, List.map_cons, List.sum_cons, List.length_cons] at *
    omega

theorem PsmStreams.sum_le {b : List Byte} {stop k : Nat} {items : List (EsItem 8)}
    (h : PsmStreams b stop k items) : k + esTotal items + 4 * items.length = stop := by
  induction items generalizing k with
  | nil => simpa [PsmStreams, esTotal] using h
  | cons e l ih =>
    obtain ⟨-, -, -, -, -, h⟩ := h
    have := ih h
    simp only [esTotal, List.map_cons, List.sum_cons, List.length_cons] at *
    omega

/-- The bytes the arena takes are as many as the lengths say. -/
theorem PmtStreams.flat_length {b : List Byte} {stop k : Nat} {items : List (EsItem 13)}
    (h : PmtStreams b stop k items) (hs : stop ≤ b.length) :
    (items.flatMap fun e => slice b e.offset e.len).length = esTotal items := by
  induction items generalizing k with
  | nil => rfl
  | cons e l ih =>
    obtain ⟨-, -, e3, -, h2, h⟩ := h
    have := ih h
    simp only [esTotal, List.flatMap_cons, List.length_append, List.map_cons, List.sum_cons,
      slice, List.length_take, List.length_drop] at *
    omega

theorem PsmStreams.flat_length {b : List Byte} {stop k : Nat} {items : List (EsItem 8)}
    (h : PsmStreams b stop k items) (hs : stop ≤ b.length) :
    (items.flatMap fun e => slice b e.offset e.len).length = esTotal items := by
  induction items generalizing k with
  | nil => rfl
  | cons e l ih =>
    obtain ⟨-, -, e3, -, h2, h⟩ := h
    have := ih h
    simp only [esTotal, List.flatMap_cons, List.length_append, List.map_cons, List.sum_cons,
      slice, List.length_take, List.length_drop] at *
    omega

@[simp] theorem pmtArenaEntries_length (a : Nat) (items : List (EsItem 13)) :
    (pmtArenaEntries a items).length = items.length := by
  induction items generalizing a <;> simp [pmtArenaEntries, *]

@[simp] theorem psmArenaEntries_length (a : Nat) (items : List (EsItem 8)) :
    (psmArenaEntries a items).length = items.length := by
  induction items generalizing a <;> simp [psmArenaEntries, *]

theorem pmtArenaEntries_getElem? (a : Nat) (items : List (EsItem 13)) (i : Nat) :
    (pmtArenaEntries a items)[i]? = items[i]?.map fun x =>
      { streamType := x.streamType, pid := x.id
        esAddr := BitVec.ofNat 32 (a + esTotal (items.take i)), esLen := BitVec.ofNat 32 x.len } := by
  induction items generalizing a i with
  | nil => simp [pmtArenaEntries]
  | cons e l ih =>
    cases i with
    | zero => simp [pmtArenaEntries, esTotal]
    | succ i => simp [pmtArenaEntries, ih, esTotal, Nat.add_assoc]

theorem psmArenaEntries_getElem? (a : Nat) (items : List (EsItem 8)) (i : Nat) :
    (psmArenaEntries a items)[i]? = items[i]?.map fun x =>
      { streamType := x.streamType, streamId := x.id
        esAddr := BitVec.ofNat 32 (a + esTotal (items.take i)), esLen := BitVec.ofNat 32 x.len } := by
  induction items generalizing a i with
  | nil => simp [psmArenaEntries]
  | cons e l ih =>
    cases i with
    | zero => simp [psmArenaEntries, esTotal]
    | succ i => simp [psmArenaEntries, ih, esTotal, Nat.add_assoc]

theorem checkArenaWindow_of {s : State} (h : ArenaOk s) : checkArenaWindow s = .ok () :=
  checkArenaWindow_eq_ok.2 ⟨h.inMem, h.apart0, h.apart1⟩

theorem checkArenaWindow_error {s : State} {r : Raise} (h : checkArenaWindow s = .error r) :
    r = .invalidArgument := by
  simp only [checkArenaWindow, check_bind_eq_error, check_eq_error] at h
  rcases h with h | h
  · exact h.2.symm
  · exact h.2.2.symm

theorem checkArenaWindow_of_not {s : State} (h : ¬ ArenaOk s) :
    checkArenaWindow s = .error .invalidArgument := by
  cases hc : checkArenaWindow s with
  | ok u =>
    obtain ⟨a, b, c⟩ := checkArenaWindow_eq_ok.1 hc
    exact absurd ⟨a, b, c⟩ h
  | error r => rw [checkArenaWindow_error hc]

/-! ### PAT -/

/-- The ignore test of a PAT section (43_psi.md R242). -/
abbrev PatSame (s : State) (b : List Byte) : Prop :=
  (byteAt b 5).getLsbD 0 = false ∨
    (s.pat.valid = true ∧ (byteAt b 5).extractLsb' 1 5 = s.pat.ver ∧ field16 b 3 = s.pat.tsid)

/-- The state after a `PAT_READ` that ignores the section `b`. -/
def patIgnored (s : State) (b : List Byte) : State :=
  (s.epilogue (s.cur.pos.toNat / 8 + b.length)).doneIgnored
    (BitVec.ofNat 32 (((field12 b 1).toNat - 9) / 4)) (BitVec.ofNat 32 b.length)

/-- The state after a `PAT_READ` that rebuilds the table from `b`. -/
def patRebuilt (s : State) (b : List Byte) : State :=
  (State.epilogue
    { s with
      pat := { tsid := field16 b 3, ver := (byteAt b 5).extractLsb' 1 5, valid := true
               entries := (List.range (((field12 b 1).toNat - 9) / 4)).map (patEntryOf b) } }
    (s.cur.pos.toNat / 8 + b.length)).done
    (BitVec.ofNat 32 (((field12 b 1).toNat - 9) / 4)) (BitVec.ofNat 32 b.length)

/-- A `PAT_READ` past its CRC check. -/
theorem patRead_of {s : State} {b : List Byte} (h : Reads s b) (hb : PatOk b) :
    patRead s =
      if PatSame s b then .ok (patIgnored s b)
      else if ((field12 b 1).toNat - 9) / 4 ≤ s.params.patCap then .ok (patRebuilt s b)
      else .error .invalidArgument := by
  have hl := hb.length
  have h3 : 3 ≤ b.length := by omega
  have e : b.take 3 ++ slice b 3 (field12 b 1).toNat = b := take_append_slice (by omega)
  unfold patRead
  rw [h.prologue, ok_bind, h.take_zero h3, ok_bind]
  simp only [byteAt_take (show 0 < 3 by omega), byteAt_take (show 1 < 3 by omega),
    field12_take (show 1 + 1 < 3 by omega)]
  rw [check_of ⟨hb.tableId, hb.syntaxBit⟩, ok_bind, check_of ⟨hb.low, hb.high, hb.whole⟩, ok_bind,
    h.take (i := 3) (by omega), ok_bind, e, check_of hb.crc, ok_bind, ← hl]
  by_cases hs : PatSame s b
  · rw [if_pos hs, if_pos hs]; rfl
  · rw [if_neg hs, if_neg hs]
    split
    · next hc => rw [check_of hc, ok_bind]; rfl
    · next hc => rw [check_of_not hc, error_bind]

/-- A `PAT_READ` that succeeds read a good section. -/
theorem patRead_ok {s t : State} (h : patRead s = .ok t) : ∃ b, Reads s b ∧ PatOk b := by
  simp only [patRead, bind_eq_ok, check_eq_ok, exists_const] at h
  obtain ⟨o, ho, hd, hh, h0, h1, rest, hr, hc, -⟩ := h
  obtain ⟨r1, rfl⟩ := take_eq_ok.1 hh
  obtain ⟨r2, rfl⟩ := take_eq_ok.1 hr
  rw [curBytes_split] at hc
  have e1 : (s.curBytes o 3) = (s.curBytes o (3 + (field12 (s.curBytes o 3) 1).toNat)).take 3 := by
    rw [curBytes_append, List.take_append_of_le_length (by simp), List.take_of_length_le (by simp)]
  generalize hn : (field12 (s.curBytes o 3) 1).toNat = n at *
  rw [e1] at h0 hn
  simp only [byteAt_take (show 0 < 3 by omega), byteAt_take (show 1 < 3 by omega),
    field12_take (show 1 + 1 < 3 by omega)] at h0 hn
  refine ⟨s.curBytes o (3 + n), reads_of ho (by omega), h0.1, h0.2, ?_, ?_, ?_, ?_, hc⟩
  · simp [hn]
  · rw [hn]; exact h1.1
  · rw [hn]; exact h1.2.1
  · rw [hn]; exact h1.2.2

/-- Everything a successful `PAT_READ` does. -/
theorem patRead_cases {s t : State} (h : patRead s = .ok t) :
    ∃ b, Reads s b ∧ PatOk b ∧
      ((PatSame s b ∧ t = patIgnored s b) ∨
        (¬ PatSame s b ∧ ((field12 b 1).toNat - 9) / 4 ≤ s.params.patCap ∧ t = patRebuilt s b)) := by
  obtain ⟨b, hr, hb⟩ := patRead_ok h
  rw [patRead_of hr hb] at h
  refine ⟨b, hr, hb, ?_⟩
  split at h
  · next hs => exact .inl ⟨hs, (Except.ok.inj h).symm⟩
  · next hs =>
    split at h
    · next hc => exact .inr ⟨hs, hc, (Except.ok.inj h).symm⟩
    · cases h

theorem patRead_error {s : State} {r : Raise} (h : patRead s = .error r) :
    r = .invalidArgument ∨ r = .invalidData ∨ (r = .pastEnd ∧ s.cur.err = false) := by
  unfold patRead at h
  rcases bind_eq_error.1 h with h | ⟨o, ho, h⟩
  · rcases prologue_error h with h | h <;> simp [h]
  · have he := (prologue_eq_ok.1 ho).2.1
    simp only [bind_eq_error, check_eq_error, check_eq_ok, exists_const] at h
    rcases h with h | ⟨_, -, h | ⟨-, h | ⟨-, h | ⟨_, -, h | ⟨-, h⟩⟩⟩⟩⟩
    · exact .inr (.inr ⟨(take_eq_error.1 h).2, he⟩)
    · exact .inr (.inl h.2.symm)
    · exact .inr (.inl h.2.symm)
    · exact .inr (.inr ⟨(take_eq_error.1 h).2, he⟩)
    · exact .inr (.inl h.2.symm)
    · split at h
      · cases h
      · simp only [bind_eq_error, check_eq_error, reduceCtorEq, and_false, or_false, exists_const] at h
        exact .inl h.2.symm

/-! ### PMT -/

/-- The ignore test of a PMT section (43_psi.md R242). -/
abbrev PmtSame (s : State) (b : List Byte) : Prop :=
  (byteAt b 5).getLsbD 0 = false ∨
    (s.pmt.valid = true ∧ (byteAt b 5).extractLsb' 1 5 = s.pmt.ver ∧ field16 b 3 = s.pmt.prog)

/-- The state after a `PMT_READ` that ignores the section `b`. -/
def pmtIgnored (s : State) (b : List Byte) : State :=
  (s.epilogue (s.cur.pos.toNat / 8 + b.length)).doneIgnored 0 (BitVec.ofNat 32 b.length)

/-- The state after a `PMT_READ` that rebuilds the table from `b` with the streams `items`. -/
def pmtRebuilt (s : State) (b : List Byte) (items : List (EsItem 13)) : State :=
  (State.epilogue
    { s with
      mem := s.mem.writeBytes s.dstAddr.toNat
        (arenaBytes b (slice b 12 (field12 b 10).toNat) items)
      pmt := { prog := field16 b 3, ver := (byteAt b 5).extractLsb' 1 5, valid := true
               pcrPid := field13 b 8, pinfoAddr := s.dstAddr
               pinfoLen := BitVec.ofNat 32 (field12 b 10).toNat
               entries := pmtArenaEntries (s.dstAddr.toNat + (field12 b 10).toNat) items } }
    (s.cur.pos.toNat / 8 + b.length)).done
    (BitVec.ofNat 32 ((field12 b 10).toNat + esTotal items)) (BitVec.ofNat 32 b.length)

/-- A `PMT_READ` up to its CRC check, on a good section. -/
theorem pmtRead_of_crc {s : State} {b : List Byte} (ha : ArenaOk s) (h : Reads s b) (hb : PmtOk b) :
    pmtRead s = (do
      check (12 + (field12 b 10).toNat ≤ b.length - 4) .invalidData
      let items ← pmtItems b (b.length - 4) (b.length - 4 - (12 + (field12 b 10).toNat))
        (12 + (field12 b 10).toNat)
      if PmtSame s b then .ok (pmtIgnored s b)
      else do
        check (items.length ≤ s.params.pmtCap) .invalidArgument
        check ((field12 b 10).toNat + esTotal items ≤ s.dstCap.toNat) .outOfMemory
        .ok (pmtRebuilt s b items)) := by
  have hl := hb.length
  have h3 : 3 ≤ b.length := by omega
  have e : b.take 3 ++ slice b 3 (field12 b 1).toNat = b := take_append_slice (by omega)
  unfold pmtRead
  rw [checkArenaWindow_of ha, ok_bind, h.prologue, ok_bind, h.take_zero h3, ok_bind]
  simp only [byteAt_take (show 0 < 3 by omega), byteAt_take (show 1 < 3 by omega),
    field12_take (show 1 + 1 < 3 by omega)]
  rw [check_of ⟨hb.tableId, hb.syntaxBit⟩, ok_bind, check_of ⟨hb.low, hb.high⟩, ok_bind,
    h.take (i := 3) (by omega), ok_bind, e, check_of hb.crc, ok_bind, ← hl]
  rfl

/-- A `PMT_READ` on a good section whose stream loop ends at the CRC. -/
theorem pmtRead_of {s : State} {b : List Byte} {items : List (EsItem 13)} (ha : ArenaOk s)
    (h : Reads s b) (hb : PmtOk b) (hp : 12 + (field12 b 10).toNat ≤ b.length - 4)
    (hi : PmtStreams b (b.length - 4) (12 + (field12 b 10).toNat) items) :
    pmtRead s =
      if PmtSame s b then .ok (pmtIgnored s b)
      else if items.length ≤ s.params.pmtCap then
        if (field12 b 10).toNat + esTotal items ≤ s.dstCap.toNat then .ok (pmtRebuilt s b items)
        else .error .outOfMemory
      else .error .invalidArgument := by
  rw [pmtRead_of_crc ha h hb, check_of hp, ok_bind, (pmtItems_eq_ok hp (Nat.le_refl _)).2 hi, ok_bind]
  by_cases hs : PmtSame s b
  · rw [if_pos hs, if_pos hs]
  · rw [if_neg hs, if_neg hs]
    by_cases hc : items.length ≤ s.params.pmtCap
    · rw [check_of hc, ok_bind, if_pos hc]
      by_cases hd : (field12 b 10).toNat + esTotal items ≤ s.dstCap.toNat
      · rw [check_of hd, ok_bind, if_pos hd]
      · rw [check_of_not hd, error_bind, if_neg hd]
    · rw [check_of_not hc, error_bind, if_neg hc]

/-- A `PMT_READ` that succeeds read a good section. -/
theorem pmtRead_ok {s t : State} (h : pmtRead s = .ok t) :
    ArenaOk s ∧ ∃ b items, Reads s b ∧ PmtOk b ∧ 12 + (field12 b 10).toNat ≤ b.length - 4 ∧
      PmtStreams b (b.length - 4) (12 + (field12 b 10).toNat) items := by
  have h' := h
  simp only [pmtRead, bind_eq_ok, check_eq_ok, checkArenaWindow_eq_ok, exists_const] at h
  obtain ⟨⟨w1, w2, w3⟩, o, ho, hd, hh, h0, h1, rest, hr, hc, -⟩ := h
  have ha : ArenaOk s := ⟨w1, w2, w3⟩
  refine ⟨ha, ?_⟩
  obtain ⟨r1, rfl⟩ := take_eq_ok.1 hh
  obtain ⟨r2, rfl⟩ := take_eq_ok.1 hr
  rw [curBytes_split] at hc
  have e1 : (s.curBytes o 3) = (s.curBytes o (3 + (field12 (s.curBytes o 3) 1).toNat)).take 3 := by
    rw [curBytes_append, List.take_append_of_le_length (by simp), List.take_of_length_le (by simp)]
  generalize hn : (field12 (s.curBytes o 3) 1).toNat = n at *
  rw [e1] at h0 hn
  simp only [byteAt_take (show 0 < 3 by omega), byteAt_take (show 1 < 3 by omega),
    field12_take (show 1 + 1 < 3 by omega)] at h0 hn
  have hR : Reads s (s.curBytes o (3 + n)) := reads_of ho (by omega)
  have hP : PmtOk (s.curBytes o (3 + n)) :=
    ⟨h0.1, h0.2, by simp [hn], by rw [hn]; exact h1.1, by rw [hn]; exact h1.2, hc⟩
  rw [pmtRead_of_crc ha hR hP] at h'
  simp only [bind_eq_ok, check_eq_ok, exists_const] at h'
  obtain ⟨hp, items, hi, -⟩ := h'
  exact ⟨_, items, hR, hP, hp, (pmtItems_eq_ok hp (Nat.le_refl _)).1 hi⟩

/-- Everything a successful `PMT_READ` does. -/
theorem pmtRead_cases {s t : State} (h : pmtRead s = .ok t) :
    ArenaOk s ∧ ∃ b items, Reads s b ∧ PmtOk b ∧ 12 + (field12 b 10).toNat ≤ b.length - 4 ∧
      PmtStreams b (b.length - 4) (12 + (field12 b 10).toNat) items ∧
      ((PmtSame s b ∧ t = pmtIgnored s b) ∨
        (¬ PmtSame s b ∧ items.length ≤ s.params.pmtCap ∧
          (field12 b 10).toNat + esTotal items ≤ s.dstCap.toNat ∧ t = pmtRebuilt s b items)) := by
  obtain ⟨ha, b, items, hr, hb, hp, hi⟩ := pmtRead_ok h
  rw [pmtRead_of ha hr hb hp hi] at h
  refine ⟨ha, b, items, hr, hb, hp, hi, ?_⟩
  split at h
  · next hs => exact .inl ⟨hs, (Except.ok.inj h).symm⟩
  · next hs =>
    split at h
    · next hc =>
      split at h
      · next hd => exact .inr ⟨hs, hc, hd, (Except.ok.inj h).symm⟩
      · cases h
    · cases h

theorem pmtRead_error {s : State} {r : Raise} (h : pmtRead s = .error r) :
    r = .invalidArgument ∨ r = .invalidData ∨ r = .outOfMemory ∨
      (r = .pastEnd ∧ s.cur.err = false) := by
  unfold pmtRead at h
  rcases bind_eq_error.1 h with h | ⟨_, -, h⟩
  · exact .inl (checkArenaWindow_error h)
  rcases bind_eq_error.1 h with h | ⟨o, ho, h⟩
  · rcases prologue_error h with h | h <;> simp [h]
  · have he := (prologue_eq_ok.1 ho).2.1
    simp only [bind_eq_error, check_eq_error, check_eq_ok, exists_const] at h
    rcases h with h | ⟨_, -, h | ⟨-, h | ⟨-, h | ⟨_, -, h | ⟨-, h | ⟨-, h | ⟨_, -, h⟩⟩⟩⟩⟩⟩⟩
    · exact .inr (.inr (.inr ⟨(take_eq_error.1 h).2, he⟩))
    · exact .inr (.inl h.2.symm)
    · exact .inr (.inl h.2.symm)
    · exact .inr (.inr (.inr ⟨(take_eq_error.1 h).2, he⟩))
    · exact .inr (.inl h.2.symm)
    · exact .inr (.inl h.2.symm)
    · exact .inr (.inl (pmtItems_error h))
    · split at h
      · cases h
      · simp only [bind_eq_error, check_eq_error, check_eq_ok, reduceCtorEq, and_false, or_false,
          exists_const] at h
        rcases h with h | ⟨-, h⟩
        · exact .inl h.2.symm
        · exact .inr (.inr (.inl h.2.symm))

/-! ### PSM -/

/-- The ignore test of a PSM section (43_psi.md R242). -/
abbrev PsmSame (s : State) (b : List Byte) : Prop :=
  (byteAt b 6).getLsbD 7 = false ∨
    (s.psm.valid = true ∧ (byteAt b 6).extractLsb' 0 5 = s.psm.ver)

/-- The state after a `PSM_READ` that ignores the section `b`. -/
def psmIgnored (s : State) (b : List Byte) : State :=
  ((s.epilogue (s.cur.pos.toNat / 8 + b.length)).mark (!(byteAt b 7).getLsbD 0)).doneIgnored 0
    (BitVec.ofNat 32 b.length)

/-- The state after a `PSM_READ` that rebuilds the table from `b` with the streams `items`. -/
def psmRebuilt (s : State) (b : List Byte) (items : List (EsItem 8)) : State :=
  ((State.epilogue
    { s with
      mem := s.mem.writeBytes s.dstAddr.toNat
        (arenaBytes b (slice b 10 (field16 b 8).toNat) items)
      psm := { ver := (byteAt b 6).extractLsb' 0 5, sext := (byteAt b 6).getLsbD 6, valid := true
               pinfoAddr := s.dstAddr, pinfoLen := BitVec.ofNat 32 (field16 b 8).toNat
               entries := psmArenaEntries (s.dstAddr.toNat + (field16 b 8).toNat) items } }
    (s.cur.pos.toNat / 8 + b.length)).mark (!(byteAt b 7).getLsbD 0)).done
    (BitVec.ofNat 32 ((field16 b 8).toNat + esTotal items)) (BitVec.ofNat 32 b.length)

/-- A `PSM_READ` up to its CRC check, on a good section. -/
theorem psmRead_of_crc {s : State} {b : List Byte} (ha : ArenaOk s) (h : Reads s b) (hb : PsmOk b) :
    psmRead s = (do
      check (12 + (field16 b 8).toNat ≤ b.length - 4) .invalidData
      check (12 + (field16 b 8).toNat + (field16 b (10 + (field16 b 8).toNat)).toNat =
        b.length - 4) .invalidData
      let items ← psmItems b (b.length - 4) (b.length - 4 - (12 + (field16 b 8).toNat))
        (12 + (field16 b 8).toNat)
      if PsmSame s b then .ok (psmIgnored s b)
      else do
        check (items.length ≤ s.params.psmCap) .invalidArgument
        check ((field16 b 8).toNat + esTotal items ≤ s.dstCap.toNat) .outOfMemory
        .ok (psmRebuilt s b items)) := by
  have hl := hb.length
  have h3 : 6 ≤ b.length := by omega
  have e : b.take 6 ++ slice b 6 (field16 b 4).toNat = b := take_append_slice (by omega)
  have e4 : (b.take 6).take 4 = b.take 4 := by rw [List.take_take]; rfl
  unfold psmRead
  rw [checkArenaWindow_of ha, ok_bind, h.prologue, ok_bind, h.take_zero h3, ok_bind]
  simp only [field16_take (show 4 + 1 < 6 by omega), e4]
  rw [check_of hb.startCode, ok_bind, check_of ⟨hb.low, hb.high⟩, ok_bind,
    h.take (i := 6) (by omega), ok_bind, e, check_of hb.crc, ok_bind, ← hl]
  rfl

/-- A `PSM_READ` on a good section whose map ends at the CRC. -/
theorem psmRead_of {s : State} {b : List Byte} {items : List (EsItem 8)} (ha : ArenaOk s)
    (h : Reads s b) (hb : PsmOk b) (hp : 12 + (field16 b 8).toNat ≤ b.length - 4)
    (hm : 12 + (field16 b 8).toNat + (field16 b (10 + (field16 b 8).toNat)).toNat = b.length - 4)
    (hi : PsmStreams b (b.length - 4) (12 + (field16 b 8).toNat) items) :
    psmRead s =
      if PsmSame s b then .ok (psmIgnored s b)
      else if items.length ≤ s.params.psmCap then
        if (field16 b 8).toNat + esTotal items ≤ s.dstCap.toNat then .ok (psmRebuilt s b items)
        else .error .outOfMemory
      else .error .invalidArgument := by
  rw [psmRead_of_crc ha h hb, check_of hp, ok_bind, check_of hm, ok_bind,
    (psmItems_eq_ok hp (Nat.le_refl _)).2 hi, ok_bind]
  by_cases hs : PsmSame s b
  · rw [if_pos hs, if_pos hs]
  · rw [if_neg hs, if_neg hs]
    by_cases hc : items.length ≤ s.params.psmCap
    · rw [check_of hc, ok_bind, if_pos hc]
      by_cases hd : (field16 b 8).toNat + esTotal items ≤ s.dstCap.toNat
      · rw [check_of hd, ok_bind, if_pos hd]
      · rw [check_of_not hd, error_bind, if_neg hd]
    · rw [check_of_not hc, error_bind, if_neg hc]

/-- A `PSM_READ` that succeeds read a good section. -/
theorem psmRead_ok {s t : State} (h : psmRead s = .ok t) :
    ArenaOk s ∧ ∃ b items, Reads s b ∧ PsmOk b ∧ 12 + (field16 b 8).toNat ≤ b.length - 4 ∧
      12 + (field16 b 8).toNat + (field16 b (10 + (field16 b 8).toNat)).toNat = b.length - 4 ∧
      PsmStreams b (b.length - 4) (12 + (field16 b 8).toNat) items := by
  have h' := h
  simp only [psmRead, bind_eq_ok, check_eq_ok, checkArenaWindow_eq_ok, exists_const] at h
  obtain ⟨⟨w1, w2, w3⟩, o, ho, hd, hh, h0, h1, rest, hr, hc, -⟩ := h
  have ha : ArenaOk s := ⟨w1, w2, w3⟩
  refine ⟨ha, ?_⟩
  obtain ⟨r1, rfl⟩ := take_eq_ok.1 hh
  obtain ⟨r2, rfl⟩ := take_eq_ok.1 hr
  rw [curBytes_split] at hc
  have e1 : (s.curBytes o 6) = (s.curBytes o (6 + (field16 (s.curBytes o 6) 4).toNat)).take 6 := by
    rw [curBytes_append, List.take_append_of_le_length (by simp), List.take_of_length_le (by simp)]
  generalize hn : (field16 (s.curBytes o 6) 4).toNat = n at *
  have e4 : ((s.curBytes o (6 + n)).take 6).take 4 = (s.curBytes o (6 + n)).take 4 := by
    rw [List.take_take]; rfl
  rw [e1] at h0 hn
  rw [e4] at h0
  simp only [field16_take (show 4 + 1 < 6 by omega)] at hn
  have hR : Reads s (s.curBytes o (6 + n)) := reads_of ho (by omega)
  have hP : PsmOk (s.curBytes o (6 + n)) :=
    ⟨h0, by simp [hn], by rw [hn]; exact h1.1, by rw [hn]; exact h1.2, hc⟩
  rw [psmRead_of_crc ha hR hP] at h'
  simp only [bind_eq_ok, check_eq_ok, exists_const] at h'
  obtain ⟨hp, hm, items, hi, -⟩ := h'
  exact ⟨_, items, hR, hP, hp, hm, (psmItems_eq_ok hp (Nat.le_refl _)).1 hi⟩

/-- Everything a successful `PSM_READ` does. -/
theorem psmRead_cases {s t : State} (h : psmRead s = .ok t) :
    ArenaOk s ∧ ∃ b items, Reads s b ∧ PsmOk b ∧ 12 + (field16 b 8).toNat ≤ b.length - 4 ∧
      PsmStreams b (b.length - 4) (12 + (field16 b 8).toNat) items ∧
      ((PsmSame s b ∧ t = psmIgnored s b) ∨
        (¬ PsmSame s b ∧ items.length ≤ s.params.psmCap ∧
          (field16 b 8).toNat + esTotal items ≤ s.dstCap.toNat ∧ t = psmRebuilt s b items)) := by
  obtain ⟨ha, b, items, hr, hb, hp, hm, hi⟩ := psmRead_ok h
  rw [psmRead_of ha hr hb hp hm hi] at h
  refine ⟨ha, b, items, hr, hb, hp, hi, ?_⟩
  split at h
  · next hs => exact .inl ⟨hs, (Except.ok.inj h).symm⟩
  · next hs =>
    split at h
    · next hc =>
      split at h
      · next hd => exact .inr ⟨hs, hc, hd, (Except.ok.inj h).symm⟩
      · cases h
    · cases h

theorem psmRead_error {s : State} {r : Raise} (h : psmRead s = .error r) :
    r = .invalidArgument ∨ r = .invalidData ∨ r = .outOfMemory ∨
      (r = .pastEnd ∧ s.cur.err = false) := by
  unfold psmRead at h
  rcases bind_eq_error.1 h with h | ⟨_, -, h⟩
  · exact .inl (checkArenaWindow_error h)
  rcases bind_eq_error.1 h with h | ⟨o, ho, h⟩
  · rcases prologue_error h with h | h <;> simp [h]
  · have he := (prologue_eq_ok.1 ho).2.1
    simp only [bind_eq_error, check_eq_error, check_eq_ok, exists_const] at h
    rcases h with
      h | ⟨_, -, h | ⟨-, h | ⟨-, h | ⟨_, -, h | ⟨-, h | ⟨-, h | ⟨-, h | ⟨_, -, h⟩⟩⟩⟩⟩⟩⟩⟩
    · exact .inr (.inr (.inr ⟨(take_eq_error.1 h).2, he⟩))
    · exact .inr (.inl h.2.symm)
    · exact .inr (.inl h.2.symm)
    · exact .inr (.inr (.inr ⟨(take_eq_error.1 h).2, he⟩))
    · exact .inr (.inl h.2.symm)
    · exact .inr (.inl h.2.symm)
    · exact .inr (.inl h.2.symm)
    · exact .inr (.inl (psmItems_error h))
    · split at h
      · cases h
      · simp only [bind_eq_error, check_eq_error, check_eq_ok, reduceCtorEq, and_false, or_false,
          exists_const] at h
        rcases h with h | ⟨-, h⟩
        · exact .inl h.2.symm
        · exact .inr (.inr (.inl h.2.symm))

end Sys2Proof.Machine
end

