-- ==== Sys2Proof/Laws/Exec.lean ====
section
/-! SUPPORT. The commands together: `exec` runs a command's pseudocode and finishes, a failure is one its row of the
table of causes allows, and a success is a `done` over its own unit's state. -/

namespace Sys2Proof.Machine

/-- The pseudocode of a command. -/
def pseudocode (i : Instr) (s : State) : Except Raise State :=
  match i with
  | .nop => .ok (s.done 0 0)
  | .crcRun init => crcRun init s
  | .crcCheck => crcCheck s
  | .crcSeal => crcSeal s
  | .curInit => curInit s
  | .curRead n => curRead n s
  | .curSkip k => curSkip k s
  | .curSeek k => curSeek k s
  | .tsEnc sel p => tsEnc sel p s
  | .tsDec => tsDec s
  | .pesWrite unb => pesWrite unb s
  | .pesRead l => pesRead l s
  | .patWrite => patWrite s
  | .patRead => patRead s
  | .pmtWrite => pmtWrite s
  | .pmtRead => pmtRead s
  | .psmWrite => psmWrite s
  | .psmRead => psmRead s
  | .tblClear t => .ok ((s.clearTable t).done 0 0)
  | .tblAdd t => tblAdd t s
  | .tblGet t idx => tblGet t idx s

theorem exec_eq_finish (i : Instr) (s : State) : exec i s = finish s (pseudocode i s) := by
  cases i <;> rfl

/-- Everything a command can answer. -/
theorem exec_eq_next {i : Instr} {s t : State} :
    exec i s = .next t ↔
      pseudocode i s = .ok t ∨ ∃ r, pseudocode i s = .error r ∧ t = s.fail r := by
  rw [exec_eq_finish, finish_eq_next]

/-- A failure of a command: a code of its row, `cur.err` only with InvalidData and only on a cursor not in error
unless the command is a cursor command, RESULT only for `CUR_READ`. -/
theorem pseudocode_error {i : Instr} {s : State} {r : Raise} (h : pseudocode i s = .error r) :
    mayRaise i r.code = true ∧ r.code ≠ .ok ∧ r.code ≠ .writeFailed ∧
      (r.keepErr = true → r.code = .invalidData) ∧
      (r.keepDefault = true → ∃ n, i = .curRead n) := by
  cases i with
  | nop => cases h
  | tblClear t => cases h
  | crcRun init => rw [(crcRun_eq_error.1 h).2]; simp [mayRaise, Raise.invalidArgument]
  | crcCheck => rcases crcCheck_error h with rfl | rfl <;>
      simp [mayRaise, Raise.invalidArgument, Raise.invalidData]
  | crcSeal => rw [(crcSeal_eq_error.1 h).2]; simp [mayRaise, Raise.invalidArgument]
  | curInit => rw [curInit_error h]; simp [mayRaise, Raise.invalidArgument]
  | curRead n => rw [(curRead_eq_error.1 h).2]; simp [mayRaise, Raise.readPastEnd]
  | curSkip k => rw [(curSkip_eq_error.1 h).2]; simp [mayRaise, Raise.pastEnd]
  | curSeek k => rw [(curSeek_eq_error.1 h).2]; simp [mayRaise, Raise.pastEnd]
  | tsEnc sel p => rcases tsEnc_error h with rfl | rfl <;>
      simp [mayRaise, Raise.invalidArgument, Raise.outOfMemory]
  | tsDec => rcases tsDec_error h with rfl | rfl | ⟨rfl, -⟩ <;>
      simp [mayRaise, Raise.invalidArgument, Raise.invalidData, Raise.pastEnd]
  | pesWrite unb => rcases pesWrite_error h with rfl | rfl <;>
      simp [mayRaise, Raise.invalidArgument, Raise.outOfMemory]
  | pesRead l => rcases pesRead_error h with rfl | rfl | ⟨rfl, -⟩ <;>
      simp [mayRaise, Raise.invalidArgument, Raise.invalidData, Raise.pastEnd]
  | patWrite => rcases patWrite_error h with rfl | rfl <;>
      simp [mayRaise, Raise.invalidArgument, Raise.outOfMemory]
  | pmtWrite => rcases pmtWrite_error h with rfl | rfl <;>
      simp [mayRaise, Raise.invalidArgument, Raise.outOfMemory]
  | psmWrite => rcases psmWrite_error h with rfl | rfl <;>
      simp [mayRaise, Raise.invalidArgument, Raise.outOfMemory]
  | patRead => rcases patRead_error h with rfl | rfl | ⟨rfl, -⟩ <;>
      simp [mayRaise, Raise.invalidArgument, Raise.invalidData, Raise.pastEnd]
  | pmtRead => rcases pmtRead_error h with rfl | rfl | rfl | ⟨rfl, -⟩ <;>
      simp [mayRaise, Raise.invalidArgument, Raise.invalidData, Raise.outOfMemory, Raise.pastEnd]
  | psmRead => rcases psmRead_error h with rfl | rfl | rfl | ⟨rfl, -⟩ <;>
      simp [mayRaise, Raise.invalidArgument, Raise.invalidData, Raise.outOfMemory, Raise.pastEnd]
  | tblAdd t => rw [(tblAdd_eq_error.1 h).2]; simp [mayRaise, Raise.invalidArgument]
  | tblGet t k => rw [(tblGet_eq_error.1 h).2]; simp [mayRaise, Raise.invalidArgument]

/-- Every way a command can succeed: the command, the state before, the state after. -/
inductive Succeeds : Instr → State → State → Prop
  | nop (s : State) : Succeeds .nop s (s.done 0 0)
  | crcRun (init : Bool) (s : State) (c : Word) (h : InMem s s.srcAddr.toNat s.srcLen.toNat)
      (hc : c = crc32 (if init then s.crcSeed else s.crcAcc)
        (s.mem.readBytes s.srcAddr.toNat s.srcLen.toNat)) :
      Succeeds (.crcRun init) s (State.done { s with crcAcc := c } 0 c)
  | crcCheck (s : State) (c : Word) : Succeeds .crcCheck s (s.done 0 c)
  | crcSeal (s : State) (c : Word) (h : InMem s s.srcAddr.toNat (s.srcLen.toNat + 4)) :
      Succeeds .crcSeal s
        (State.done
          { s with mem := s.mem.writeBytes (s.srcAddr.toNat + s.srcLen.toNat) (be32 c) } 0 c)
  | curInit (s : State) (h0 : InMem s s.curRegs.base0.toNat s.curRegs.len0.toNat)
      (h1 : InMem s s.curRegs.base1.toNat s.curRegs.len1.toNat)
      (ht : s.curRegs.len0.toNat + s.curRegs.len1.toNat < 2 ^ 29) :
      Succeeds .curInit s
        (State.done
          { s with
            cur := { base0 := s.curRegs.base0, len0 := s.curRegs.len0, base1 := s.curRegs.base1,
                     len1 := s.curRegs.len1, pos := 0, err := false } }
          0 (s.curRegs.len0 + s.curRegs.len1))
  | curRead (n : BitVec 7) (s : State) (hi lo : Word) (he : s.cur.err = false)
      (hp : s.cur.pos.toNat + n.toNat ≤ 8 * s.cur.total) :
      Succeeds (.curRead n) s ((s.setPos (s.cur.pos.toNat + n.toNat)).done hi lo)
  | curSkip (k : BitVec 24) (s : State) (r : Word) (he : s.cur.err = false)
      (hp : s.cur.pos.toNat + 8 * k.toNat ≤ 8 * s.cur.total) :
      Succeeds (.curSkip k) s ((s.setPos (s.cur.pos.toNat + 8 * k.toNat)).done 0 r)
  | curSeek (k : BitVec 24) (s : State) (r : Word) (he : s.cur.err = false)
      (hp : k.toNat ≤ s.cur.total) :
      Succeeds (.curSeek k) s ((s.setPos (8 * k.toNat)).done 0 r)
  | tsEnc (sel : Stamp) (p : BitVec 4) (s : State) (b : List Byte) (hw : WindowInMem s)
      (hc : 5 ≤ s.dstCap.toNat) (hb : b.length = 5) :
      Succeeds (.tsEnc sel p) s ((s.writeWindow b).done 0 5)
  | tsDec (s : State) (o : Nat) (mk : Bool) (hi lo : Word) (ho : prologue s = .ok o)
      (ht : o + 5 ≤ s.cur.total) :
      Succeeds .tsDec s (((s.epilogue (o + 5)).mark mk).done hi lo)
  | pesWrite (unb : Bool) (s : State) (len : Nat) (hw : WindowInMem s)
      (hc : 9 + pesOptLen s.pes ≤ s.dstCap.toNat) :
      Succeeds (.pesWrite unb) s (pesWritten s len)
  | pesRead (l : Layout) (s : State) (o : Nat) (p : PesScan) (hi lo : Word)
      (ho : prologue s = .ok o) (hp : p.o ≤ s.cur.total)
      (hr : p.r.payloadLen = s.pes.payloadLen) :
      Succeeds (.pesRead l) s (((commitPes s p).epilogue p.o).done hi lo)
  | patWrite (s : State) (body : List Byte) (hw : WindowInMem s) (hl : body.length + 4 ≤ 1024)
      (hc : body.length + 4 ≤ s.dstCap.toNat) : Succeeds .patWrite s (emitSection s body)
  | pmtWrite (s : State) (body : List Byte) (hw : WindowInMem s) (hl : body.length + 4 ≤ 1024)
      (hc : body.length + 4 ≤ s.dstCap.toNat) : Succeeds .pmtWrite s (emitSection s body)
  | psmWrite (s : State) (body : List Byte) (hw : WindowInMem s) (hl : body.length + 4 ≤ 1024)
      (hc : body.length + 4 ≤ s.dstCap.toNat) : Succeeds .psmWrite s (emitSection s body)
  | patIgnored (s : State) (b : List Byte) (hr : Reads s b) :
      Succeeds .patRead s (patIgnored s b)
  | patRebuilt (s : State) (b : List Byte) (hr : Reads s b)
      (hc : ((field12 b 1).toNat - 9) / 4 ≤ s.params.patCap) :
      Succeeds .patRead s (patRebuilt s b)
  | pmtIgnored (s : State) (b : List Byte) (ha : ArenaOk s) (hr : Reads s b) :
      Succeeds .pmtRead s (pmtIgnored s b)
  | pmtRebuilt (s : State) (b : List Byte) (items : List (EsItem 13)) (ha : ArenaOk s)
      (hr : Reads s b) (hc : items.length ≤ s.params.pmtCap)
      (hu : (field12 b 10).toNat + esTotal items ≤ s.dstCap.toNat)
      (hn : (arenaBytes b (slice b 12 (field12 b 10).toNat) items).length =
        (field12 b 10).toNat + esTotal items) :
      Succeeds .pmtRead s (pmtRebuilt s b items)
  | psmIgnored (s : State) (b : List Byte) (ha : ArenaOk s) (hr : Reads s b) :
      Succeeds .psmRead s (psmIgnored s b)
  | psmRebuilt (s : State) (b : List Byte) (items : List (EsItem 8)) (ha : ArenaOk s)
      (hr : Reads s b) (hc : items.length ≤ s.params.psmCap)
      (hu : (field16 b 8).toNat + esTotal items ≤ s.dstCap.toNat)
      (hn : (arenaBytes b (slice b 10 (field16 b 8).toNat) items).length =
        (field16 b 8).toNat + esTotal items) :
      Succeeds .psmRead s (psmRebuilt s b items)
  | tblClear (tb : Table) (s : State) : Succeeds (.tblClear tb) s ((s.clearTable tb).done 0 0)
  | tblAdd (tb : Table) (s : State) (r : Word) (h : (s.count tb).toNat ≠ s.cap tb) :
      Succeeds (.tblAdd tb) s ((s.addEntry tb).done 0 r)
  | tblGet (tb : Table) (k : BitVec 16) (s : State) (e : Ent) (r : Word) :
      Succeeds (.tblGet tb k) s (State.done { s with ent := e } 0 r)

theorem arenaBytes_length_pmt {b : List Byte} {pi k : Nat} {items : List (EsItem 13)}
    (hp : 12 + pi ≤ b.length - 4) (h : PmtStreams b (b.length - 4) k items) :
    (arenaBytes b (slice b 12 pi) items).length = pi + esTotal items := by
  rw [arenaBytes, List.length_append, h.flat_length (by omega), slice, List.length_take,
    List.length_drop]
  omega

theorem arenaBytes_length_psm {b : List Byte} {pi k : Nat} {items : List (EsItem 8)}
    (hp : 12 + pi ≤ b.length - 4) (h : PsmStreams b (b.length - 4) k items) :
    (arenaBytes b (slice b 10 pi) items).length = pi + esTotal items := by
  rw [arenaBytes, List.length_append, h.flat_length (by omega), slice, List.length_take,
    List.length_drop]
  omega

@[simp] theorem pmtData_info_length (s : State) (e : PmtEntry) :
    (s.pmtData e).info.length = e.esLen.toNat := by simp [State.pmtData]

@[simp] theorem psmData_info_length (s : State) (e : PsmEntry) :
    (s.psmData e).info.length = e.esLen.toNat := by simp [State.psmData]

/-- A command whose pseudocode ends in `done` succeeded in one of those ways. -/
theorem pseudocode_ok {i : Instr} {s t : State} (h : pseudocode i s = .ok t) : Succeeds i s t := by
  cases i with
  | nop => cases h; exact .nop s
  | tblClear tb => cases h; exact .tblClear tb s
  | crcRun init => obtain ⟨hm, rfl⟩ := crcRun_eq_ok.1 h; exact .crcRun _ _ _ hm rfl
  | crcCheck => obtain ⟨-, -, -, rfl⟩ := crcCheck_eq_ok.1 h; exact .crcCheck _ _
  | crcSeal => obtain ⟨hm, rfl⟩ := crcSeal_eq_ok.1 h; exact .crcSeal _ _ hm
  | curInit => obtain ⟨h0, h1, ht, rfl⟩ := curInit_eq_ok.1 h; exact .curInit _ h0 h1 ht
  | curRead n => obtain ⟨hm, rfl⟩ := curRead_eq_ok.1 h; exact .curRead _ _ _ _ hm.1 hm.2
  | curSkip k => obtain ⟨hm, rfl⟩ := curSkip_eq_ok.1 h; exact .curSkip _ _ _ hm.1 hm.2
  | curSeek k => obtain ⟨hm, rfl⟩ := curSeek_eq_ok.1 h; exact .curSeek _ _ _ hm.1 hm.2
  | tsEnc sel p => obtain ⟨hw, -, hc, rfl⟩ := tsEnc_eq_ok.1 h; exact .tsEnc _ _ _ _ hw hc rfl
  | tsDec =>
    obtain ⟨o, b, ho, hb, rfl⟩ := tsDec_eq_ok.1 h
    exact .tsDec _ _ _ _ _ ho (take_eq_ok.1 hb).1
  | pesWrite unb => obtain ⟨-, hw, -, len, -, hc, rfl⟩ := pesWrite_eq_ok.1 h; exact .pesWrite _ _ _ hw hc
  | pesRead l =>
    obtain ⟨o, p, hi, ho, -, hp, hr, rfl⟩ := pesRead_ok h
    exact .pesRead _ _ o p _ _ ho hp hr
  | patWrite =>
    obtain ⟨hw, hl, hc, rfl⟩ := patWrite_eq_ok.1 h
    have e : s.patList.length ≤ (s.count .pat).toNat := by
      simp only [State.patList, List.length_take]; omega
    simp only [patLength] at hl hc
    exact .patWrite _ _ hw (by rw [patSection_length]; omega) (by rw [patSection_length]; omega)
  | pmtWrite =>
    obtain ⟨hw, -, -, hl, hc, rfl⟩ := pmtWrite_eq_ok.1 h
    have := pmtSection_length s.pmt.prog s.pmt.ver s.pmt.pcrPid
      (s.mem.readBytes s.pmt.pinfoAddr.toNat s.pmt.pinfoLen.toNat) (s.pmtList.map s.pmtData)
    simp only [Memory.readBytes_length, List.map_map, Function.comp_def, pmtData_info_length] at this
    exact .pmtWrite _ _ hw (by omega) (by omega)
  | psmWrite =>
    obtain ⟨hw, -, -, hl, hc, rfl⟩ := psmWrite_eq_ok.1 h
    have := psmSection_length s.psm.ver s.psm.sext
      (s.mem.readBytes s.psm.pinfoAddr.toNat s.psm.pinfoLen.toNat) (s.psmList.map s.psmData)
    simp only [Memory.readBytes_length, List.map_map, Function.comp_def, psmData_info_length] at this
    exact .psmWrite _ _ hw (by omega) (by omega)
  | patRead =>
    obtain ⟨b, hr, -, ⟨-, rfl⟩ | ⟨-, hc, rfl⟩⟩ := patRead_cases h
    · exact .patIgnored _ _ hr
    · exact .patRebuilt _ _ hr hc
  | pmtRead =>
    obtain ⟨ha, b, items, hr, -, hp, hi, ⟨-, rfl⟩ | ⟨-, hc, hu, rfl⟩⟩ := pmtRead_cases h
    · exact .pmtIgnored _ _ ha hr
    · exact .pmtRebuilt _ _ _ ha hr hc hu (arenaBytes_length_pmt hp hi)
  | psmRead =>
    obtain ⟨ha, b, items, hr, -, hp, hi, ⟨-, rfl⟩ | ⟨-, hc, hu, rfl⟩⟩ := psmRead_cases h
    · exact .psmIgnored _ _ ha hr
    · exact .psmRebuilt _ _ _ ha hr hc hu (arenaBytes_length_psm hp hi)
  | tblAdd tb => obtain ⟨hm, rfl⟩ := tblAdd_eq_ok.1 h; exact .tblAdd _ _ _ hm
  | tblGet tb k => obtain ⟨e, -, rfl⟩ := tblGet_eq_ok.1 h; exact .tblGet _ _ _ e _

end Sys2Proof.Machine
end

