-- ==== Sys2Proof/Laws/PerInstr.lean ====
section
/-! SUPPORT. Facts proved once per command. `RowMatch`: a command's word has the fixed bits of its row of
opcode_table.json (30_encoding.md R91, R93). -/

namespace Sys2Proof.Laws.RowMatch

/-- The fixed bits of `i`'s row stand in its word. -/
def Statement (i : Instr) : Prop := encode i &&& i.row.mask = i.row.pattern

/-- Masking a word masks its opcode and its operand field apart. -/
theorem wordOf_and (op o : Byte) (x m : BitVec 24) :
    wordOf op x &&& wordOf o m = wordOf (op &&& o) (x &&& m) :=
  BitVec.and_append

theorem nop : Statement .nop := by unfold Statement; decide

theorem crcRun (init : Bool) : Statement (.crcRun init) := by
  cases init <;> unfold Statement <;> decide

theorem crcCheck : Statement .crcCheck := by unfold Statement; decide

theorem crcSeal : Statement .crcSeal := by unfold Statement; decide

theorem curInit : Statement .curInit := by unfold Statement; decide

theorem curRead (nbits : BitVec 7) : Statement (.curRead nbits) := by
  refine (wordOf_and 0x11 0xFF (0#17 ++ nbits) (0x1FFFF#17 ++ 0#7)).trans ?_
  rw [BitVec.and_append, BitVec.and_zero]
  rfl

theorem curSkip (count : BitVec 24) : Statement (.curSkip count) := by
  exact (wordOf_and 0x12 0xFF count 0).trans (by simp; rfl)

theorem curSeek (target : BitVec 24) : Statement (.curSeek target) := by
  exact (wordOf_and 0x13 0xFF target 0).trans (by simp; rfl)

theorem tsEnc (sel : Stamp) (pfx : BitVec 4) : Statement (.tsEnc sel pfx) := by
  refine (wordOf_and 0x20 0xFF _ (0x7FFFF#19 ++ 0#1 ++ 0#4)).trans ?_
  rw [BitVec.and_append, BitVec.and_append, BitVec.and_zero, BitVec.and_zero]
  rfl

theorem tsDec : Statement .tsDec := by unfold Statement; decide

theorem pesWrite (unb : Bool) : Statement (.pesWrite unb) := by
  cases unb <;> unfold Statement <;> decide

theorem pesRead (layout : Layout) : Statement (.pesRead layout) := by
  cases layout <;> unfold Statement <;> decide

theorem patWrite : Statement .patWrite := by unfold Statement; decide

theorem patRead : Statement .patRead := by unfold Statement; decide

theorem pmtWrite : Statement .pmtWrite := by unfold Statement; decide

theorem pmtRead : Statement .pmtRead := by unfold Statement; decide

theorem psmWrite : Statement .psmWrite := by unfold Statement; decide

theorem psmRead : Statement .psmRead := by unfold Statement; decide

theorem tblClear (t : Table) : Statement (.tblClear t) := by
  cases t <;> unfold Statement <;> decide

theorem tblAdd (t : Table) : Statement (.tblAdd t) := by
  cases t <;> unfold Statement <;> decide

theorem tblGet (t : Table) (idx : BitVec 16) : Statement (.tblGet t idx) := by
  refine (wordOf_and 0x3A 0xFF _ (0x3F#6 ++ 0#2 ++ 0#16)).trans ?_
  rw [BitVec.and_append, BitVec.and_append, BitVec.and_zero, BitVec.and_zero]
  rfl

end Sys2Proof.Laws.RowMatch
end

