-- ==== Sys2Proof/Tests/Slice0.lean ====
section
/-! SUPPORT. The model's own tests. Expected values come from the encodings of 30_encoding.md (R91, R93) and the
vectors of 95_test_vectors.md, named in each test's comment. Witnesses for the hypotheses of the obligations stand
in the second half. -/

namespace Sys2Proof.Tests

set_option Elab.async false

open Sys2Proof.Machine

/-! ### Well-formed terms -/

theorem test_refuses_nbits_0 : Instr.wf (.curRead 0) = false := by decide
theorem test_refuses_nbits_65 : Instr.wf (.curRead 65) = false := by decide
theorem test_accepts_nbits_1_64 : Instr.wf (.curRead 1) = true ∧ Instr.wf (.curRead 64) = true := by
  decide

/-! ### Decoding, every constructor, the word written out field by field -/

theorem test_decode_nop : decode 0b00000000_000000000000000000000000 = .ok .nop := by rfl
theorem test_decode_crc_run :
    decode 0b00000001_00000000000000000000000_0 = .ok (.crcRun false) := by rfl
theorem test_decode_crc_check : decode 0b00000010_000000000000000000000000 = .ok .crcCheck := by rfl
theorem test_decode_crc_seal : decode 0b00000011_000000000000000000000000 = .ok .crcSeal := by rfl
theorem test_decode_cur_init : decode 0b00010000_000000000000000000000000 = .ok .curInit := by rfl
theorem test_decode_cur_read :
    decode 0b00010001_00000000000000000_1000000 = .ok (.curRead 64) := by rfl
theorem test_decode_cur_skip :
    decode 0b00010010_100000000000000000000001 = .ok (.curSkip 0x800001) := by rfl
theorem test_decode_cur_seek :
    decode 0b00010011_000000000000000000000101 = .ok (.curSeek 5) := by rfl
theorem test_decode_ts_enc :
    decode 0b00100000_0000000000000000000_0_0011 = .ok (.tsEnc .pts 3) := by rfl
theorem test_decode_ts_dec : decode 0b00100001_000000000000000000000000 = .ok .tsDec := by rfl
theorem test_decode_pes_write :
    decode 0b00100010_00000000000000000000000_1 = .ok (.pesWrite true) := by rfl
theorem test_decode_pes_read :
    decode 0b00100011_0000000000000000000000_01 = .ok (.pesRead .mpeg1) := by rfl
theorem test_decode_pat_write : decode 0b00110000_000000000000000000000000 = .ok .patWrite := by rfl
theorem test_decode_pat_read : decode 0b00110001_000000000000000000000000 = .ok .patRead := by rfl
theorem test_decode_pmt_write : decode 0b00110010_000000000000000000000000 = .ok .pmtWrite := by rfl
theorem test_decode_pmt_read : decode 0b00110011_000000000000000000000000 = .ok .pmtRead := by rfl
theorem test_decode_psm_write : decode 0b00110100_000000000000000000000000 = .ok .psmWrite := by rfl
theorem test_decode_psm_read : decode 0b00110101_000000000000000000000000 = .ok .psmRead := by rfl
theorem test_decode_tbl_clear :
    decode 0b00111000_000000_01_0000000000000000 = .ok (.tblClear .pmt) := by rfl
theorem test_decode_tbl_add :
    decode 0b00111001_000000_10_0000000000000000 = .ok (.tblAdd .psm) := by rfl
theorem test_decode_tbl_get :
    decode 0b00111010_000000_00_1000000000000001 = .ok (.tblGet .pat 0x8001) := by rfl

/-- V-CTL-2: the illegal words, by the defect each has. -/
theorem test_decode_illegal :
    decode 0x04000000 = .error .unassignedOpcode ∧ decode 0xFF000000 = .error .unassignedOpcode ∧
    decode 0x11000000 = .error .reservedField ∧ decode 0x11000041 = .error .reservedField ∧
    decode 0x23000003 = .error .reservedField ∧ decode 0x38030000 = .error .reservedField ∧
    decode 0x39000001 = .error .reservedField ∧ decode 0x02000001 = .error .reservedBit ∧
    decode 0x20000020 = .error .reservedBit := by
  refine ⟨rfl, rfl, rfl, rfl, rfl, rfl, rfl, rfl, rfl⟩

/-! ### States -/

/-- Reset, with bytes at an address. -/
def holding (a : Nat) (b : List Byte) : State := { State.reset with mem := Memory.writeBytes [] a b }

/-- Reset, with `b` at 0x100 and the cursor over it (95_test_vectors.md, Conventions). -/
def overBytes (b : List Byte) : State :=
  { holding 0x100 b with cur := { base0 := 0x100, len0 := BitVec.ofNat 32 b.length } }

/-- The two-range cursor of 95_test_vectors.md section 2.2 at a bit position. -/
def twoRanges (pos : Word) : State :=
  { State.reset with
    mem := Memory.writeBytes (Memory.writeBytes [] 0x200 [0xA5, 0x3C, 0x7E]) 0x300 [0x01, 0xFF]
    curRegs := { base0 := 0x200, len0 := 3, base1 := 0x300, len1 := 2 }
    cur := { base0 := 0x200, len0 := 3, base1 := 0x300, len1 := 2, pos := pos } }

/-- A destination window over a state. -/
def window (s : State) (a n : Word) : State := { s with dstAddr := a, dstCap := n }

/-- A source range over a state. -/
def source (s : State) (a n : Word) : State := { s with srcAddr := a, srcLen := n }

/-- The host's sequence is this one event. -/
def playing (s : State) (e : HostEvent) : State := { s with host := [e], hostPos := 0 }

/-- Does an outcome go on to a state with property `p`? -/
def goes (o : Host.Outcome State Fault Refusal) (p : State → Bool) : Bool :=
  match o with
  | .next t => p t
  | .fault _ => false
  | .refused _ => false

/-- The state after an outcome, for witnesses about a next state. -/
def after (o : Host.Outcome State Fault Refusal) : State :=
  match o with
  | .next t => t
  | .fault _ => State.reset
  | .refused _ => State.reset

/-! #### Sections and headers of 95_test_vectors.md -/

/-- V-PSI-1. -/
def patOne : List Byte :=
  [0x00, 0xB0, 0x0D, 0x00, 0x01, 0xC1, 0x00, 0x00, 0x00, 0x01, 0xF0, 0x00, 0x2A, 0xB1, 0x04, 0xB2]

/-- V-PSI-1 with byte 9 = 00 (L1-2). -/
def patBad : List Byte := patOne.set 9 0x00

/-- V-PSI-4. -/
def pmtTwo : List Byte :=
  [0x02, 0xB0, 0x17, 0x00, 0x01, 0xC1, 0x00, 0x00, 0xE1, 0x00, 0xF0, 0x00, 0x1B, 0xE1, 0x00, 0xF0] ++
    [0x00, 0x0F, 0xE1, 0x01, 0xF0, 0x00, 0x2F, 0x44, 0xB9, 0x9B]

/-- V-PSI-5. -/
def pmtInfo : List Byte :=
  [0x02, 0xB0, 0x1E, 0x00, 0x01, 0xC3, 0x00, 0x00, 0xE1, 0x00, 0xF0, 0x06, 0x05, 0x04, 0x48, 0x44] ++
    [0x4D, 0x56, 0x1B, 0xE1, 0x00, 0xF0, 0x06, 0x0A, 0x04, 0x65, 0x6E, 0x67, 0x00, 0xBE, 0x5C, 0x54,
      0xCC]

/-- V-PSIR-16: the last ES_info_length runs into the CRC. -/
def pmtRunsOut : List Byte :=
  [0x02, 0xB0, 0x17, 0x00, 0x01, 0xC1, 0x00, 0x00, 0xE1, 0x00, 0xF0, 0x00, 0x1B, 0xE1, 0x00, 0xF0] ++
    [0x00, 0x0F, 0xE1, 0x01, 0xF0, 0x01, 0x2B, 0x85, 0xA4, 0x2C]

/-- V-PSI-7. -/
def psmInfo : List Byte :=
  [0x00, 0x00, 0x01, 0xBC, 0x00, 0x13, 0xE1, 0xFF, 0x00, 0x02, 0x01, 0x02, 0x00, 0x07, 0x1B, 0xE0] ++
    [0x00, 0x03, 0x0A, 0x01, 0x00, 0xF9, 0xFB, 0x91, 0x8D]

/-- V-PSIR-23: V-PSI-6 with the marker bit 0, sealed again. -/
def psmMarker : List Byte :=
  [0x00, 0x00, 0x01, 0xBC, 0x00, 0x12, 0xA0, 0xFE, 0x00, 0x00, 0x00, 0x08, 0x1B, 0xE0, 0x00, 0x00] ++
    [0x0F, 0xC0, 0x00, 0x00, 0x17, 0xC2, 0xE7, 0x8A]

/-- V-PSIR-24: ESML 9, sealed again. -/
def psmLong : List Byte :=
  [0x00, 0x00, 0x01, 0xBC, 0x00, 0x12, 0xA0, 0xFF, 0x00, 0x00, 0x00, 0x09, 0x1B, 0xE0, 0x00, 0x00] ++
    [0x0F, 0xC0, 0x00, 0x00, 0x0D, 0x66, 0x1B, 0xE9]

/-- The optional area of V-PESR-5. -/
def everyField : List Byte :=
  [0x21, 0x00, 0x05, 0xBF, 0x21, 0xE6, 0x34, 0x57, 0x3C, 0x4E, 0xAB, 0x83, 0x57, 0x9B, 0x55, 0xAA] ++
    [0xBE, 0xEF, 0x10, 0x61, 0x23]

/-- V-PESR-5. -/
def pesEvery : List Byte := [0x00, 0x00, 0x01, 0xE0, 0x00, 0x18, 0xBF, 0xBF, 0x15] ++ everyField

/-- V-PESR-15. -/
def pesOld : List Byte :=
  [0x00, 0x00, 0x01, 0xE0, 0x00, 0x10, 0xFF, 0xFF, 0x60, 0x2E, 0x21, 0x00, 0x05, 0xBF, 0x21]

/-- "123456789". -/
def digits : List Byte := [0x31, 0x32, 0x33, 0x34, 0x35, 0x36, 0x37, 0x38, 0x39]

/-! ### One step of each command -/

/-- V-CTL-1. -/
theorem test_nop :
    goes (exec .nop
      { State.reset with
        result := 16, resultHi := 1, status := { ignored := true, markerErr := true } })
      (fun t => t.result == 0 && t.resultHi == 0 && !t.status.ignored && t.status.markerErr) = true := by
  decide +kernel

/-- V-CRC-12. -/
theorem test_crc_run_seed :
    goes (exec (.crcRun true) (source { holding 0x100 digits with crcAcc := 0 } 0x100 9))
      (fun t => t.result == 0x0376E6E7 && t.crcAcc == 0x0376E6E7 && t.status.code == .ok) = true := by
  decide +kernel

/-- V-CRC-13, second command. -/
theorem test_crc_run_continued :
    goes (exec (.crcRun false) (source { holding 0x100 digits with crcAcc := 0xA695C4AA } 0x104 5))
      (fun t => t.result == 0x0376E6E7 && t.crcSeed == 0xFFFFFFFF) = true := by
  decide +kernel

/-- V-CRC-16. -/
theorem test_crc_check_agrees :
    goes (exec .crcCheck (source (holding 0x100 patOne) 0x100 16))
      (fun t => t.result == 0x2AB104B2 && t.status.code == .ok) = true := by
  decide +kernel

/-- V-CRC-17. -/
theorem test_crc_check_differs :
    goes (exec .crcCheck (source (holding 0x100 patBad) 0x100 16))
      (fun t => t.result == 0 && t.status.code == .invalidData) = true := by
  decide +kernel

/-- V-CRC-20. -/
theorem test_crc_seal :
    goes (exec .crcSeal (source (holding 0x100 (patOne.take 12)) 0x100 12))
      (fun t => t.mem.readBytes 0x10C 4 == [0x2A, 0xB1, 0x04, 0xB2] && t.crcAcc == 0xFFFFFFFF) = true := by
  decide +kernel

/-- V-CRC-22. -/
theorem test_crc_seal_past_memory :
    goes (exec .crcSeal (source State.reset 0xFFFC 1))
      (fun t => t.mem == [] && t.status.code == .invalidArgument) = true := by
  decide +kernel

/-- V-CUR-1. -/
theorem test_cur_init :
    goes (exec .curInit { twoRanges 40 with cur := { pos := 40, err := true } })
      (fun t => t.result == 5 && t.cur.pos == 0 && !t.cur.err && t.readReg .curTotal == 5) = true := by
  decide +kernel

/-- V-CUR-18. -/
theorem test_cur_init_outside :
    goes (exec .curInit { twoRanges 40 with curRegs := { base0 := 0xFFFF, len0 := 2 } })
      (fun t => t.cur == (twoRanges 40).cur && t.status.code == .invalidArgument) = true := by
  decide +kernel

/-- V-CUR-4: the read crosses from range 0 into range 1. -/
theorem test_cur_read_crosses :
    goes (exec (.curRead 12) (twoRanges 20))
      (fun t => t.result == 0xE01 && t.cur.pos == 32) = true := by
  decide +kernel

/-- V-CUR-9. -/
theorem test_cur_read_40 :
    goes (exec (.curRead 40) (twoRanges 0))
      (fun t => t.result == 0x3C7E01FF && t.resultHi == 0xA5 && t.cur.pos == 40) = true := by
  decide +kernel

/-- V-CUR-15: the bit offset is kept. -/
theorem test_cur_skip :
    goes (exec (.curSkip 1) (twoRanges 4)) (fun t => t.cur.pos == 12 && t.result == 12) = true := by
  decide +kernel

/-- V-CUR-12. -/
theorem test_cur_skip_past_end :
    goes (exec (.curSkip 1) (twoRanges 40))
      (fun t => t.cur.pos == 40 && t.cur.err && t.status.code == .invalidData) = true := by
  decide +kernel

/-- V-CUR-13. -/
theorem test_cur_seek_end :
    goes (exec (.curSeek 5) (twoRanges 0)) (fun t => t.cur.pos == 40 && !t.cur.err) = true := by
  decide +kernel

/-- V-CUR-14. -/
theorem test_cur_seek_past_end :
    goes (exec (.curSeek 6) (twoRanges 0)) (fun t => t.cur.pos == 0 && t.cur.err) = true := by
  decide +kernel

/-- V-TS-8. -/
theorem test_ts_enc_pts :
    goes (exec (.tsEnc .pts 2)
      { window State.reset 0x200 5 with pes := { pts := 0x123456789, dts := 1 } })
      (fun t => t.mem.readBytes 0x200 5 == [0x29, 0x8D, 0x15, 0xCF, 0x13] && t.result == 5) = true := by
  decide +kernel

/-- V-TS-4. -/
theorem test_ts_enc_dts :
    goes (exec (.tsEnc .dts 1) { window State.reset 0x200 5 with pes := { pts := 1, dts := 86400 } })
      (fun t => t.mem.readBytes 0x200 5 == [0x11, 0x00, 0x05, 0xA3, 0x01]) = true := by
  decide +kernel

/-- V-TS-18. -/
theorem test_ts_dec :
    goes (exec .tsDec (overBytes [0x29, 0x8D, 0x15, 0xCF, 0x13]))
      (fun t => t.result == 0x23456789 && t.resultHi == 0x21 && t.cur.pos == 40) = true := by
  decide +kernel

/-- V-TS-20: wrong markers are flagged, not refused. -/
theorem test_ts_dec_markers :
    goes (exec .tsDec (overBytes [0x20, 0x00, 0x04, 0x00, 0x00]))
      (fun t => t.result == 0x10000 && t.resultHi == 0x20 && t.status.markerErr &&
        t.status.code == .ok) = true := by
  decide +kernel

/-- V-PESW-7. -/
theorem test_pes_write :
    goes (exec (.pesWrite false)
      { window State.reset 0x200 64 with
        pes := { sid := 0xC0, pts := 1000, dts := 2000, payloadLen := 10 } })
      (fun t => t.mem.readBytes 0x200 19 ==
        [0x00, 0x00, 0x01, 0xC0, 0x00, 0x17, 0x80, 0xC0, 0x0A, 0x31, 0x00, 0x01, 0x07, 0xD1, 0x11,
          0x00, 0x01, 0x0F, 0xA1] && t.result == 19 && t.pes.opt == 0xC0 && t.pes.hdrLen == 10) =
      true := by
  decide +kernel

/-- V-PESW-11: a length that does not fit, on audio. -/
theorem test_pes_write_long_audio :
    goes (exec (.pesWrite false)
      { window State.reset 0x200 64 with
        pes := { sid := 0xC0, pts := 0, dts := 0, payloadLen := 0xFFF8 } })
      (fun t => t.status.code == .invalidArgument && t.mem == []) = true := by
  decide +kernel

/-- V-PESR-5: every optional field. -/
theorem test_pes_read_every_field :
    goes (exec (.pesRead .auto) (overBytes pesEvery))
      (fun t => t.result == 30 && t.resultHi == 0 && t.pes ==
        { sid := 0xE0, pktLen := 0x18, flags := 0x3F, opt := 0x10BF, hdrLen := 0x15, pts := 90000,
          dts := 90000, escrBase := 0x123456789, escrExt := 0x155, esRate := 0x1ABCD, trick := 0x55,
          addCopy := 0x2A, prevCrc := 0xBEEF,
          stdBuf := { valid := true, scale := true, size := 0x123 } }) = true := by
  decide +kernel

/-- V-PESR-15: MPEG-1. -/
theorem test_pes_read_mpeg1 :
    goes (exec (.pesRead .auto) (overBytes pesOld))
      (fun t => t.result == 15 && t.resultHi == 7 && t.status.mpeg1 &&
        t.readReg .stdBuf == 0x1202E && t.pes.pts == 90000 && t.pes.dts == 90000 &&
        t.pes.opt == 0x80) = true := by
  decide +kernel

/-- V-PSI-2. -/
theorem test_pat_write :
    goes (exec .patWrite
      { window State.reset 0x200 64 with
        pat := { tsid := 1, ver := 3, entries := [⟨0, 0x10⟩, ⟨1, 0x1000⟩, ⟨2, 0x1001⟩] } })
      (fun t => t.mem.readBytes 0x200 24 ==
        [0x00, 0xB0, 0x15, 0x00, 0x01, 0xC7, 0x00, 0x00, 0x00, 0x00, 0xE0, 0x10, 0x00, 0x01, 0xF0, 0x00] ++
          [0x00, 0x02, 0xF0, 0x01, 0x32, 0xA3, 0x5D, 0x1A] &&
        t.result == 24 && t.resultHi == 0x32A35D1A) = true := by
  decide +kernel

/-- V-PSIR-1. -/
theorem test_pat_read :
    goes (exec .patRead (overBytes patOne))
      (fun t => t.pat == { tsid := 1, ver := 0, valid := true, entries := [⟨1, 0x1000⟩] } &&
        t.result == 16 && t.resultHi == 1 && t.cur.pos == 128) = true := by
  decide +kernel

/-- V-PSIR-6, L1-2: a corrupted section. -/
theorem test_pat_read_corrupt :
    goes (exec .patRead (overBytes patBad))
      (fun t => t.status.code == .invalidData && t.pat == {} && !t.cur.err && t.cur.pos == 0) = true := by
  decide +kernel

/-- A PMT of one stream whose descriptors lie at 0x500 and 0x510 (V-PSI-5, program P4). -/
def pmtStaged : State :=
  { window State.reset 0x600 64 with
    mem := Memory.writeBytes (Memory.writeBytes [] 0x500 [0x05, 0x04, 0x48, 0x44, 0x4D, 0x56]) 0x510
      [0x0A, 0x04, 0x65, 0x6E, 0x67, 0x00]
    pmt := { prog := 1, ver := 1, pcrPid := 0x100, pinfoAddr := 0x500, pinfoLen := 6
             entries := [⟨0x1B, 0x100, 0x510, 6⟩] } }

/-- V-PSI-5. -/
theorem test_pmt_write :
    goes (exec .pmtWrite pmtStaged)
      (fun t => t.mem.readBytes 0x600 33 == pmtInfo && t.result == 33 && t.resultHi == 0xBE5C54CC) =
      true := by
  decide +kernel

/-- V-PSIR-14. -/
theorem test_pmt_read :
    goes (exec .pmtRead (window (overBytes pmtInfo) 0x10 12))
      (fun t => t.pmt ==
        { prog := 1, ver := 1, valid := true, pcrPid := 0x100, pinfoAddr := 0x10, pinfoLen := 6
          entries := [⟨0x1B, 0x100, 0x16, 6⟩] } &&
        t.mem.readBytes 0x10 12 ==
          [0x05, 0x04, 0x48, 0x44, 0x4D, 0x56, 0x0A, 0x04, 0x65, 0x6E, 0x67, 0x00] &&
        t.result == 33 && t.resultHi == 12) = true := by
  decide +kernel

/-- V-PSIR-15: an arena one byte too small. -/
theorem test_pmt_read_small_arena :
    goes (exec .pmtRead (window (overBytes pmtInfo) 0x10 11))
      (fun t => t.status.code == .outOfMemory && t.mem == (overBytes pmtInfo).mem && t.cur.pos == 0) =
      true := by
  decide +kernel

/-- A PSM of one stream, descriptors at 0x500 and 0x510 (V-PSI-7). -/
def psmStaged : State :=
  { window State.reset 0x600 64 with
    mem := Memory.writeBytes (Memory.writeBytes [] 0x500 [0x01, 0x02]) 0x510 [0x0A, 0x01, 0x00]
    psm := { ver := 1, sext := true, pinfoAddr := 0x500, pinfoLen := 2
             entries := [⟨0x1B, 0xE0, 0x510, 3⟩] } }

/-- V-PSI-7. -/
theorem test_psm_write :
    goes (exec .psmWrite psmStaged)
      (fun t => t.mem.readBytes 0x600 25 == psmInfo && t.result == 25 && t.resultHi == 0xF9FB918D) =
      true := by
  decide +kernel

/-- V-PSIR-21. -/
theorem test_psm_read :
    goes (exec .psmRead (window (overBytes psmInfo) 0 5))
      (fun t => t.psm ==
        { ver := 1, sext := true, valid := true, pinfoAddr := 0, pinfoLen := 2
          entries := [⟨0x1B, 0xE0, 2, 3⟩] } &&
        t.mem.readBytes 0 5 == [0x01, 0x02, 0x0A, 0x01, 0x00] && t.resultHi == 5) = true := by
  decide +kernel

/-- V-PSIR-23. -/
theorem test_psm_read_marker :
    goes (exec .psmRead (window (overBytes psmMarker) 0x800 0))
      (fun t => t.status.code == .ok && t.status.markerErr && t.psm.entries.length == 2) = true := by
  decide +kernel

/-- V-TBL-7. -/
theorem test_tbl_clear :
    goes (exec (.tblClear .pmt)
      { State.reset with pmt := { ver := 5, valid := true, entries := [⟨1, 2, 3, 4⟩] } })
      (fun t => t.readReg .pmtVer == 0x005 && t.readReg .pmtCount == 0) = true := by
  decide +kernel

/-- V-TBL-5: the host's write of ENT_A and ENT_B drops the high bits, `TBL_ADD` those of stream_type. -/
theorem test_tbl_add :
    goes (exec (.tblAdd .pmt)
      { ((State.reset.writeReg .entA 0x1FF1B).writeReg .entB 0xFFFF) with
        pat := { entries := [⟨1, 1⟩] } })
      (fun t => t.pmt.entries == [⟨0x1B, 0x1FFF, 0, 0⟩] && t.result == 1) = true := by
  decide +kernel

/-- V-TBL-2. -/
theorem test_tbl_get :
    goes (exec (.tblGet .pat 0)
      { State.reset with pat := { entries := [⟨1, 0x1000⟩] }, ent := { addr := 7, len := 7 } })
      (fun t => t.ent == { a := 1, b := 0x1000 } && t.result == 1) = true := by
  decide +kernel

/-- V-TBL-3. -/
theorem test_tbl_get_past_last :
    goes (exec (.tblGet .pat 1) { State.reset with pat := { entries := [⟨1, 0x1000⟩] } })
      (fun t => t.ent == {} && t.status.code == .invalidArgument) = true := by
  decide +kernel

/-! ### The host's accesses -/

/-- V-CTL-3. -/
theorem test_host_clears_marker :
    goes (step (playing { State.reset with status := { markerErr := true, mpeg1 := true } }
      (wr .status 0x20)))
      (fun t => !t.status.markerErr && t.status.mpeg1) = true := by
  decide +kernel

/-- V-CTL-5, V-CTL-7. -/
theorem test_host_writes :
    goes (step (playing State.reset (wr .result 5))) (fun t => t.result == 0) = true ∧
    goes (step (playing State.reset (wr .pesSid 0x1E0))) (fun t => t.readReg .pesSid == 0xE0) = true := by
  decide +kernel

/-- V-CTL-6, V-CTL-8. -/
theorem test_host_reads :
    goes (step (playing State.reset (.regRead 4 0x028)))
      (fun t => t.reads == [.reg 0x028 0]) = true ∧
    goes (step (playing State.reset (rd .ptsHi)))
      (fun t => t.reads == [.reg 0x098 0x80000000]) = true := by
  decide +kernel

/-- A CMD write is the first step after reset: V-CTL-10, and V-CTL-2. -/
theorem test_first_command :
    goes (step (State.reset.withFetchWord 32 0x11000001))
      (fun t => t.cur.err && t.cmd == 0x11000001 && t.pc == 1) = true ∧
    goes (step (State.reset.withFetchWord 32 0x38030000))
      (fun t => t.status.code == .invalidArgument && t.cmd == 0x38030000) = true := by
  decide +kernel

/-! ### Witnesses: for each obligation with hypotheses, states and operands that meet them, clause by clause -/

/-- An outcome that goes on, as an equation. -/
theorem next_of {o : Host.Outcome State Fault Refusal} (h : goes o (fun _ => true) = true) :
    o = .next (after o) := by
  cases o <;> first | rfl | simp [goes] at h

theorem reads_by {s : State} {b : List Byte}
    (h : s.cur.pos.toNat % 8 = 0 ∧ s.cur.err = false ∧
      s.cur.pos.toNat / 8 + b.length ≤ s.cur.total ∧
      s.curBytes (s.cur.pos.toNat / 8) b.length = b) : Reads s b :=
  ⟨h.1, h.2.1, h.2.2.1, h.2.2.2⟩

theorem arena_by {s : State}
    (h : WindowInMem s ∧ ¬ WindowOverlaps s s.cur.base0.toNat s.cur.len0.toNat ∧
      ¬ WindowOverlaps s s.cur.base1.toNat s.cur.len1.toNat) : ArenaOk s :=
  ⟨h.1, h.2.1, h.2.2⟩

theorem patOk_by {b : List Byte}
    (h : byteAt b 0 = 0x00 ∧ (byteAt b 1).getLsbD 7 = true ∧ b.length = 3 + (field12 b 1).toNat ∧
      9 ≤ (field12 b 1).toNat ∧ (field12 b 1).toNat ≤ 1021 ∧ ((field12 b 1).toNat - 9) % 4 = 0 ∧
      crcAgrees b) : PatOk b :=
  ⟨h.1, h.2.1, h.2.2.1, h.2.2.2.1, h.2.2.2.2.1, h.2.2.2.2.2.1, h.2.2.2.2.2.2⟩

theorem pmtOk_by {b : List Byte}
    (h : byteAt b 0 = 0x02 ∧ (byteAt b 1).getLsbD 7 = true ∧ b.length = 3 + (field12 b 1).toNat ∧
      13 ≤ (field12 b 1).toNat ∧ (field12 b 1).toNat ≤ 1021 ∧ crcAgrees b) : PmtOk b :=
  ⟨h.1, h.2.1, h.2.2.1, h.2.2.2.1, h.2.2.2.2.1, h.2.2.2.2.2⟩

theorem psmOk_by {b : List Byte}
    (h : b.take 4 = [0x00, 0x00, 0x01, 0xBC] ∧ b.length = 6 + (field16 b 4).toNat ∧
      10 ≤ (field16 b 4).toNat ∧ (field16 b 4).toNat ≤ 1018 ∧ crcAgrees b) : PsmOk b :=
  ⟨h.1, h.2.1, h.2.2.1, h.2.2.2.1, h.2.2.2.2⟩

/-- Reset, all of a 4 GiB memory, to reach the bound of `CUR_INIT`. -/
def wide : State := { State.reset with params := { State.reset.params with memBytes := 2 ^ 32 } }

/-! #### Words and steps -/

theorem witness_DecodeEncode : Instr.wf (.curRead 64) = true := by decide

theorem witness_EncodeDecode : decode 0x11000040 = .ok (.curRead 64) := rfl

theorem witness_WordNamesOneCommand :
    decode 0x11000001 = .ok (.curRead 1) ∧ (Instr.curRead 1).row ∈ opcodeRows :=
  ⟨rfl, by decide⟩

theorem witness_StepRunsDecodedCommand :
    (playing State.reset (command 0x3A02FFFF)).host[0]? = some (command 0x3A02FFFF) ∧
      decode 0x3A02FFFF = .ok (.tblGet .psm 0xFFFF) := ⟨rfl, rfl⟩

theorem witness_IllegalWordOnlySetsCode :
    (playing State.reset (command 0x11000041)).host[0]? = some (command 0x11000041) ∧
      decode 0x11000041 = .error .reservedField := ⟨rfl, rfl⟩

/-- The first and the last register of each kind, and offsets between and after them. -/
theorem witness_HostRegisterWrite :
    (playing State.reset (.regWrite 4 0x14C 5)).host[0]? = some (.regWrite 4 0x14C 5) ∧
    (regAt 0x008 = some .srcAddr ∧ regAccess .srcAddr = .rw ∧ (0x008#9).toNat % 4 = 0) ∧
    (regAt 0x14C = some .entLen ∧ regAccess .entLen = .rw ∧ (0x14C#9).toNat % 4 = 0) ∧
    (regAt 0x018 = some .result ∧ regAccess .result = .ro) ∧
    (regAt 0x13C = some .psmCount ∧ regAccess .psmCount = .ro) ∧
    regAt 0x004 = some .status ∧ regAt 0x000 = some .cmd ∧ regAt 0x028 = none ∧
    regAt 0x1FC = none := by
  decide +kernel

theorem witness_HostRegisterWrite_other :
    (playing State.reset (.memWrite 0 [1])).host[0]? = some (.memWrite 0 [1]) ∧
    step (playing State.reset (.memWrite 0 [1])) =
      .next (after (step (playing State.reset (.memWrite 0 [1])))) :=
  ⟨rfl, next_of (by decide +kernel)⟩

theorem witness_HostRegisterRead :
    (playing State.reset (rd .curTotal)).host[0]? = some (.regRead 4 0x044) ∧
    regAt 0x044 = some .curTotal ∧ (0x044#9).toNat % 4 = 0 ∧
    (playing State.reset (.regRead 4 0x150)).host[0]? = some (.regRead 4 0x150) ∧
    regAt 0x150 = none ∧ (0x150#9).toNat % 4 = 0 := by
  decide +kernel

/-- A row of the map, an offset that names a register, and an access of each kind that is refused. -/
theorem witness_RegisterSpace :
    (⟨0x00C, .srcLen, .rw, 0xFFFFFFFF, 0⟩ : RegRow) ∈ registerMap ∧ regAt 0x14C = some .entLen ∧
    (playing State.reset (.regWrite 2 0x008 5)).host[0]? = some (.regWrite 2 0x008 5) ∧
    (playing State.reset (.regRead 4 0x009)).host[0]? = some (.regRead 4 0x009) ∧
    (0x009#9).toNat % 4 ≠ 0 := by
  decide +kernel

/-- The last byte of memory, and one byte more. -/
theorem witness_HostMemoryAccess :
    (playing State.reset (.memWrite 0xFFFF [1])).host[0]? = some (.memWrite 0xFFFF [1]) ∧
    (0xFFFF#32).toNat + [1#8].length ≤ State.reset.params.memBytes ∧
    State.reset.mem.wf = true ∧
    State.reset.params.memBytes < (0xFFFF#32).toNat + [1#8, 2].length ∧
    (playing State.reset (.memRead 0xFFFF 1)).host[0]? = some (.memRead 0xFFFF 1) ∧
    (0xFFFF#32).toNat + 1 ≤ State.reset.params.memBytes ∧
    State.reset.params.memBytes < (0xFFFF#32).toNat + 2 := by
  decide +kernel

theorem witness_ResetValues :
    (playing (twoRanges 8) .reset).host[0]? = some .reset := rfl

/-! #### Every command -/

theorem witness_OnlyListedCauses :
    exec .patRead (overBytes patBad) = .next (after (exec .patRead (overBytes patBad))) :=
  next_of (by decide +kernel)

theorem witness_StatusNeverRead :
    (overBytes pesOld).status.markerErr = false ∧
    exec (.pesRead .auto) (overBytes pesOld) =
      .next (after (exec (.pesRead .auto) (overBytes pesOld))) :=
  ⟨rfl, next_of (by decide +kernel)⟩

theorem witness_CrcStateOnlyInCrcRun :
    (∀ init, Instr.crcCheck ≠ .crcRun init) ∧
    exec .crcCheck (source (holding 0x100 patOne) 0x100 16) =
      .next (after (exec .crcCheck (source (holding 0x100 patOne) 0x100 16))) :=
  ⟨fun _ h => (by cases h), next_of (by decide +kernel)⟩

/-- At the end of the stream; and the errored cursor, each of its clauses. -/
theorem witness_CursorErrorIsSticky :
    (twoRanges 40).cur.total < 2 ^ 29 ∧ (twoRanges 40).cur.pos.toNat ≤ 8 * (twoRanges 40).cur.total ∧
    goes (exec (.curSkip 1) (twoRanges 40)) (fun t => t.cur.err) = true ∧
    goes (exec .curInit { twoRanges 40 with cur := { err := true } })
      (fun t => t.cur != { err := true } && t.status.code == .ok) = true ∧
    goes (exec (.curRead 1) { twoRanges 40 with cur := { err := true } }) (fun _ => true) = true ∧
    goes (exec .tsDec { twoRanges 40 with cur := { err := true } }) (fun _ => true) = true ∧
    isDecoder .tsDec = true := by
  decide +kernel

theorem witness_MarkerErrOnlySet :
    goes (exec .tsDec (overBytes [0x20, 0x00, 0x04, 0x00, 0x00])) (fun t => t.status.markerErr) = true ∧
    goes (exec .nop { State.reset with status := { markerErr := true } })
      (fun t => t.status.markerErr) = true := by
  decide +kernel

/-- Each unit's state does change, by its own command. -/
theorem witness_CommandsChangeTheirUnitOnly :
    goes (exec (.crcRun true) (source (holding 0x100 digits) 0x100 9))
      (fun t => t.crcAcc != 0xFFFFFFFF) = true ∧
    goes (exec (.pesRead .auto) (overBytes pesOld)) (fun t => t.pes != {} && t.cur.pos != 0) = true ∧
    goes (exec .patRead (overBytes patOne)) (fun t => t.pat != {}) = true ∧
    goes (exec (.tblAdd .pmt) State.reset) (fun t => t.pmt != {}) = true ∧
    goes (exec (.tblAdd .psm) State.reset) (fun t => t.psm != {}) = true ∧
    goes (exec (.tblGet .pat 0) { State.reset with pat := { entries := [⟨1, 2⟩] } })
      (fun t => t.ent != {}) = true := by
  decide +kernel

theorem witness_StoresOnlyWhereDeclared :
    goes (exec .pmtRead (window (overBytes pmtInfo) 0x10 12)) (fun t => t.status.code == .ok) = true ∧
    goes (exec .pmtRead (window (overBytes pmtInfo) 0x10 11)) (fun t => t.status.code != .ok) = true := by
  decide +kernel

/-- The last byte of the smallest and of the reference memory. -/
theorem witness_ResetMeetsInvariant :
    Config.reference.wf = true ∧ Memory.wf [(0xFFFF, 0x00)] = true ∧
    (∀ c ∈ ([(0xFFFF, 0x00)] : Memory), c.1 < Config.reference.memBytes) ∧
    Params.wf ⟨1, 1, 1, 1⟩ = true ∧ Memory.wf [(0, 0x00)] = true := by
  decide +kernel

/-- A `PAT_READ` about to be launched over a good section, and the step that runs it. -/
theorem witness_StepKeepsInvariant :
    (playing (overBytes patOne) (command 0x31000000)).Inv ∧
    step (playing (overBytes patOne) (command 0x31000000)) =
      .next (after (step (playing (overBytes patOne) (command 0x31000000)))) :=
  ⟨by constructor <;> decide +kernel, next_of (by decide +kernel)⟩

/-! #### CRC and cursor -/

theorem witness_CrcChaining :
    (source (holding 0x100 digits) 0x100 4).srcLen = 4 ∧
    (source (holding 0x100 digits) 0x100 4).srcAddr.toNat + (4#32).toNat + (5#32).toNat ≤
      (source (holding 0x100 digits) 0x100 4).params.memBytes ∧
    (source (holding 0x100 digits) 0x100 4).srcAddr.toNat + (4#32).toNat < 2 ^ 32 ∧
    exec (.crcRun true) (source (holding 0x100 digits) 0x100 4) =
      .next (after (exec (.crcRun true) (source (holding 0x100 digits) 0x100 4))) :=
  ⟨rfl, by decide +kernel, by decide +kernel, next_of (by decide +kernel)⟩

theorem witness_SealedResidue :
    15 < (sealed (patOne.take 12)).length ∧ (0x00 : Byte) ≠ byteAt (sealed (patOne.take 12)) 15 := by
  decide +kernel

theorem witness_CrcRunResult :
    InMem (source State.reset 0xFFFF 1) 0xFFFF 1 ∧ ¬ InMem (source State.reset 0xFFFF 2) 0xFFFF 2 := by
  decide +kernel

/-- A whole section, a corrupted one, the four bytes of an empty one, three bytes. -/
theorem witness_CrcCheckResult :
    ((holding 0x100 patOne).mem.readBytes 0x100 16 = patOne.take 12 ++ [0x2A, 0xB1, 0x04, 0xB2] ∧
      (crc32 0xFFFFFFFF (patOne.take 12)).toNat = rdBE [0x2A, 0xB1, 0x04, 0xB2]) ∧
    ((holding 0x100 patBad).mem.readBytes 0x100 16 = patBad.take 12 ++ [0x2A, 0xB1, 0x04, 0xB2] ∧
      (crc32 0xFFFFFFFF (patBad.take 12)).toNat ≠ rdBE [0x2A, 0xB1, 0x04, 0xB2]) ∧
    (State.reset.mem.readBytes 0xFFFC 4 = [] ++ [0xFF, 0xFF, 0xFF, 0xFF] ∧
      InMem State.reset 0xFFFC 4 ∧
      (crc32 0xFFFFFFFF []).toNat = rdBE [0xFF, 0xFF, 0xFF, 0xFF]) ∧
    (source State.reset 0 3).srcLen.toNat < 4 ∧ ¬ InMem State.reset 0xFFFD 4 := by
  decide +kernel

theorem witness_CrcSealResult :
    State.reset.mem.wf = true ∧ InMem (source State.reset 0xFFFB 1) 0xFFFB (1 + 4) ∧
    ¬ InMem (source State.reset 0xFFFC 1) 0xFFFC (1 + 4) := by
  decide +kernel

/-- The longest stream and one byte more. -/
theorem witness_CurInitResult :
    (InMem wide 0 0x1FFFFFFF ∧ (0x1FFFFFFF#32).toNat + (0#32).toNat < 2 ^ 29) ∧
    ¬ ((0x1FFFFFFF#32).toNat + (1#32).toNat < 2 ^ 29) ∧
    InMem State.reset 0xFFFF 1 ∧ ¬ InMem State.reset 0xFFFF 2 := by
  decide +kernel

theorem witness_CurReadResult :
    ((twoRanges 39).cur.err = false ∧
      (twoRanges 39).cur.pos.toNat + (1#7).toNat ≤ 8 * (twoRanges 39).cur.total) ∧
    (8 * (twoRanges 0).cur.total < (twoRanges 0).cur.pos.toNat + (64#7).toNat) ∧
    ((overBytes pesOld).cur.pos.toNat + (64#7).toNat ≤ 8 * (overBytes pesOld).cur.total) ∧
    { twoRanges 0 with cur := { err := true } }.cur.err = true := by
  decide +kernel

theorem witness_CurSkipSeekResult :
    ((twoRanges 8).cur.err = false ∧
      (twoRanges 8).cur.pos.toNat + 8 * (4#24).toNat ≤ 8 * (twoRanges 8).cur.total) ∧
    (8 * (twoRanges 8).cur.total < (twoRanges 8).cur.pos.toNat + 8 * (5#24).toNat) ∧
    (5#24).toNat ≤ (twoRanges 8).cur.total ∧ (twoRanges 8).cur.total < (6#24).toNat := by
  decide +kernel

/-- One byte too few for each decoder, an unaligned cursor, a cursor in error. -/
theorem witness_DecoderProtocol :
    ((overBytes [1, 2, 3, 4]).cur.pos.toNat % 8 = 0 ∧ (overBytes [1, 2, 3, 4]).cur.err = false ∧
      (overBytes [1, 2, 3, 4]).cur.total < (overBytes [1, 2, 3, 4]).cur.pos.toNat / 8 + 5) ∧
    (overBytes [0, 0, 1, 0xE0, 0]).cur.total < 0 + 6 ∧ (overBytes [0, 0xB0]).cur.total < 0 + 3 ∧
    (twoRanges 12).cur.pos.toNat % 8 ≠ 0 ∧
    ({ twoRanges 8 with cur := { err := true } }.cur.pos.toNat % 8 = 0 ∧
      { twoRanges 8 with cur := { err := true } }.cur.err = true) := by
  decide +kernel

theorem witness_DecoderProtocol_arena :
    ArenaOk (window (overBytes [2, 0xB0]) 0x102 4) ∧ (overBytes [2, 0xB0]).cur.total < 0 + 3 ∧
    ArenaOk (window (overBytes [0, 0, 1, 0xBC, 0]) 0x105 4) ∧
    (overBytes [0, 0, 1, 0xBC, 0]).cur.total < 0 + 6 :=
  ⟨arena_by (by decide +kernel), by decide +kernel, arena_by (by decide +kernel), by decide +kernel⟩

/-- Each section and header with its last byte missing. -/
theorem witness_TruncatedInput_pat :
    Reads (overBytes (patOne.take 15)) (patOne.take 3) ∧
    (byteAt (patOne.take 3) 0 = 0x00 ∧ (byteAt (patOne.take 3) 1).getLsbD 7 = true ∧
      9 ≤ (field12 (patOne.take 3) 1).toNat ∧ (field12 (patOne.take 3) 1).toNat ≤ 1021 ∧
      ((field12 (patOne.take 3) 1).toNat - 9) % 4 = 0 ∧
      (overBytes (patOne.take 15)).cur.total < 0 + 3 + (field12 (patOne.take 3) 1).toNat) :=
  ⟨reads_by (by decide +kernel), by decide +kernel⟩

theorem witness_TruncatedInput_pmt :
    ArenaOk (window (overBytes (pmtTwo.take 25)) 0x800 0) ∧
    Reads (window (overBytes (pmtTwo.take 25)) 0x800 0) (pmtTwo.take 3) ∧
    (byteAt (pmtTwo.take 3) 0 = 0x02 ∧ (byteAt (pmtTwo.take 3) 1).getLsbD 7 = true ∧
      13 ≤ (field12 (pmtTwo.take 3) 1).toNat ∧ (field12 (pmtTwo.take 3) 1).toNat ≤ 1021 ∧
      (overBytes (pmtTwo.take 25)).cur.total < 0 + 3 + (field12 (pmtTwo.take 3) 1).toNat) :=
  ⟨arena_by (by decide +kernel), reads_by (by decide +kernel), by decide +kernel⟩

theorem witness_TruncatedInput_psm :
    ArenaOk (window (overBytes (psmInfo.take 24)) 0x800 0) ∧
    Reads (window (overBytes (psmInfo.take 24)) 0x800 0) (psmInfo.take 6) ∧
    ((psmInfo.take 6).take 4 = [0x00, 0x00, 0x01, 0xBC] ∧
      10 ≤ (field16 (psmInfo.take 6) 4).toNat ∧ (field16 (psmInfo.take 6) 4).toNat ≤ 1018 ∧
      (overBytes (psmInfo.take 24)).cur.total < 0 + 6 + (field16 (psmInfo.take 6) 4).toNat) :=
  ⟨arena_by (by decide +kernel), reads_by (by decide +kernel), by decide +kernel⟩

theorem witness_TruncatedInput_pes :
    Reads (overBytes (pesEvery.take 29)) (pesEvery.take 9) ∧
    ((pesEvery.take 9).take 3 = [0x00, 0x00, 0x01] ∧ hdrBearing (byteAt (pesEvery.take 9) 3) = true ∧
      Layout.auto ≠ .mpeg1 ∧ (byteAt (pesEvery.take 9) 6).extractLsb' 6 2 = 0b10 ∧
      (byteAt (pesEvery.take 9) 7).extractLsb' 6 2 ≠ 0b01 ∧
      (overBytes (pesEvery.take 29)).cur.total < 0 + 9 + (byteAt (pesEvery.take 9) 8).toNat) :=
  ⟨reads_by (by decide +kernel), by decide +kernel⟩

/-- The forbidden PTS_DTS_flags, the optional area missing. -/
theorem witness_TruncatedInput_flags :
    Reads (overBytes [0, 0, 1, 0xE0, 0, 8, 0x80, 0x40, 5]) [0, 0, 1, 0xE0, 0, 8, 0x80, 0x40, 5] ∧
    (0x80#8).extractLsb' 6 2 = 0b10 ∧ (0x40#8).extractLsb' 6 2 = 0b01 ∧
    (overBytes [0, 0, 1, 0xE0, 0, 8, 0x80, 0x40, 5]).cur.total < 0 + 9 + (5#8).toNat :=
  ⟨reads_by (by decide +kernel), by decide, by decide, by decide⟩

/-- The stream ends after byte 5, and after byte 7. -/
theorem witness_TruncatedInput_body :
    Reads (overBytes [0, 0, 1, 0xE0, 0, 8]) [0, 0, 1, 0xE0, 0, 8] ∧ hdrBearing 0xE0 = true ∧
    (overBytes [0, 0, 1, 0xE0, 0, 8]).cur.total = 0 + 6 ∧
    Reads (overBytes [0, 0, 1, 0xE0, 0, 8, 0x80, 0]) [0, 0, 1, 0xE0, 0, 8, 0x80] ∧
    (overBytes [0, 0, 1, 0xE0, 0, 8, 0x80, 0]).cur.total < 0 + 9 :=
  ⟨reads_by (by decide +kernel), by decide, by decide, reads_by (by decide +kernel), by decide⟩

/-- `b` is a proper prefix, past byte 5, of an MPEG-1 header, and the whole stream. -/
abbrev CutMpeg1 (b : List Byte) (n : Nat) (std : Option (Bool × BitVec 13)) (st : Mpeg1Stamps) : Prop :=
  Reads (overBytes b) b ∧ 6 ≤ b.length ∧ b <+: mpeg1Header 0xE0 0x10 n std st ∧
    b ≠ mpeg1Header 0xE0 0x10 n std st ∧ (overBytes b).cur.total = 0 + b.length

/-- Stuffing to the end, a cut STD buffer, a cut DTS. -/
theorem witness_TruncatedInput_mpeg1 :
    CutMpeg1 [0, 0, 1, 0xE0, 0, 0x10, 0xFF, 0xFF] 2 none .none ∧
    CutMpeg1 [0, 0, 1, 0xE0, 0, 0x10, 0x60] 0 (some (true, 0x2E)) .none ∧
    CutMpeg1 [0, 0, 1, 0xE0, 0, 0x10, 0x31, 0, 0x0B, 0x7E, 0x41, 0x11] 0 none
      (.both [0x31, 0x00, 0x0B, 0x7E, 0x41] [0x11, 0x00, 0x05, 0xBF, 0x21]) :=
  ⟨⟨reads_by (by decide +kernel), by decide +kernel⟩, ⟨reads_by (by decide +kernel), by decide +kernel⟩,
    reads_by (by decide +kernel), by decide +kernel⟩

/-! #### Timestamps and PES headers -/

/-- A window that ends at the end of memory, one past it, one byte too small. -/
theorem witness_TsEncResult :
    (State.reset.mem.wf = true ∧ WindowInMem (window State.reset 0xFFFB 5) ∧
      (0 : BitVec 64) ≠ noValue ∧ 5 ≤ (window State.reset 0xFFFB 5).dstCap.toNat) ∧
    ¬ WindowInMem (window State.reset 0xFFFC 5) ∧ State.reset.pes.pts = noValue ∧
    (WindowInMem (window State.reset 0xFFFC 4) ∧
      (window State.reset 0xFFFC 4).dstCap.toNat < 5) := by
  decide +kernel

theorem witness_TsDecResult :
    Reads (overBytes [0x20, 0x00, 0x04, 0x00, 0x00]) [0x20, 0x00, 0x04, 0x00, 0x00] :=
  reads_by (by decide +kernel)

/-- A video stream, UNB and not; the longest bounded audio length; a window just large enough. -/
theorem witness_PesWriteResult :
    (hdrBearing 0xE0 = true ∧ WindowInMem (window State.reset 0xFFF7 9) ∧ isVideo 0xE0 = true ∧
      9 + 0 ≤ (window State.reset 0xFFF7 9).dstCap.toNat ∧ State.reset.pes.dts = noValue) ∧
    (hdrBearing 0xC0 = true ∧ ¬ (0xFFFF < 3 + 5 + (0xFFF7#32).toNat) ∧ isVideo 0xC0 = false ∧
      9 + 5 ≤ (window State.reset 0 14).dstCap.toNat) := by
  decide +kernel

theorem witness_PesWriteFailures :
    hdrBearing 0xBC = false ∧ hdrBearing 0xBB = false ∧ ¬ WindowInMem (window State.reset 0xFFF8 9) ∧
    ((0 : BitVec 64) ≠ noValue ∧ State.reset.pes.pts = noValue) ∧
    (isVideo 0xC0 = false ∧ 0xFFFF < 3 + 5 + (0xFFF8#32).toNat) ∧
    (hdrBearing 0xE0 = true ∧ WindowInMem (window State.reset 0 13) ∧
      (window State.reset 0 13).dstCap.toNat < 9 + 5) := by
  decide +kernel

theorem witness_PesReadNoHeader :
    noHdr 0xBE = true ∧ Reads (overBytes (pesStart 0xBE 4)) (pesStart 0xBE 4) :=
  ⟨by decide, reads_by (by decide +kernel)⟩

theorem witness_PesReadMpeg2 :
    Layout.auto ≠ .mpeg1 ∧ hdrBearing 0xE0 = true ∧ everyField.length ≤ 255 ∧
    Reads (overBytes pesEvery) (mpeg2Header 0xE0 0x18 0x3F 0xBF everyField) ∧
    (0xBF#8).extractLsb' 6 2 ≠ 0b01 ∧ optionalEnd 0xBF everyField = everyField.length ∧
    3 + everyField.length = (0x18#16).toNat :=
  ⟨by decide, by decide, by decide, reads_by (by decide +kernel), by decide, by decide +kernel,
    by decide⟩

/-- The forbidden flags, a field that does not fit by one byte, a length one too small. -/
theorem witness_PesReadMpeg2_rejects :
    Reads (overBytes (mpeg2Header 0xE0 0 0 0x40 [])) (mpeg2Header 0xE0 0 0 0x40 []) ∧
    (0x40#8).extractLsb' 6 2 = 0b01 ∧
    Reads (overBytes (mpeg2Header 0xE0 0 0 0x80 [1, 2, 3, 4])) (mpeg2Header 0xE0 0 0 0x80 [1, 2, 3, 4]) ∧
    [1#8, 2, 3, 4].length < optionalEnd 0x80 [1, 2, 3, 4] ∧
    Reads (overBytes (mpeg2Header 0xE0 2 0 0 [])) (mpeg2Header 0xE0 2 0 0 []) ∧
    ((2 : BitVec 16) ≠ 0 ∧ (2#16).toNat < 3 + ([] : List Byte).length) :=
  ⟨reads_by (by decide +kernel), by decide, reads_by (by decide +kernel), by decide +kernel,
    reads_by (by decide +kernel), by decide⟩

theorem witness_PesReadMpeg1 :
    (Mpeg1Stamps.pts [0x21, 0x00, 0x05, 0xBF, 0x21]).wf ∧
    Reads (overBytes pesOld)
      (mpeg1Header 0xE0 0x10 2 (some (true, 0x2E)) (.pts [0x21, 0x00, 0x05, 0xBF, 0x21])) ∧
    pesOld.length < 2 ^ 29 ∧ pesOld.length - 6 ≤ (0x10#16).toNat ∧
    (Mpeg1Stamps.both [0x31, 0x00, 0x0B, 0x7E, 0x41] [0x11, 0x00, 0x05, 0xBF, 0x21]).wf ∧
    Reads (overBytes (mpeg1Header 0xC0 1 17 none .none)) (mpeg1Header 0xC0 1 17 none .none) ∧
    ((1 : BitVec 16) ≠ 0 ∧ (1#16).toNat < (mpeg1Header 0xC0 1 17 none .none).length - 6) :=
  ⟨by simp only [Mpeg1Stamps.wf]; decide, reads_by (by decide +kernel), by decide, by decide,
    by simp only [Mpeg1Stamps.wf]; decide, reads_by (by decide +kernel), by decide⟩

/-- A bad start code, a stream_id one too low, a forced MPEG-2 body that begins `0x0F`. -/
theorem witness_PesReadRejects :
    Reads (overBytes [0, 0, 2, 0xE0, 0, 0]) [0, 0, 2, 0xE0, 0, 0] ∧
    Reads (overBytes [0, 0, 1, 0xBB, 0, 0]) [0, 0, 1, 0xBB, 0, 0] ∧
    (byteAt [0, 0, 1, 0xBB, 0, 0] 3).toNat < 0xBC ∧
    Reads (overBytes [0, 0, 1, 0xE0, 0, 8, 0x0F, 0x80, 0]) [0, 0, 1, 0xE0, 0, 8, 0x0F, 0x80, 0] ∧
    (0x0F#8).extractLsb' 6 2 ≠ 0b10 :=
  ⟨reads_by (by decide +kernel), reads_by (by decide +kernel), by decide,
    reads_by (by decide +kernel), by decide⟩

/-- A forced MPEG-1 body that begins `0x80`, `0x80` after stuffing, a second STD buffer and stuffing after one. -/
theorem witness_PesReadRejects_mpeg1 :
    Reads (overBytes [0, 0, 1, 0xE0, 0, 5, 0x80]) (mpeg1Front 0xE0 5 0 none ++ [0x80]) ∧
    Reads (overBytes [0, 0, 1, 0xE0, 0, 5, 0xFF, 0x80]) (mpeg1Front 0xE0 5 1 none ++ [0x80]) ∧
    Reads (overBytes [0, 0, 1, 0xE0, 0, 5, 0x60, 0x2E, 0x60])
      (mpeg1Front 0xE0 5 0 (some (true, 0x2E)) ++ [0x60]) ∧
    Reads (overBytes [0, 0, 1, 0xE0, 0, 5, 0x60, 0x2E, 0xFF])
      (mpeg1Front 0xE0 5 0 (some (true, 0x2E)) ++ [0xFF]) ∧
    ∀ y ∈ [(0x80 : Byte), 0x60, 0xFF],
      y ≠ 0x0F ∧ y.extractLsb' 4 4 ≠ 0b0010 ∧ y.extractLsb' 4 4 ≠ 0b0011 :=
  ⟨reads_by (by decide +kernel), reads_by (by decide +kernel), reads_by (by decide +kernel),
    reads_by (by decide +kernel), by decide⟩

/-- A video header with PTS and DTS, staged. -/
def pesStaged : State :=
  { window State.reset 0x400 19 with
    pes := { sid := 0xE0, pts := 0x1FFFFFFFF, dts := 90000, flags := 0x3F } }

theorem witness_PesRoundTrip :
    pesStaged.mem.wf = true ∧ pesStaged.pes.pts.toNat < 2 ^ 33 ∧ pesStaged.pes.dts.toNat < 2 ^ 33 ∧
    exec (.pesWrite true) pesStaged = .next (after (exec (.pesWrite true) pesStaged)) ∧
    (after (exec (.pesWrite true) pesStaged)).status.code = .ok ∧
    Reads (overBytes ((after (exec (.pesWrite true) pesStaged)).mem.readBytes 0x400 19))
      ((after (exec (.pesWrite true) pesStaged)).mem.readBytes pesStaged.dstAddr.toNat
        (after (exec (.pesWrite true) pesStaged)).result.toNat) :=
  ⟨by decide +kernel, by decide +kernel, by decide +kernel, next_of (by decide +kernel),
    by decide +kernel, reads_by (by decide +kernel)⟩

/-! #### Tables and sections -/

/-- One entry short of its capacity, and at it. -/
theorem witness_TblAddResult :
    (State.reset.readReg .patCount).toNat ≠ State.reset.params.patCap ∧
    ∀ s, s = { State.reset with
        params := ⟨0x10000, 1, 1, 1⟩
        pat := { entries := [⟨1, 2⟩] }, pmt := { entries := [⟨1, 2, 3, 4⟩] }
        psm := { entries := [⟨1, 2, 3, 4⟩] } } →
      (s.readReg .patCount).toNat = s.params.patCap ∧
      (s.readReg .pmtCount).toNat = s.params.pmtCap ∧
      (s.readReg .psmCount).toNat = s.params.psmCap :=
  ⟨by decide +kernel, by rintro _ rfl; decide +kernel⟩

/-- The last entry of each table, and the index after it. -/
theorem witness_TblGetResult :
    ∀ s, s = { State.reset with
        pat := { entries := [⟨1, 2⟩] }, pmt := { entries := [⟨1, 2, 3, 4⟩] }
        psm := { entries := [⟨1, 2, 3, 4⟩] } } →
      ((0#16).toNat < (s.readReg .patCount).toNat ∧ s.pat.entries[0]? = some ⟨1, 2⟩) ∧
      ((0#16).toNat < (s.readReg .pmtCount).toNat ∧ s.pmt.entries[0]? = some ⟨1, 2, 3, 4⟩) ∧
      ((0#16).toNat < (s.readReg .psmCount).toNat ∧ s.psm.entries[0]? = some ⟨1, 2, 3, 4⟩) ∧
      (s.readReg .patCount).toNat ≤ (1#16).toNat ∧ (s.readReg .pmtCount).toNat ≤ (1#16).toNat ∧
      (s.readReg .psmCount).toNat ≤ (1#16).toNat := by
  rintro _ rfl
  decide +kernel

/-- The largest PAT and the smallest window for none; one too many, one too small. -/
theorem witness_PatWriteResult :
    9 + 4 * 253 ≤ 1021 ∧ 1021 < 9 + 4 * 254 ∧
    (State.reset.pat.entries.length = 0 ∧ State.reset.mem.wf = true ∧
      WindowInMem (window State.reset 0xFFF4 12) ∧
      12 + 4 * 0 ≤ (window State.reset 0xFFF4 12).dstCap.toNat) ∧
    ¬ WindowInMem (window State.reset 0xFFF4 13) ∧
    (window State.reset 0xFFF4 11).dstCap.toNat < 12 + 4 * 0 := by
  decide +kernel

theorem witness_PmtWriteResult :
    (pmtStaged.mem.wf = true ∧ WindowInMem (window pmtStaged 0x600 33) ∧
      RangeOk (window pmtStaged 0x600 33) 0x500 6 ∧
      (∀ e ∈ pmtStaged.pmt.entries, RangeOk (window pmtStaged 0x600 33) e.esAddr e.esLen) ∧
      13 + 6 + (pmtStaged.pmt.entries.map fun e => 5 + e.esLen.toNat).sum ≤ 1021 ∧
      3 + (13 + 6 + (pmtStaged.pmt.entries.map fun e => 5 + e.esLen.toNat).sum) = 33) ∧
    ¬ RangeOk (window pmtStaged 0x505 64) 0x500 6 ∧ ¬ RangeOk pmtStaged 0xFFFF 2 ∧
    (window pmtStaged 0x600 32).dstCap.toNat < 33 := by
  decide +kernel

theorem witness_PsmWriteResult :
    (psmStaged.mem.wf = true ∧ WindowInMem (window psmStaged 0x600 25) ∧
      RangeOk (window psmStaged 0x600 25) 0x500 2 ∧
      (∀ e ∈ psmStaged.psm.entries, RangeOk (window psmStaged 0x600 25) e.esAddr e.esLen) ∧
      6 + (10 + 2 + (psmStaged.psm.entries.map fun e => 4 + e.esLen.toNat).sum) = 25) ∧
    ¬ RangeOk (window psmStaged 0x501 64) 0x500 2 ∧ ¬ RangeOk psmStaged 0xFFFF 2 ∧
    (window psmStaged 0x600 24).dstCap.toNat < 25 := by
  decide +kernel

/-- A new table, the same table again, a table whose capacity the section exceeds. -/
theorem witness_PatReadResult :
    Reads (overBytes patOne) patOne ∧ PatOk patOne ∧ ((field12 patOne 1).toNat - 9) / 4 = 1 ∧
    (overBytes patOne).pat.valid = false ∧ (byteAt patOne 5).getLsbD 0 = true ∧
    (∀ p : Pat, p = { tsid := 1, ver := 0, valid := true } →
      p.valid = true ∧ (byteAt patOne 5).extractLsb' 1 5 = p.ver ∧ field16 patOne 3 = p.tsid) ∧
    1 ≤ (overBytes patOne).params.patCap ∧ ({ memBytes := 1, patCap := 0, pmtCap := 1, psmCap := 1 } : Params).patCap < 1 :=
  ⟨reads_by (by decide +kernel), patOk_by (by decide +kernel), by decide +kernel, rfl,
    by decide +kernel, by rintro _ rfl; decide +kernel, by decide +kernel, by decide⟩

theorem witness_PmtReadResult :
    ArenaOk (window (overBytes pmtInfo) 0xF4 12) ∧ Reads (window (overBytes pmtInfo) 0xF4 12) pmtInfo ∧
    PmtOk pmtInfo ∧ (field12 pmtInfo 10).toNat = 6 ∧ 12 + 6 ≤ pmtInfo.length - 4 ∧
    PmtStreams pmtInfo (pmtInfo.length - 4) (12 + 6) [⟨0x1B, 0x100, 23, 6⟩] ∧
    (window (overBytes pmtInfo) 0xF4 12).mem.wf = true ∧ (byteAt pmtInfo 5).getLsbD 0 = true ∧
    6 + 6 ≤ (window (overBytes pmtInfo) 0xF4 12).dstCap.toNat ∧
    (window (overBytes pmtInfo) 0xF4 11).dstCap.toNat < 6 + 6 :=
  ⟨arena_by (by decide +kernel), reads_by (by decide +kernel), pmtOk_by (by decide +kernel),
    by decide +kernel, by decide +kernel, by simp only [PmtStreams]; decide +kernel,
    by decide +kernel, by decide +kernel, by decide +kernel, by decide +kernel⟩

theorem witness_PsmReadResult :
    ArenaOk (window (overBytes psmInfo) 0xFB 5) ∧ Reads (window (overBytes psmInfo) 0xFB 5) psmInfo ∧
    PsmOk psmInfo ∧ (field16 psmInfo 8).toNat = 2 ∧ 12 + 2 ≤ psmInfo.length - 4 ∧
    12 + 2 + (field16 psmInfo (10 + 2)).toNat = psmInfo.length - 4 ∧
    PsmStreams psmInfo (psmInfo.length - 4) (12 + 2) [⟨0x1B, 0xE0, 18, 3⟩] ∧
    (window (overBytes psmInfo) 0xFB 5).mem.wf = true ∧ (byteAt psmInfo 6).getLsbD 7 = true ∧
    2 + 3 ≤ (window (overBytes psmInfo) 0xFB 5).dstCap.toNat ∧
    (window (overBytes psmInfo) 0xFB 4).dstCap.toNat < 2 + 3 :=
  ⟨arena_by (by decide +kernel), reads_by (by decide +kernel), psmOk_by (by decide +kernel),
    by decide +kernel, by decide +kernel, by decide +kernel,
    by simp only [PsmStreams]; decide +kernel, by decide +kernel, by decide +kernel,
    by decide +kernel, by decide +kernel⟩

/-- Two streams where one fits, and exactly two where two fit. -/
theorem witness_PmtReadResult_capacity :
    ∀ cap ∈ [1, 2], ∀ s, s = { window (overBytes pmtTwo) 0x800 0 with params := ⟨0x10000, 1, cap, 1⟩ } →
      ArenaOk s ∧ Reads s pmtTwo ∧ PmtOk pmtTwo ∧
      PmtStreams pmtTwo (pmtTwo.length - 4) 12 [⟨0x1B, 0x100, 17, 0⟩, ⟨0x0F, 0x101, 22, 0⟩] ∧
      s.pmt.valid = false ∧ (byteAt pmtTwo 5).getLsbD 0 = true ∧
      (s.params.pmtCap < 2 ↔ cap = 1) := by
  intro cap hc s hs
  subst hs
  refine ⟨arena_by ?_, reads_by ?_, pmtOk_by (by decide +kernel), ?_, ?_⟩
  · revert cap; decide +kernel
  · revert cap; decide +kernel
  · simp only [PmtStreams]; decide +kernel
  · revert cap; decide +kernel

theorem witness_PsmReadResult_capacity :
    ∀ cap ∈ [1, 2], ∀ s, s = { window (overBytes psmMarker) 0x800 0 with params := ⟨0x10000, 1, 1, cap⟩ } →
      ArenaOk s ∧ Reads s psmMarker ∧ PsmOk psmMarker ∧
      12 + (field16 psmMarker 10).toNat = psmMarker.length - 4 ∧
      PsmStreams psmMarker (psmMarker.length - 4) 12 [⟨0x1B, 0xE0, 16, 0⟩, ⟨0x0F, 0xC0, 20, 0⟩] ∧
      s.psm.valid = false ∧ (byteAt psmMarker 6).getLsbD 7 = true ∧
      (s.params.psmCap < 2 ↔ cap = 1) := by
  intro cap hc s hs
  subst hs
  refine ⟨arena_by ?_, reads_by ?_, psmOk_by (by decide +kernel), by decide +kernel, ?_, ?_⟩
  · revert cap; decide +kernel
  · revert cap; decide +kernel
  · simp only [PsmStreams]; decide +kernel
  · revert cap; decide +kernel

/-- A window that overlaps the stream by one byte; a wrong table id; a wrong CRC. -/
theorem witness_SectionReadersReject :
    ¬ ArenaOk (window (overBytes pmtInfo) 0xF4 13) ∧
    (Reads (overBytes patOne) [0x00, 0xB0, 0x0D] ∧ byteAt pmtTwo 0 ≠ 0x00) ∧
    (Reads (overBytes patBad) patBad ∧ ¬ crcAgrees patBad ∧
      patBad.length = 3 + (field12 patBad 1).toNat) :=
  ⟨fun h => absurd h.apart0 (by decide +kernel), ⟨reads_by (by decide +kernel), by decide +kernel⟩,
    reads_by (by decide +kernel), by decide +kernel, by decide +kernel⟩

/-- A stream loop that runs into the CRC (V-PSIR-16). -/
theorem witness_SectionReadersReject_pmt :
    Reads (window (overBytes pmtRunsOut) 0x800 0) pmtRunsOut ∧
    ArenaOk (window (overBytes pmtRunsOut) 0x800 0) ∧ PmtOk pmtRunsOut ∧
    ¬ ∃ items, PmtStreams pmtRunsOut (pmtRunsOut.length - 4)
      (12 + (field12 pmtRunsOut 10).toNat) items :=
  ⟨reads_by (by decide +kernel), arena_by (by decide +kernel), pmtOk_by (by decide +kernel), by
    rintro ⟨items, h⟩
    have h' := (pmtItems_eq_ok (fuel := 10) (by decide +kernel) (by decide +kernel)).2 h
    have e : pmtItems pmtRunsOut (pmtRunsOut.length - 4) 10 (12 + (field12 pmtRunsOut 10).toNat) =
        .error .invalidData := by rfl
    rw [e] at h'
    cases h'⟩

/-- A map that does not end at the CRC (V-PSIR-24). -/
theorem witness_SectionReadersReject_psm :
    Reads (window (overBytes psmLong) 0x800 0) psmLong ∧
    ArenaOk (window (overBytes psmLong) 0x800 0) ∧ PsmOk psmLong ∧
    12 + (field16 psmLong 8).toNat + (field16 psmLong (10 + (field16 psmLong 8).toNat)).toNat ≠
      psmLong.length - 4 :=
  ⟨reads_by (by decide +kernel), arena_by (by decide +kernel), psmOk_by (by decide +kernel),
    by decide +kernel⟩

/-- The staged tables, written; the reader's machine holds the section and has room for the table. -/
theorem witness_PatRoundTrip :
    ∀ s, s = { window State.reset 0x600 64 with pat := { tsid := 7, ver := 31, entries := [⟨1, 2⟩] } } →
      s.mem.wf = true ∧ s.pat.entries.length < 2 ^ 16 ∧
      goes (exec .patWrite s) (fun t => t.status.code == .ok) = true ∧
      Reads (overBytes ((after (exec .patWrite s)).mem.readBytes 0x600 16))
        ((after (exec .patWrite s)).mem.readBytes s.dstAddr.toNat
          (after (exec .patWrite s)).result.toNat) ∧
      State.reset.pat.valid = false ∧ s.pat.entries.length ≤ State.reset.params.patCap := by
  rintro _ rfl
  exact ⟨by decide +kernel, by decide +kernel, by decide +kernel, reads_by (by decide +kernel), rfl,
    by decide +kernel⟩

theorem witness_PmtRoundTrip :
    pmtStaged.mem.wf = true ∧ (window (overBytes pmtInfo) 0xF4 12).mem.wf = true ∧
    (window (overBytes pmtInfo) 0xF4 12).params.memBytes ≤ 2 ^ 32 ∧
    goes (exec .pmtWrite pmtStaged) (fun t => t.status.code == .ok) = true ∧
    Reads (window (overBytes pmtInfo) 0xF4 12)
      ((after (exec .pmtWrite pmtStaged)).mem.readBytes pmtStaged.dstAddr.toNat
        (after (exec .pmtWrite pmtStaged)).result.toNat) ∧
    ArenaOk (window (overBytes pmtInfo) 0xF4 12) ∧
    pmtStaged.pmt.pinfoLen.toNat + (pmtStaged.pmt.entries.map (·.esLen.toNat)).sum ≤
      (window (overBytes pmtInfo) 0xF4 12).dstCap.toNat :=
  ⟨by decide +kernel, by decide +kernel, by decide +kernel, by decide +kernel,
    reads_by (by decide +kernel), arena_by (by decide +kernel), by decide +kernel⟩

theorem witness_PsmRoundTrip :
    psmStaged.mem.wf = true ∧ (window (overBytes psmInfo) 0xFB 5).mem.wf = true ∧
    (window (overBytes psmInfo) 0xFB 5).params.memBytes ≤ 2 ^ 32 ∧
    goes (exec .psmWrite psmStaged) (fun t => t.status.code == .ok) = true ∧
    Reads (window (overBytes psmInfo) 0xFB 5)
      ((after (exec .psmWrite psmStaged)).mem.readBytes psmStaged.dstAddr.toNat
        (after (exec .psmWrite psmStaged)).result.toNat) ∧
    ArenaOk (window (overBytes psmInfo) 0xFB 5) ∧
    psmStaged.psm.pinfoLen.toNat + (psmStaged.psm.entries.map (·.esLen.toNat)).sum ≤
      (window (overBytes psmInfo) 0xFB 5).dstCap.toNat :=
  ⟨by decide +kernel, by decide +kernel, by decide +kernel, by decide +kernel,
    reads_by (by decide +kernel), arena_by (by decide +kernel), by decide +kernel⟩

theorem witness_CorruptSectionRejected :
    patBad = (sealed (patOne.take 12)).set 9 0x00 ∧ 9 < (sealed (patOne.take 12)).length ∧
    (0x00 : Byte) ≠ byteAt (sealed (patOne.take 12)) 9 ∧ Reads (overBytes patBad) patBad ∧
    patBad.length = 3 + (field12 patBad 1).toNat ∧
    (pmtInfo.set 32 0x00) = (sealed (pmtInfo.take 29)).set 32 0x00 ∧
    Reads (window (overBytes (pmtInfo.set 32 0x00)) 0x800 0) (pmtInfo.set 32 0x00) ∧
    ArenaOk (window (overBytes (pmtInfo.set 32 0x00)) 0x800 0) ∧
    (psmInfo.set 24 0x00) = (sealed (psmInfo.take 21)).set 24 0x00 ∧
    Reads (window (overBytes (psmInfo.set 24 0x00)) 0x800 0) (psmInfo.set 24 0x00) ∧
    ArenaOk (window (overBytes (psmInfo.set 24 0x00)) 0x800 0) :=
  ⟨by decide +kernel, by decide +kernel, by decide +kernel, reads_by (by decide +kernel),
    by decide +kernel, by decide +kernel, reads_by (by decide +kernel), arena_by (by decide +kernel),
    by decide +kernel, reads_by (by decide +kernel), arena_by (by decide +kernel)⟩

end Sys2Proof.Tests
end

section
/-! Reset (70_reset_and_hazards.md R300): the fields of `State.resetWith` the invariant speaks of, and the
invariant there. -/

namespace Sys2Proof.Machine

section ResetFields

variable (p : Params) (m : Memory)

@[simp] theorem State.resetWith_cur : (State.resetWith p m).cur = {} := rfl
@[simp] theorem State.resetWith_status : (State.resetWith p m).status = {} := rfl
@[simp] theorem State.resetWith_pat : (State.resetWith p m).pat = {} := rfl
@[simp] theorem State.resetWith_pmt : (State.resetWith p m).pmt = {} := rfl
@[simp] theorem State.resetWith_psm : (State.resetWith p m).psm = {} := rfl
@[simp] theorem State.resetWith_host : (State.resetWith p m).host = [] := rfl
@[simp] theorem State.resetWith_hostPos : (State.resetWith p m).hostPos = 0 := rfl
@[simp] theorem State.resetWith_pc : (State.resetWith p m).pc = 0 := rfl

end ResetFields

/-- The latched ranges are empty at address 0, the lists are empty and no access has run, so only the
parameters and the memory need a hypothesis. -/
theorem State.resetWith_inv {p : Params} {m : Memory} (hparams : p.wf = true) (hmem : m.wf = true)
    (hin : ∀ c ∈ m, c.1 < p.memBytes) : (State.resetWith p m).Inv where
  params := hparams
  memWf := hmem
  memIn := hin
  range0 := by simp
  range1 := by simp
  total := by simp [Cursor.total]
  pos := by simp
  code := by simp
  patCap := by simp
  pmtCap := by simp
  psmCap := by simp
  hostPos := by simp
  pc := by simp

/-- Settles O21: field by field of the invariant. -/
theorem resetMeetsInvariant : Obligations.ResetMeetsInvariant := by
  intro p m hparams hmem hin
  exact State.resetWith_inv hparams hmem hin

end Sys2Proof.Machine
end

section
/-! The host's next access as a step (10_state.md R21, R22), and the register map (R23). -/

namespace Sys2Proof.Machine

theorem perform_command (w : Word) (s : State) : perform (command w) s = launch w s := rfl

theorem launch_of_decode {w : Word} {i : Instr} (h : decode w = .ok i) (s : State) :
    launch w s = exec i { s with cmd := w, pc := s.pc + 1 } := by
  simp only [launch, h]

theorem step_of_event {s : State} {e : HostEvent} (h : s.host[s.hostPos]? = some e) :
    step s = perform e { s with hostPos := s.hostPos + 1 } := by
  simp only [step, h]

/-- Settles O6: the event is a CMD write, and its word decodes. -/
theorem stepRunsDecodedCommand : Obligations.StepRunsDecodedCommand := by
  intro s w i hev hdec
  rw [step_of_event hev, perform_command, launch_of_decode hdec]

theorem perform_regWrite_illegal {width : Nat} {off : BitVec 9} (h : legalAccess width off = false)
    (v : Word) (s : State) : perform (.regWrite width off v) s = .refused .registerAccess := by
  simp [perform, h]

theorem perform_regRead_illegal {width : Nat} {off : BitVec 9} (h : legalAccess width off = false)
    (s : State) : perform (.regRead width off) s = .refused .registerAccess := by
  simp [perform, h]

theorem legalAccess_eq_false {width : Nat} {off : BitVec 9} :
    legalAccess width off = false ↔ width ≠ 4 ∨ off.toNat % 4 ≠ 0 := by
  by_cases h : width = 4 <;> simp [legalAccess, h]

theorem regOffset_of_regAt {off : BitVec 9} {r : Reg} (h : regAt off = some r) : off = regOffset r :=
  (eq_of_beq (List.find?_some (p := fun r => regOffset r == off) h)).symm

theorem regAt_regOffset (r : Reg) : regAt (regOffset r) = some r := by
  cases r <;> decide

theorem registerMap_rows : ∀ row ∈ registerMap,
    regOffset row.reg = row.offset ∧ row.offset.toNat % 4 = 0 ∧
    regAccess row.reg = row.access ∧ regBits row.reg = row.bits ∧ resetValue row.reg = row.reset := by
  decide

theorem registerMap_complete (r : Reg) : r ∈ registerMap.map (·.reg) := by
  cases r <;> decide

/-- Settles O10: the table row by row, each offset found again, and the refusal of an access that is not legal. -/
theorem registerSpace : Obligations.RegisterSpace := by
  refine ⟨fun row hrow => ?_, registerMap_complete, fun _ _ h => regOffset_of_regAt h,
    fun s width off v hbad => ⟨fun hev => ?_, fun hev => ?_⟩⟩
  · have h := registerMap_rows row hrow
    exact ⟨h.1 ▸ regAt_regOffset row.reg, h⟩
  · rw [step_of_event hev, perform_regWrite_illegal (legalAccess_eq_false.2 hbad)]
  · rw [step_of_event hev, perform_regRead_illegal (legalAccess_eq_false.2 hbad)]

end Sys2Proof.Machine
end

section
/-! What no command reads: STATUS (10_state.md R43), and, but for `CRC_RUN`, CRC_SEED and CRC_ACC (R32). A command is
run from a state and from an overlay of it; both runs give the same answer, and do the same thing to STATUS. -/

namespace Sys2Proof.Machine

/-! ### STATUS as an update -/

/-- What a command does to STATUS: the CODE and IGNORED it ends with, the bit it ORs into MARKER_ERR and the MPEG1
it writes, where it does (10_state.md R24). -/
structure StatusUpdate where
  code : Code
  ignored : Bool := false
  mark : Option Bool := none
  mpeg1 : Option Bool := none

/-- STATUS after the update. -/
def StatusUpdate.apply (u : StatusUpdate) (st : Status) : Status :=
  { code := u.code
    ignored := u.ignored
    markerErr := (u.mark.map (st.markerErr || ·)).getD st.markerErr
    mpeg1 := u.mpeg1.getD st.mpeg1 }

/-- Which updates a command may make: MARKER_ERR by 42_pes.md R183 and 43_psi.md R252, MPEG1 by 42_pes.md R205,
both by a success only (60_exceptions.md R283). -/
structure StatusUpdate.Of (u : StatusUpdate) (i : Instr) : Prop where
  mark : u.mark.isSome = true → u.code = .ok ∧ (i = .tsDec ∨ (∃ l, i = .pesRead l) ∨ i = .psmRead)
  mpeg1 : u.mpeg1.isSome = true ↔ (u.code = .ok ∧ ∃ l, i = .pesRead l)

/-- A command that is no `PES_READ` may end with CODE and IGNORED alone. -/
theorem StatusUpdate.plain_of {i : Instr} (hi : ∀ l, i ≠ .pesRead l) (c : Code) (ig : Bool) :
    StatusUpdate.Of { code := c, ignored := ig } i where
  mark := nofun
  mpeg1 := ⟨nofun, fun ⟨_, l, h⟩ => absurd h (hi l)⟩

/-- So may every command that fails. -/
theorem StatusUpdate.fail_of (i : Instr) {c : Code} (hc : c ≠ .ok) :
    StatusUpdate.Of { code := c } i where
  mark := nofun
  mpeg1 := ⟨nofun, fun h => absurd h.1 hc⟩

/-! ### Twin states -/

/-- `s` with another STATUS (cur.err apart) and, where `crc` is present, other values in CRC_SEED and CRC_ACC. -/
def State.overlay (s : State) (st : Status) (crc : Option (Word × Word)) : State :=
  { s with
    status := st
    crcSeed := (crc.map Prod.fst).getD s.crcSeed
    crcAcc := (crc.map Prod.snd).getD s.crcAcc }

/-- Two answers of the command `i`, from `s` and from `s.overlay st crc`, agree: the same failure, or
success in states that differ by an overlay again, their STATUS words the same update of the STATUS before. -/
inductive Twin (i : Instr) (s : State) (st : Status) (crc : Option (Word × Word)) :
    Except Raise State → Except Raise State → Prop
  | error (r : Raise) : Twin i s st crc (.error r) (.error r)
  | ok (t : State) (u : StatusUpdate) (hu : u.Of i) (hs : t.status = u.apply s.status) :
      Twin i s st crc (.ok t) (.ok (t.overlay (u.apply st) crc))

section TwinRules

variable {i : Instr} {s : State} {st : Status} {crc : Option (Word × Word)}

/-- A first part that answers the same lets the rest go on from the same value. -/
theorem Twin.bind {α : Type} {x x' : Except Raise α} {f f' : α → Except Raise State}
    (hf : ∀ v, Twin i s st crc (f v) (f' v)) (hx : x' = x := by rfl) :
    Twin i s st crc (x >>= f) (x' >>= f') := by
  subst hx
  cases x' with
  | ok v => exact hf v
  | error r => exact .error r

theorem Twin.ite {c : Prop} [Decidable c] {x y x' y' : Except Raise State}
    (hx : Twin i s st crc x x') (hy : Twin i s st crc y y') :
    Twin i s st crc (if c then x else y) (if c then x' else y') := by
  split
  · exact hx
  · exact hy

/-- A success that writes CODE and IGNORED alone. -/
theorem Twin.plain {t t' : State} (ig : Bool) (hi : ∀ l, i ≠ .pesRead l)
    (hs : t.status = { s.status with code := .ok, ignored := ig } := by rfl)
    (ht : t' = t.overlay { st with code := .ok, ignored := ig } crc := by rfl) :
    Twin i s st crc (.ok t) (.ok t') := by
  subst ht
  exact .ok t { code := .ok, ignored := ig } (StatusUpdate.plain_of hi _ _) hs

/-- A success that marks. -/
theorem Twin.marked {t t' : State} (ig mk : Bool) (hi : i = .tsDec ∨ i = .psmRead)
    (hs : t.status =
      { s.status with code := .ok, ignored := ig, markerErr := s.status.markerErr || mk } := by rfl)
    (ht : t' =
      t.overlay { st with code := .ok, ignored := ig, markerErr := st.markerErr || mk } crc := by rfl) :
    Twin i s st crc (.ok t) (.ok t') := by
  subst ht
  refine .ok t { code := .ok, ignored := ig, mark := some mk } ⟨fun _ => ⟨rfl, ?_⟩, ?_⟩ hs
  · exact hi.imp_right .inr
  · rcases hi with rfl | rfl <;> simp

/-- The commit of a successful `PES_READ`. -/
theorem Twin.pesCommit {l : Layout} {t t' : State} (mk m : Bool)
    (hs : t.status =
      { code := .ok, ignored := false, markerErr := s.status.markerErr || mk, mpeg1 := m } := by rfl)
    (ht : t' = t.overlay
      { code := .ok, ignored := false, markerErr := st.markerErr || mk, mpeg1 := m } crc := by rfl) :
    Twin (.pesRead l) s st crc (.ok t) (.ok t') := by
  subst ht
  exact .ok t { code := .ok, mark := some mk, mpeg1 := some m }
    ⟨fun _ => ⟨rfl, .inr (.inl ⟨l, rfl⟩)⟩, by simp⟩ hs

end TwinRules

/-! ### What a decoder reads -/

section Stream

variable {s s' : State}

theorem skipStuffing_congr (hp : peek s' = peek s) (fuel o n : Nat) :
    skipStuffing s' fuel o n = skipStuffing s fuel o n := by
  induction fuel generalizing o n with
  | zero => rfl
  | succ fuel ih => simp only [skipStuffing, hp, ih]

/-- The body of a PES header reads the state through the stream alone. -/
theorem pesBody_congr (hc : s'.cur = s.cur) (hm : s'.mem = s.mem) (l : Layout) (p : PesScan) :
    pesBody l s' p = pesBody l s p := by
  have hpeek : peek s' = peek s := by
    funext o; simp only [peek, State.curByte, hc, hm]
  have htake : take s' = take s := by
    funext o n; simp only [take, State.curBytes, State.curByte, hc, hm]
  simp only [pesBody, mpeg2Body, mpeg1Body, mpeg1StdBuf, mpeg1Stamps, hpeek, htake,
    skipStuffing_congr hpeek, hc]

end Stream

/-! ### Every command -/

section OverlayReads

variable (s : State) (st : Status) (crc : Option (Word × Word))

theorem curBits_overlay (j n : Nat) : (s.overlay st crc).curBits j n = s.curBits j n := by
  induction n generalizing j with
  | zero => rfl
  | succ n ih => simp only [State.curBits, ih]; rfl

theorem emitSection_status (b : List Byte) :
    (emitSection s b).status = { s.status with code := .ok, ignored := false } := rfl

theorem emitSection_overlay (b : List Byte) :
    emitSection (s.overlay st crc) b =
      (emitSection s b).overlay { st with code := .ok, ignored := false } crc := rfl

end OverlayReads

/-- A command's pseudocode reads nothing that an overlay changes: STATUS is read by no command, CRC_SEED and CRC_ACC
by `CRC_RUN` only. Part by part, both runs ask the same question of the state and go on alike. -/
theorem pseudocode_twin (i : Instr) (s : State) (st : Status) (crc : Option (Word × Word))
    (h : crc = none ∨ ∀ init, i ≠ .crcRun init) :
    Twin i s st crc (pseudocode i s) (pseudocode i (s.overlay st crc)) := by
  cases i with
  | nop => exact .plain false nofun
  | crcRun init =>
    obtain rfl : crc = none := h.resolve_right fun h => h init rfl
    exact .bind fun _ => .plain false nofun
  | crcCheck => exact .bind fun _ => .bind fun _ => .bind fun _ => .plain false nofun
  | crcSeal => exact .bind fun _ => .plain false nofun
  | curInit => exact .bind fun _ => .bind fun _ => .bind fun _ => .plain false nofun
  | curRead n =>
    exact .bind fun _ => .plain false nofun rfl (by simp only [curBits_overlay]; rfl)
  | curSkip k => exact .bind fun _ => .plain false nofun
  | curSeek k => exact .bind fun _ => .plain false nofun
  | tsEnc sel p => exact .bind fun _ => .bind fun _ => .bind fun _ => .plain false nofun
  | tsDec => exact .bind fun _ => .bind fun _ => .marked false _ (.inl rfl)
  | pesWrite unb =>
    exact .bind fun _ => .bind fun _ => .bind fun _ => .bind fun _ => .bind fun _ =>
      .plain false nofun
  | pesRead l =>
    exact .bind fun _ => .bind fun _ => .bind fun _ => .bind fun _ =>
      .bind (fun p => .bind fun _ => .pesCommit p.flag p.mpeg1)
        (pesBody_congr (s := s) (s' := s.overlay st crc) rfl rfl l _)
  | patWrite =>
    exact .bind fun _ => .bind fun _ => .bind fun _ =>
      .plain false nofun (emitSection_status s _) (emitSection_overlay s st crc _)
  | patRead =>
    exact .bind fun _ => .bind fun _ => .bind fun _ => .bind fun _ => .bind fun _ => .bind fun _ =>
      .ite (.plain true nofun) (.bind fun _ => .plain false nofun)
  | pmtWrite =>
    exact .bind fun _ => .bind fun _ => .bind fun _ => .bind fun _ => .bind fun _ =>
      .plain false nofun (emitSection_status s _) (emitSection_overlay s st crc _)
  | pmtRead =>
    exact .bind fun _ => .bind fun _ => .bind fun _ => .bind fun _ => .bind fun _ => .bind fun _ =>
      .bind fun _ => .bind fun _ => .bind fun _ =>
      .ite (.plain true nofun) (.bind fun _ => .bind fun _ => .plain false nofun)
  | psmWrite =>
    exact .bind fun _ => .bind fun _ => .bind fun _ => .bind fun _ => .bind fun _ =>
      .plain false nofun (emitSection_status s _) (emitSection_overlay s st crc _)
  | psmRead =>
    exact .bind fun _ => .bind fun _ => .bind fun _ => .bind fun _ => .bind fun _ => .bind fun _ =>
      .bind fun _ => .bind fun _ => .bind fun _ => .bind fun _ =>
      .ite (.marked true _ (.inr rfl)) (.bind fun _ => .bind fun _ => .marked false _ (.inr rfl))
  | tblClear tb => cases tb <;> exact .plain false nofun
  | tblAdd tb => cases tb <;> exact .bind fun _ => .plain false nofun
  | tblGet tb k =>
    have he : (s.overlay st crc).entryAt tb k.toNat = s.entryAt tb k.toNat := rfl
    simp only [pseudocode, tblGet, he]
    cases s.entryAt tb k.toNat with
    | none => exact .error _
    | some e => exact .plain false nofun

/-- A command and the overlay of its start: the same answer, overlaid, and one update of either STATUS. -/
theorem exec_overlay {i : Instr} {s t : State} (h : exec i s = .next t) (st : Status)
    (crc : Option (Word × Word)) (hc : crc = none ∨ ∀ init, i ≠ .crcRun init) :
    ∃ u : StatusUpdate, u.Of i ∧ t.status = u.apply s.status ∧
      exec i (s.overlay st crc) = .next (t.overlay (u.apply st) crc) := by
  have htwin := pseudocode_twin i s st crc hc
  rw [exec_eq_finish i (s.overlay st crc)]
  generalize pseudocode i (s.overlay st crc) = answer at htwin ⊢
  rcases exec_eq_next.1 h with hok | ⟨r, herr, rfl⟩
  · rw [hok] at htwin
    cases htwin with
    | ok _ u hu hs => exact ⟨u, hu, hs, rfl⟩
  · rw [herr] at htwin
    cases htwin with
    | error => exact ⟨{ code := r.code }, StatusUpdate.fail_of i (pseudocode_error herr).2.1, rfl, rfl⟩

/-! ### The STATUS flags after an update -/

section Flags

variable {i : Instr} {u : StatusUpdate}

theorem StatusUpdate.apply_markerErr (u : StatusUpdate) {base : Status} (hb : base.markerErr = false)
    (st : Status) : (u.apply st).markerErr = (st.markerErr || (u.apply base).markerErr) := by
  cases hm : u.mark <;> simp [StatusUpdate.apply, hm, hb]

theorem StatusUpdate.Of.mpeg1_pesRead {l : Layout} (hu : u.Of (.pesRead l)) (base st : Status) :
    (u.apply st).mpeg1 = if u.code = .ok then (u.apply base).mpeg1 else st.mpeg1 := by
  have hiff : u.mpeg1.isSome = true ↔ u.code = .ok := by simpa using hu.mpeg1
  cases hm : u.mpeg1 with
  | none => simp_all [StatusUpdate.apply]
  | some m => simp_all [StatusUpdate.apply]

theorem StatusUpdate.Of.mpeg1_kept (hu : u.Of i) (hi : ∀ l, i ≠ .pesRead l) (st : Status) :
    (u.apply st).mpeg1 = st.mpeg1 := by
  cases hm : u.mpeg1 with
  | none => simp [StatusUpdate.apply, hm]
  | some m =>
    obtain ⟨-, l, hl⟩ := hu.mpeg1.1 (by rw [hm]; rfl)
    exact absurd hl (hi l)

/-- Either the update leaves MARKER_ERR, or it comes from a success of a marking command and only sets it. -/
theorem StatusUpdate.Of.markerErr_cases (hu : u.Of i) (st : Status) :
    (u.apply st).markerErr = st.markerErr ∨
      ((st.markerErr = true → (u.apply st).markerErr = true) ∧
        u.code = .ok ∧ (i = .tsDec ∨ (∃ l, i = .pesRead l) ∨ i = .psmRead)) := by
  cases hm : u.mark with
  | none => exact .inl (by simp [StatusUpdate.apply, hm])
  | some mk =>
    refine .inr ⟨fun h => by simp [StatusUpdate.apply, hm, h], hu.mark (by rw [hm]; rfl)⟩

end Flags

/-- Settles O15: the overlay of STATUS alone, and the update spelled out. -/
theorem statusNeverRead : Obligations.StatusNeverRead := by
  intro i s t st hm h
  obtain ⟨u, hu, hs, hx⟩ := exec_overlay h st none (.inl rfl)
  refine Eq.trans hx (congrArg _ ?_)
  refine congrArg (t.overlay · none) ((Status.mk.injEq ..).mpr ⟨?_, ?_, ?_, ?_⟩)
  · rw [hs]; rfl
  · rw [hs]; exact u.apply_markerErr hm st
  · rw [hs]; rfl
  · split
    · rw [hs]; exact hu.mpeg1_pesRead s.status st
    · next hi => exact hu.mpeg1_kept hi st

/-- Settles O16: the overlay of CRC_SEED and CRC_ACC alone. -/
theorem crcStateOnlyInCrcRun : Obligations.CrcStateOnlyInCrcRun := by
  intro i s t seed acc hi h
  obtain ⟨u, -, hs, hx⟩ := exec_overlay h s.status (some (seed, acc)) (.inr hi)
  rw [← hs] at hx
  exact hx

/-- Settles O18: what an update of STATUS can do to MARKER_ERR. -/
theorem markerErrOnlySet : Obligations.MarkerErrOnlySet := by
  intro i s t h
  obtain ⟨u, hu, hs, -⟩ := exec_overlay h s.status none (.inl rfl)
  have hcode : t.status.code = u.code := congrArg Status.code hs
  rw [hcode, hs]
  rcases hu.markerErr_cases s.status with heq | ⟨hset, hwho⟩
  · exact ⟨fun h => heq.trans h, fun h => absurd heq h⟩
  · exact ⟨hset, fun _ => hwho⟩

end Sys2Proof.Machine
end

section
/-! The frame of a command: what every success leaves unchanged, which commands write each unit's state, and which
failures touch the cursor (10_state.md R30 to R41, 60_exceptions.md R283). -/

namespace Sys2Proof.Machine

/-- The parts of the state that a command may write, taken from `t`; all others from `s`. -/
def State.framed (s t : State) : State :=
  { s with
    status := t.status, result := t.result, resultHi := t.resultHi, crcAcc := t.crcAcc
    cur := t.cur, pes := t.pes, pat := t.pat, pmt := t.pmt, psm := t.psm, ent := t.ent
    mem := t.mem }

/-- What a command that succeeds leaves unchanged. -/
theorem Succeeds.eq_framed {i : Instr} {s t : State} (h : Succeeds i s t) : t = s.framed t := by
  cases h with
  | tblClear tb => cases tb <;> rfl
  | tblAdd tb => cases tb <;> rfl
  | _ => rfl

theorem Succeeds.payloadLen_kept {i : Instr} {s t : State} (h : Succeeds i s t) :
    t.pes.payloadLen = s.pes.payloadLen := by
  cases h with
  | tblClear tb => cases tb <;> rfl
  | tblAdd tb => cases tb <;> rfl
  | pesRead _ _ _ _ _ _ _ _ hr => exact hr
  | _ => rfl

section Units

variable {i : Instr} {s t : State}

theorem Succeeds.crcAcc_kept_or (h : Succeeds i s t) : t.crcAcc = s.crcAcc ∨ ∃ init, i = .crcRun init := by
  cases h with
  | crcRun init => exact .inr ⟨init, rfl⟩
  | tblClear tb => cases tb <;> exact .inl rfl
  | tblAdd tb => cases tb <;> exact .inl rfl
  | _ => exact .inl rfl

theorem Succeeds.pes_kept_or (h : Succeeds i s t) :
    t.pes = s.pes ∨ (∃ unb, i = .pesWrite unb) ∨ ∃ l, i = .pesRead l := by
  cases h with
  | pesWrite unb => exact .inr (.inl ⟨unb, rfl⟩)
  | pesRead l => exact .inr (.inr ⟨l, rfl⟩)
  | tblClear tb => cases tb <;> exact .inl rfl
  | tblAdd tb => cases tb <;> exact .inl rfl
  | _ => exact .inl rfl

theorem Succeeds.pat_kept_or (h : Succeeds i s t) :
    t.pat = s.pat ∨ i = .patRead ∨ i = .tblClear .pat ∨ i = .tblAdd .pat := by
  cases h with
  | patRebuilt => exact .inr (.inl rfl)
  | tblClear tb => cases tb <;> simp [State.clearTable]
  | tblAdd tb => cases tb <;> simp [State.addEntry]
  | _ => exact .inl rfl

theorem Succeeds.pmt_kept_or (h : Succeeds i s t) :
    t.pmt = s.pmt ∨ i = .pmtRead ∨ i = .tblClear .pmt ∨ i = .tblAdd .pmt := by
  cases h with
  | pmtRebuilt => exact .inr (.inl rfl)
  | tblClear tb => cases tb <;> simp [State.clearTable]
  | tblAdd tb => cases tb <;> simp [State.addEntry]
  | _ => exact .inl rfl

theorem Succeeds.psm_kept_or (h : Succeeds i s t) :
    t.psm = s.psm ∨ i = .psmRead ∨ i = .tblClear .psm ∨ i = .tblAdd .psm := by
  cases h with
  | psmRebuilt => exact .inr (.inl rfl)
  | tblClear tb => cases tb <;> simp [State.clearTable]
  | tblAdd tb => cases tb <;> simp [State.addEntry]
  | _ => exact .inl rfl

theorem Succeeds.ent_kept_or (h : Succeeds i s t) : t.ent = s.ent ∨ ∃ tb idx, i = .tblGet tb idx := by
  cases h with
  | tblGet tb k => exact .inr ⟨tb, k, rfl⟩
  | tblClear tb => cases tb <;> exact .inl rfl
  | tblAdd tb => cases tb <;> exact .inl rfl
  | _ => exact .inl rfl

/-- The commands that may write the cursor (41_cursor.md). -/
def UsesCursor (i : Instr) : Prop :=
  isDecoder i = true ∨ i = .curInit ∨ (∃ n, i = .curRead n) ∨ (∃ k, i = .curSkip k) ∨
    ∃ k, i = .curSeek k

theorem Succeeds.cur_kept_or (h : Succeeds i s t) : t.cur = s.cur ∨ UsesCursor i := by
  cases h with
  | curInit => exact .inr (.inr (.inl rfl))
  | curRead n => exact .inr (.inr (.inr (.inl ⟨n, rfl⟩)))
  | curSkip k => exact .inr (.inr (.inr (.inr (.inl ⟨k, rfl⟩))))
  | curSeek k => exact .inr (.inr (.inr (.inr (.inr ⟨k, rfl⟩))))
  | tsDec | pesRead | patIgnored | patRebuilt | pmtIgnored | pmtRebuilt | psmIgnored | psmRebuilt =>
    exact .inr (.inl rfl)
  | tblClear tb => cases tb <;> exact .inl rfl
  | tblAdd tb => cases tb <;> exact .inl rfl
  | _ => exact .inl rfl

/-- A failure keeps `cur.err` with InvalidData only, which the table of causes (60_exceptions.md R281) allows the
commands that use the cursor and `CRC_CHECK`, and `CRC_CHECK` keeps nothing. -/
theorem usesCursor_of_keepErr {r : Raise} (h : pseudocode i s = .error r) (hk : r.keepErr = true) :
    UsesCursor i := by
  obtain ⟨hmay, -, -, hdata, -⟩ := pseudocode_error h
  rw [hdata hk] at hmay
  cases i with
  | curRead n => exact .inr (.inr (.inl ⟨n, rfl⟩))
  | curSkip k => exact .inr (.inr (.inr (.inl ⟨k, rfl⟩)))
  | curSeek k => exact .inr (.inr (.inr (.inr ⟨k, rfl⟩)))
  | tsDec | pesRead | patRead | pmtRead | psmRead => exact .inl rfl
  | crcCheck => rcases crcCheck_error h with rfl | rfl <;> cases hk
  | _ => cases hmay

theorem fail_cur_kept_or {r : Raise} (h : pseudocode i s = .error r) :
    (s.fail r).cur = s.cur ∨ UsesCursor i := by
  cases hk : r.keepErr with
  | true => exact .inr (usesCursor_of_keepErr h hk)
  | false => exact .inl (by simp [hk])

end Units

/-- Settles O19: a success changes what its unit owns, a failure CODE, IGNORED and what its rule keeps. -/
theorem commandsChangeTheirUnitOnly : Obligations.CommandsChangeTheirUnitOnly := by
  intro i s t h
  rcases exec_eq_next.1 h with hok | ⟨r, herr, rfl⟩
  · have hs := pseudocode_ok hok
    refine ⟨?_, hs.crcAcc_kept_or.resolve_left, hs.pes_kept_or.resolve_left, hs.pat_kept_or.resolve_left,
      hs.pmt_kept_or.resolve_left, hs.psm_kept_or.resolve_left, hs.ent_kept_or.resolve_left,
      hs.cur_kept_or.resolve_left⟩
    rw [hs.eq_framed]
    exact ⟨rfl, rfl, rfl, rfl, rfl, rfl, rfl, rfl, hs.payloadLen_kept, rfl, rfl, rfl, rfl⟩
  · exact ⟨⟨rfl, rfl, rfl, rfl, rfl, rfl, rfl, rfl, rfl, rfl, rfl, rfl, rfl⟩, absurd rfl,
      absurd rfl, absurd rfl, absurd rfl, absurd rfl, absurd rfl, (fail_cur_kept_or herr).resolve_left⟩

end Sys2Proof.Machine
end

section
/-! The host's memory port (20_memory.md R70, R77): what an access inside memory does, and that one outside faults
(log 9). -/

namespace Sys2Proof.Machine

section MemoryPort

variable {s : State} {a : Word}

theorem hostMemWrite_of_inMem {b : List Byte} (h : InMem s a.toNat b.length) :
    hostMemWrite a b s = .next { s with mem := s.mem.writeBytes a.toNat b } := if_pos h

theorem hostMemWrite_of_not_inMem {b : List Byte} (h : ¬ InMem s a.toNat b.length) :
    hostMemWrite a b s = .fault .hostAddress := if_neg h

theorem hostMemRead_of_inMem {n : Nat} (h : InMem s a.toNat n) :
    hostMemRead a n s =
      .next { s with reads := .mem a (s.mem.readBytes a.toNat n) :: s.reads } := if_pos h

theorem hostMemRead_of_not_inMem {n : Nat} (h : ¬ InMem s a.toNat n) :
    hostMemRead a n s = .fault .hostAddress := if_neg h

theorem perform_memWrite (b : List Byte) : perform (.memWrite a b) s = hostMemWrite a b s := rfl

theorem perform_memRead (n : Nat) : perform (.memRead a n) s = hostMemRead a n s := rfl

end MemoryPort

/-- Settles O11: taking the event from the sequence leaves memory and its size, and a byte string written reads
back and leaves every byte outside it. -/
theorem hostMemoryAccess : Obligations.HostMemoryAccess := by
  refine ⟨fun s a b hev => ?_, fun s a n hev => ?_⟩
  · rw [step_of_event hev, perform_memWrite]
    refine ⟨fun hout => hostMemWrite_of_not_inMem (Nat.not_le.2 hout), fun hwf hin => ?_⟩
    exact ⟨_, hostMemWrite_of_inMem hin, Memory.readBytes_writeBytes hwf a.toNat b,
      fun _ hx => Memory.read_writeBytes_outside s.mem b hx⟩
  · rw [step_of_event hev, perform_memRead]
    exact ⟨fun hout => hostMemRead_of_not_inMem (Nat.not_le.2 hout), fun hin => hostMemRead_of_inMem hin⟩

end Sys2Proof.Machine
end

section
/-! Where a command stores (20_memory.md R71, R72; 43_psi.md R230, R247): a success writes one byte string, possibly
empty, over exactly the range it declares; a failure writes none (60_exceptions.md R283). -/

namespace Sys2Proof.Machine

/-- From `s` to `t` the command `i` wrote the bytes `b` and no others: they fill the range `storedAt` declares, which
lies in memory and, but for `CRC_SEAL`, in the destination window. -/
structure Stores (i : Instr) (s t : State) (b : List Byte) : Prop where
  mem : t.mem = s.mem.writeBytes (storedAt i s t).1 b
  length : (storedAt i s t).2 = b.length
  inMem : InMem s (storedAt i s t).1 b.length
  inWindow : i ≠ .crcSeal → b.length ≤ s.dstCap.toNat

section StoresRules

variable {i : Instr} {s t : State} {b : List Byte}

theorem Stores.nothing (hmem : t.mem = s.mem) (hlen : (storedAt i s t).2 = 0)
    (hin : (storedAt i s t).1 ≤ s.params.memBytes) : Stores i s t [] where
  mem := hmem
  length := hlen
  inMem := hin
  inWindow _ := Nat.zero_le _

/-- The bytes at DST_ADDR, where the window holds them. -/
theorem Stores.window (hw : WindowInMem s) (hc : b.length ≤ s.dstCap.toNat)
    (hat : storedAt i s t = (s.dstAddr.toNat, b.length))
    (hmem : t.mem = s.mem.writeBytes s.dstAddr.toNat b) : Stores i s t b where
  mem := by rw [hat, hmem]
  length := by rw [hat]
  inMem := by rw [hat]; exact Nat.le_trans (Nat.add_le_add_left hc _) hw
  inWindow _ := hc

/-- Every byte outside the declared range reads as before. -/
theorem Stores.read_outside (h : Stores i s t b) {a : Nat}
    (ha : a < (storedAt i s t).1 ∨ (storedAt i s t).1 + (storedAt i s t).2 ≤ a) :
    t.mem.read a = s.mem.read a := by
  rw [h.mem]
  exact Memory.read_writeBytes_outside s.mem b (h.length ▸ ha)

/-- A length that the window holds is shown whole by RESULT or RESULT_HI. -/
theorem toNat_ofNat_of_le {n : Nat} {w : Word} (h : n ≤ w.toNat) : (BitVec.ofNat 32 n).toNat = n :=
  Nat.mod_eq_of_lt (Nat.lt_of_le_of_lt h w.isLt)

/-- A section with its trailer, whose length is RESULT (43_psi.md R230). -/
theorem Stores.sealedBody (hw : WindowInMem s) (hc : b.length + 4 ≤ s.dstCap.toNat)
    (hat : storedAt i s (emitSection s b) = (s.dstAddr.toNat, (emitSection s b).result.toNat)) :
    Stores i s (emitSection s b) (sealed b) := by
  refine .window hw (by rwa [sealed_length]) ?_ rfl
  rw [hat, sealed_length, emitSection, State.done_result, toNat_ofNat_of_le hc]

/-- The bytes of a rebuilt table, whose length is RESULT_HI (43_psi.md R247). -/
theorem Stores.arena {used : Nat} (ha : ArenaOk s) (hlen : b.length = used)
    (hu : used ≤ s.dstCap.toNat)
    (hat : storedAt i s t = (s.dstAddr.toNat, (BitVec.ofNat 32 used).toNat))
    (hmem : t.mem = s.mem.writeBytes s.dstAddr.toNat b) : Stores i s t b := by
  refine .window ha.inMem (hlen ▸ hu) ?_ hmem
  rw [hat, toNat_ofNat_of_le hu, hlen]

end StoresRules

section Success

variable {i : Instr} {s t : State}

/-- Every success ends in `done`. -/
theorem Succeeds.code_ok (h : Succeeds i s t) : t.status.code = .ok := by
  cases h <;> rfl

theorem Succeeds.stores (h : Succeeds i s t) : ∃ b, Stores i s t b := by
  cases h with
  | crcSeal _ c hin =>
    exact ⟨be32 c, { mem := rfl, length := rfl, inMem := (Nat.add_assoc ..).trans_le hin,
                     inWindow := absurd rfl }⟩
  | tsEnc sel p _ b hw hc hb =>
    exact ⟨b, .window hw (hb ▸ hc) (by rw [hb]; rfl) rfl⟩
  | pesWrite unb _ len hw hc =>
    rw [← pesHeader_length s.pes len] at hc
    refine ⟨pesHeader s.pes len, .window hw hc ?_ rfl⟩
    rw [← toNat_ofNat_of_le hc, pesHeader_length]
    rfl
  | patWrite _ body hw _ hc | pmtWrite _ body hw _ hc | psmWrite _ body hw _ hc =>
    exact ⟨sealed body, .sealedBody hw hc rfl⟩
  | pmtIgnored _ _ ha | psmIgnored _ _ ha =>
    exact ⟨[], .nothing rfl rfl (Nat.le_trans (Nat.le_add_right _ _) ha.inMem)⟩
  | pmtRebuilt _ _ _ ha _ _ hu hn | psmRebuilt _ _ _ ha _ _ hu hn =>
    exact ⟨_, .arena ha hn hu rfl rfl⟩
  | tblClear tb => cases tb <;> exact ⟨[], .nothing rfl rfl (Nat.zero_le _)⟩
  | tblAdd tb => cases tb <;> exact ⟨[], .nothing rfl rfl (Nat.zero_le _)⟩
  | _ => exact ⟨[], .nothing rfl rfl (Nat.zero_le _)⟩

end Success

/-- Settles O20: a success stores one byte string over its declared range, and a failure leaves memory. -/
theorem storesOnlyWhereDeclared : Obligations.StoresOnlyWhereDeclared := by
  intro i s t h
  rcases exec_eq_next.1 h with hok | ⟨r, herr, rfl⟩
  · have hs := pseudocode_ok hok
    obtain ⟨b, hb⟩ := hs.stores
    refine ⟨absurd hs.code_ok, fun _ => ⟨fun a => hb.read_outside, ?_⟩⟩
    rw [hb.length]
    exact ⟨hb.inMem, hb.inWindow⟩
  · obtain ⟨-, hcode, -⟩ := pseudocode_error herr
    exact ⟨fun _ => State.fail_mem s r, fun h => absurd h hcode⟩

end Sys2Proof.Machine
end

section
/-! Fields of bit vectors: what an appended vector holds in each of its ranges, and the number it stands for. -/

namespace Sys2Proof

variable {m k n lo s : Nat}

theorem bits_append_inj {a c : BitVec n} {b d : BitVec lo} : a ++ b = c ++ d ↔ a = c ∧ b = d := by
  refine ⟨fun h => ⟨?_, ?_⟩, fun ⟨hac, hbd⟩ => hac ▸ hbd ▸ rfl⟩
  · simpa only [BitVec.extractLsb'_append_eq_left] using congrArg (BitVec.extractLsb' lo n) h
  · simpa only [BitVec.extractLsb'_append_eq_right] using congrArg (BitVec.extractLsb' 0 lo) h

theorem extractLsb'_append_adjacent (w : BitVec m) (s n lo : Nat) :
    w.extractLsb' (s + lo) n ++ w.extractLsb' s lo = w.extractLsb' s (n + lo) :=
  BitVec.extractLsb'_append_extractLsb'_eq_extractLsb' rfl

/-- A range made of two fields. The widths are arguments, since they cannot be read off a literal width. -/
theorem extractLsb'_eq_append_iff (n lo : Nat) {w : BitVec m} {a : BitVec n} {b : BitVec lo} :
    w.extractLsb' s (n + lo) = a ++ b ↔ w.extractLsb' (s + lo) n = a ∧ w.extractLsb' s lo = b := by
  rw [← extractLsb'_append_adjacent, bits_append_inj]

/-- A range made of three fields. -/
theorem extractLsb'_eq_append_append_iff (k n lo : Nat) {w : BitVec m} {a : BitVec k} {b : BitVec n}
    {c : BitVec lo} : w.extractLsb' s (k + n + lo) = a ++ b ++ c ↔
      w.extractLsb' (s + lo + n) k = a ∧ w.extractLsb' (s + lo) n = b ∧ w.extractLsb' s lo = c := by
  rw [extractLsb'_eq_append_iff, extractLsb'_eq_append_iff, and_assoc]

theorem extractLsb'_one_eq_ofBool (w : BitVec m) (k : Nat) :
    w.extractLsb' k 1 = BitVec.ofBool (w.getLsbD k) := by
  ext j hj
  simp [Nat.lt_one_iff.1 hj]

/-- A field that lies under the mask is that field of the masked word. -/
theorem extractLsb'_of_and_eq (s n : Nat) {w mask p : BitVec m} (h : w &&& mask = p)
    (hm : mask.extractLsb' s n = BitVec.allOnes n) : w.extractLsb' s n = p.extractLsb' s n := by
  rw [← h, BitVec.extractLsb'_and, hm, BitVec.and_allOnes]

theorem toNat_append_eq_add (a : BitVec n) (b : BitVec lo) :
    (a ++ b).toNat = a.toNat * 2 ^ lo + b.toNat := by
  rw [BitVec.toNat_append, ← Nat.shiftLeft_add_eq_or_of_lt b.isLt, Nat.shiftLeft_eq]

theorem getLsbD_zero_append_one (x : BitVec n) : (x ++ 1#1).getLsbD 0 = true := by
  rw [BitVec.getLsbD_append]
  rfl

end Sys2Proof
end

section
/-! Command words (30_encoding.md R90 to R95). Each format's decoder accepts exactly the operands its fields make up, so
decoding is the inverse of encoding; and a row of the opcode table fixes what the decoder checks, so it accepts exactly
the words of its commands. -/

namespace Sys2Proof

/-! ### Opcode and operand -/

@[simp] theorem opcode_wordOf (op : Byte) (x : BitVec 24) : (wordOf op x).extractLsb' 24 8 = op :=
  BitVec.extractLsb'_append_eq_left

@[simp] theorem operand_wordOf (op : Byte) (x : BitVec 24) : (wordOf op x).extractLsb' 0 24 = x :=
  BitVec.extractLsb'_append_eq_right

theorem wordOf_opcode_operand (w : Word) : wordOf (w.extractLsb' 24 8) (w.extractLsb' 0 24) = w :=
  (extractLsb'_append_adjacent w 0 8 24).trans BitVec.extractLsb'_eq_self

theorem wordOf_of_fields {w : Word} {op : Nat} {x : BitVec 24} (hop : (w.extractLsb' 24 8).toNat = op)
    (hx : w.extractLsb' 0 24 = x) : wordOf (BitVec.ofNat 8 op) x = w := by
  rw [← hop, ← hx, BitVec.ofNat_toNat, BitVec.setWidth_eq, wordOf_opcode_operand]

/-! ### Field values -/

theorem tableOfBits_eq_some {b : BitVec 2} {t : Table} : tableOfBits b = some t ↔ b = bitsOfTable t := by
  revert b; cases t <;> decide

theorem layoutOfBits_eq_some {b : BitVec 2} {l : Layout} :
    layoutOfBits b = some l ↔ b = bitsOfLayout l := by
  revert b; cases l <;> decide

theorem stampOfBit_eq_iff {b : Bool} {t : Stamp} : stampOfBit b = t ↔ b = bitOfStamp t := by
  cases b <;> cases t <;> decide

theorem exists_eq_bitsOfTable {b : BitVec 2} (h : (b != 3) = true) : ∃ t, b = bitsOfTable t := by
  simp only [← tableOfBits_eq_some, ← Option.isSome_iff_exists]
  revert b; decide

theorem exists_eq_bitsOfLayout {b : BitVec 2} (h : (b != 3) = true) : ∃ l, b = bitsOfLayout l := by
  simp only [← layoutOfBits_eq_some, ← Option.isSome_iff_exists]
  revert b; decide

/-! ### Formats (R91): the operands that decode, and to what -/

theorem ite_error_eq_ok {ε α : Type} {p : Prop} [Decidable p] {x : Except ε α} {e : ε} {a : α} :
    (if p then x else .error e) = .ok a ↔ p ∧ x = .ok a := by
  split <;> simp [*]

section Formats

variable {w : Word} {i : Instr}

theorem decodeN_eq_ok {j : Instr} : decodeN w j = .ok i ↔ j = i ∧ w.extractLsb' 0 24 = 0 := by
  rw [decodeN, ite_error_eq_ok, Except.ok.injEq, and_comm]

theorem decodeF1_eq_ok {f : Bool → Instr} : decodeF1 w f = .ok i ↔
    ∃ b, f b = i ∧ w.extractLsb' 0 24 = 0#23 ++ BitVec.ofBool b := by
  rw [decodeF1, ite_error_eq_ok, Except.ok.injEq]
  constructor
  · rintro ⟨hres, hf⟩
    exact ⟨_, hf, (extractLsb'_eq_append_iff 23 1).2 ⟨hres, extractLsb'_one_eq_ofBool w 0⟩⟩
  · rintro ⟨b, hf, hx⟩
    obtain ⟨hres, hb⟩ := (extractLsb'_eq_append_iff 23 1).1 hx
    rw [extractLsb'_one_eq_ofBool, BitVec.ofBool_eq_iff_eq] at hb
    exact ⟨hres, hb ▸ hf⟩

theorem decodeF2_eq_ok {f : Layout → Instr} : decodeF2 w f = .ok i ↔
    ∃ l, f l = i ∧ w.extractLsb' 0 24 = 0#22 ++ bitsOfLayout l := by
  rw [decodeF2, ite_error_eq_ok]
  constructor
  · rintro ⟨hres, hf⟩
    split at hf
    case h_1 l hl =>
      exact ⟨l, Except.ok.inj hf,
        (extractLsb'_eq_append_iff 22 2).2 ⟨hres, layoutOfBits_eq_some.1 hl⟩⟩
    case h_2 => cases hf
  · rintro ⟨l, rfl, hx⟩
    obtain ⟨hres, hl⟩ := (extractLsb'_eq_append_iff 22 2).1 hx
    exact ⟨hres, by rw [layoutOfBits_eq_some.2 hl]⟩

theorem decodeF5_eq_ok {f : Stamp → BitVec 4 → Instr} : decodeF5 w f = .ok i ↔
    ∃ sel p, f sel p = i ∧ w.extractLsb' 0 24 = 0#19 ++ BitVec.ofBool (bitOfStamp sel) ++ p := by
  rw [decodeF5, ite_error_eq_ok, Except.ok.injEq]
  constructor
  · rintro ⟨hres, hf⟩
    have hsel : w.extractLsb' 4 1 = BitVec.ofBool (bitOfStamp (stampOfBit (w.getLsbD 4))) := by
      rw [← stampOfBit_eq_iff.1 rfl, extractLsb'_one_eq_ofBool]
    exact ⟨_, _, hf, (extractLsb'_eq_append_append_iff 19 1 4).2 ⟨hres, hsel, rfl⟩⟩
  · rintro ⟨sel, p, hf, hx⟩
    obtain ⟨hres, hsel, rfl⟩ := (extractLsb'_eq_append_append_iff 19 1 4).1 hx
    rw [extractLsb'_one_eq_ofBool, BitVec.ofBool_eq_iff_eq, ← stampOfBit_eq_iff] at hsel
    exact ⟨hres, hsel ▸ hf⟩

theorem decodeB_eq_ok {f : BitVec 7 → Instr} : decodeB w f = .ok i ↔
    ∃ nbits, f nbits = i ∧ legalNbits nbits = true ∧ w.extractLsb' 0 24 = 0#17 ++ nbits := by
  rw [decodeB, ite_error_eq_ok, ite_error_eq_ok, Except.ok.injEq]
  constructor
  · rintro ⟨hres, hlegal, hf⟩
    exact ⟨_, hf, hlegal, (extractLsb'_eq_append_iff 17 7).2 ⟨hres, rfl⟩⟩
  · rintro ⟨nbits, hf, hlegal, hx⟩
    obtain ⟨hres, rfl⟩ := (extractLsb'_eq_append_iff 17 7).1 hx
    exact ⟨hres, hlegal, hf⟩

theorem decodeI_eq_ok {f : BitVec 24 → Instr} : decodeI w f = .ok i ↔
    ∃ imm, f imm = i ∧ w.extractLsb' 0 24 = imm := by
  simp [decodeI]

theorem decodeT_eq_ok {f : Table → BitVec 16 → Except IllegalWord Instr} : decodeT w f = .ok i ↔
    ∃ t idx, f t idx = .ok i ∧ w.extractLsb' 0 24 = 0#6 ++ bitsOfTable t ++ idx := by
  rw [decodeT, ite_error_eq_ok]
  constructor
  · rintro ⟨hres, hf⟩
    split at hf
    case h_1 t ht =>
      exact ⟨t, _, hf,
        (extractLsb'_eq_append_append_iff 6 2 16).2 ⟨hres, tableOfBits_eq_some.1 ht, rfl⟩⟩
    case h_2 => cases hf
  · rintro ⟨t, idx, hf, hx⟩
    obtain ⟨hres, ht, rfl⟩ := (extractLsb'_eq_append_append_iff 6 2 16).1 hx
    exact ⟨hres, by rw [tableOfBits_eq_some.2 ht]; exact hf⟩

theorem noIndex_eq_ok {f : Table → Instr} {t : Table} {idx : BitVec 16} :
    noIndex f t idx = .ok i ↔ f t = i ∧ idx = 0 := by
  rw [noIndex, ite_error_eq_ok, Except.ok.injEq, and_comm]

end Formats

/-! ### Decoding and encoding -/

/-- Only NBITS has a value that is well-formed in some commands and not in others. -/
theorem decode_encode {i : Instr} (hwf : i.wf = true) : decode (encode i) = .ok i := by
  cases i with
  | curRead nbits => simpa [encode, decode, decodeB_eq_ok, Instr.wf] using hwf
  | _ => simp [encode, decode, decodeN_eq_ok, decodeF1_eq_ok, decodeF2_eq_ok, decodeF5_eq_ok,
      decodeI_eq_ok, decodeT_eq_ok, noIndex_eq_ok]

/-- The rows of R93, taken by format: the opcode and the operand found are the command's. -/
theorem wf_and_encode_of_decode {w : Word} {i : Instr} (h : decode w = .ok i) :
    i.wf = true ∧ encode i = w := by
  unfold decode at h
  split at h
  case h_1 hop | h_3 hop | h_4 hop | h_5 hop | h_10 hop | h_13 hop | h_14 hop | h_15 hop | h_16 hop
      | h_17 hop | h_18 hop =>
    obtain ⟨rfl, hx⟩ := decodeN_eq_ok.1 h
    exact ⟨rfl, wordOf_of_fields hop hx⟩
  case h_2 hop | h_11 hop =>
    obtain ⟨b, rfl, hx⟩ := decodeF1_eq_ok.1 h
    exact ⟨rfl, wordOf_of_fields hop hx⟩
  case h_6 hop =>
    obtain ⟨nbits, rfl, hlegal, hx⟩ := decodeB_eq_ok.1 h
    exact ⟨hlegal, wordOf_of_fields hop hx⟩
  case h_7 hop | h_8 hop =>
    obtain ⟨imm, rfl, hx⟩ := decodeI_eq_ok.1 h
    exact ⟨rfl, wordOf_of_fields hop hx⟩
  case h_9 hop =>
    obtain ⟨sel, p, rfl, hx⟩ := decodeF5_eq_ok.1 h
    exact ⟨rfl, wordOf_of_fields hop hx⟩
  case h_12 hop =>
    obtain ⟨l, rfl, hx⟩ := decodeF2_eq_ok.1 h
    exact ⟨rfl, wordOf_of_fields hop hx⟩
  case h_19 hop | h_20 hop =>
    obtain ⟨t, idx, hi, hx⟩ := decodeT_eq_ok.1 h
    obtain ⟨rfl, rfl⟩ := noIndex_eq_ok.1 hi
    exact ⟨rfl, wordOf_of_fields hop hx⟩
  case h_21 hop =>
    obtain ⟨t, idx, hi, hx⟩ := decodeT_eq_ok.1 h
    cases hi
    exact ⟨rfl, wordOf_of_fields hop hx⟩
  case h_22 => cases h

/-- Settles O1: each format's decoder reads the fields the encoder wrote. -/
theorem decodeEncode : Obligations.DecodeEncode :=
  fun _ hwf => decode_encode hwf

/-- Settles O2: a word is its opcode above the operand its format's decoder found. -/
theorem encodeDecode : Obligations.EncodeDecode :=
  fun _ _ h => wf_and_encode_of_decode h

/-! ### The opcode table -/

theorem OpcodeRow.accepts_iff {r : OpcodeRow} {w : Word} :
    r.accepts w = true ↔ w &&& r.mask = r.pattern ∧ r.rule.holds w = true := by
  simp [OpcodeRow.accepts]

theorem row_mem_opcodeRows (i : Instr) : i.row ∈ opcodeRows := by
  cases i <;> simp [opcodeRows, Instr.row]

theorem exists_row_eq {r : OpcodeRow} (hr : r ∈ opcodeRows) : ∃ i : Instr, i.row = r := by
  simp only [opcodeRows, List.mem_cons, List.not_mem_nil, or_false] at hr
  rcases hr with rfl | rfl | rfl | rfl | rfl | rfl | rfl | rfl | rfl | rfl | rfl | rfl | rfl | rfl |
    rfl | rfl | rfl | rfl | rfl | rfl | rfl <;> exact ⟨_, rfl⟩

open Laws.RowMatch in
theorem encode_and_mask (i : Instr) : encode i &&& i.row.mask = i.row.pattern :=
  match i with
  | .nop => nop
  | .crcRun init => crcRun init
  | .crcCheck => crcCheck
  | .crcSeal => crcSeal
  | .curInit => curInit
  | .curRead n => curRead n
  | .curSkip k => curSkip k
  | .curSeek k => curSeek k
  | .tsEnc sel p => tsEnc sel p
  | .tsDec => tsDec
  | .pesWrite unb => pesWrite unb
  | .pesRead l => pesRead l
  | .patWrite => patWrite
  | .patRead => patRead
  | .pmtWrite => pmtWrite
  | .pmtRead => pmtRead
  | .psmWrite => psmWrite
  | .psmRead => psmRead
  | .tblClear t => tblClear t
  | .tblAdd t => tblAdd t
  | .tblGet t idx => tblGet t idx

theorem rule_holds_encode {i : Instr} (hwf : i.wf = true) : i.row.rule.holds (encode i) = true := by
  cases i with
  | curRead n =>
    have hn := ((extractLsb'_eq_append_iff 17 7).1 (operand_wordOf 0x11 (0#17 ++ n))).2
    exact (congrArg legalNbits hn).trans hwf
  | pesRead l => cases l <;> rfl
  | tblClear t | tblAdd t => cases t <;> rfl
  | tblGet t idx =>
    obtain ⟨-, ht, -⟩ := (extractLsb'_eq_append_append_iff 6 2 16).1
      (operand_wordOf 0x3A (0#6 ++ bitsOfTable t ++ idx))
    exact (congrArg (· != 3) ht).trans (by cases t <;> rfl)
  | _ => rfl

theorem row_accepts_of_decode {w : Word} {i : Instr} (h : decode w = .ok i) :
    i.row.accepts w = true := by
  obtain ⟨hwf, rfl⟩ := wf_and_encode_of_decode h
  exact OpcodeRow.accepts_iff.2 ⟨encode_and_mask i, rule_holds_encode hwf⟩

/-- The mask covers the opcode and the reserved bits of the row's format, so both are the pattern's. -/
theorem decode_of_row_accepts {w : Word} {i : Instr} (h : i.row.accepts w = true) :
    ∃ j, decode w = .ok j := by
  obtain ⟨hmask, hrule⟩ := OpcodeRow.accepts_iff.1 h
  cases i <;> simp only [Instr.row] at hmask hrule <;>
    rw [decode, extractLsb'_of_and_eq 24 8 hmask rfl]
  case nop | crcCheck | crcSeal | curInit | tsDec | patWrite | patRead | pmtWrite | pmtRead | psmWrite
      | psmRead => exact ⟨_, if_pos (extractLsb'_of_and_eq 0 24 hmask rfl)⟩
  case crcRun | pesWrite => exact ⟨_, if_pos (extractLsb'_of_and_eq 1 23 hmask rfl)⟩
  case curRead =>
    exact ⟨_, (if_pos (extractLsb'_of_and_eq 7 17 hmask rfl)).trans (if_pos hrule)⟩
  case curSkip | curSeek => exact ⟨_, rfl⟩
  case tsEnc => exact ⟨_, if_pos (extractLsb'_of_and_eq 5 19 hmask rfl)⟩
  case pesRead =>
    obtain ⟨l, hl⟩ := exists_eq_bitsOfLayout hrule
    have hres := extractLsb'_of_and_eq 2 22 hmask rfl
    exact ⟨_, decodeF2_eq_ok.2 ⟨l, rfl, (extractLsb'_eq_append_iff 22 2).2 ⟨hres, hl⟩⟩⟩
  case tblClear | tblAdd =>
    obtain ⟨t, ht⟩ := exists_eq_bitsOfTable hrule
    have hres := extractLsb'_of_and_eq 18 6 hmask rfl
    have hidx := extractLsb'_of_and_eq 0 16 hmask rfl
    exact ⟨_, decodeT_eq_ok.2
      ⟨t, 0, rfl, (extractLsb'_eq_append_append_iff 6 2 16).2 ⟨hres, ht, hidx⟩⟩⟩
  case tblGet =>
    obtain ⟨t, ht⟩ := exists_eq_bitsOfTable hrule
    have hres := extractLsb'_of_and_eq 18 6 hmask rfl
    exact ⟨_, decodeT_eq_ok.2
      ⟨t, _, rfl, (extractLsb'_eq_append_append_iff 6 2 16).2 ⟨hres, ht, rfl⟩⟩⟩

theorem opcode_of_accepts {w : Word} {r : OpcodeRow} (hr : r ∈ opcodeRows) (h : r.accepts w = true) :
    w.extractLsb' 24 8 = r.pattern.extractLsb' 24 8 := by
  have hcovers : ∀ r ∈ opcodeRows, r.mask.extractLsb' 24 8 = BitVec.allOnes 8 := by decide
  exact extractLsb'_of_and_eq 24 8 (OpcodeRow.accepts_iff.1 h).1 (hcovers r hr)

theorem opcodeRows_eq_of_opcode_eq : ∀ r ∈ opcodeRows, ∀ r' ∈ opcodeRows,
    r.pattern.extractLsb' 24 8 = r'.pattern.extractLsb' 24 8 → r = r' := by
  decide

/-- Settles O3: a row accepts what its format's decoder accepts, and no two rows have one opcode. -/
theorem wordNamesOneCommand : Obligations.WordNamesOneCommand := by
  refine ⟨fun w => ⟨fun ⟨i, hi⟩ => ?_, fun ⟨r, hr, h⟩ => ?_⟩, fun w i hi r hr => ⟨fun h => ?_, ?_⟩⟩
  · exact ⟨i.row, row_mem_opcodeRows i, row_accepts_of_decode hi⟩
  · obtain ⟨i, rfl⟩ := exists_row_eq hr
    exact decode_of_row_accepts h
  · have hrow := row_mem_opcodeRows i
    refine opcodeRows_eq_of_opcode_eq r hr i.row hrow ?_
    rw [← opcode_of_accepts hr h, opcode_of_accepts hrow (row_accepts_of_decode hi)]
  · rintro rfl
    exact row_accepts_of_decode hi

/-! ### Words written out -/

/-- Settles O4: line by line, by evaluation. -/
theorem pseudoInstructionWords : Obligations.PseudoInstructionWords :=
  ⟨rfl, rfl, rfl, rfl, rfl, rfl, rfl, rfl, rfl, rfl, rfl, rfl, rfl, rfl, rfl, rfl, rfl⟩

/-- Settles O5: word by word, by evaluation. -/
theorem sampleWords : Obligations.SampleWords :=
  ⟨rfl, rfl, rfl, rfl, rfl, rfl, rfl, rfl, rfl, rfl, rfl⟩

end Sys2Proof
end

section
/-! Wire formats: the 5-byte timestamp field (30_encoding.md R100) and the stream_id classes (R107). -/

namespace Sys2Proof.Machine

/-! ### The 5-byte timestamp field -/

section Timestamp

variable (p : BitVec 4) (v : BitVec 33)

theorem tsField_bits : BitVec.ofNat 40 (rdBE (tsField p v)) =
    p ++ v.extractLsb' 30 3 ++ 1#1 ++ v.extractLsb' 15 15 ++ 1#1 ++ v.extractLsb' 0 15 ++ 1#1 := by
  have hmid : (v.extractLsb' 15 15).toNat = (v.extractLsb' 22 8 ++ v.extractLsb' 15 7).toNat :=
    congrArg BitVec.toNat (extractLsb'_append_adjacent v 15 8 7).symm
  have hlow : (v.extractLsb' 0 15).toNat = (v.extractLsb' 7 8 ++ v.extractLsb' 0 7).toNat :=
    congrArg BitVec.toNat (extractLsb'_append_adjacent v 0 8 7).symm
  apply BitVec.eq_of_toNat_eq
  simp only [toNat_append_eq_add, tsField, rdBE, List.foldl, hmid, hlow, BitVec.toNat_ofNat]
  omega

theorem tsField_firstByte (c : BitVec 3) : (p ++ c ++ 1#1).extractLsb' 4 4 = p ∧
    (p ++ c ++ 1#1).extractLsb' 1 3 = c := by
  obtain ⟨hp, hc, -⟩ := (extractLsb'_eq_append_append_iff 4 3 1).1
    (BitVec.extractLsb'_eq_self (x := p ++ c ++ 1#1))
  exact ⟨hp, hc⟩

theorem tsPrefix_tsField : tsPrefix (tsField p v) = p :=
  (tsField_firstByte p _).1

theorem tsValue_tsField : tsValue (tsField p v) = v := by
  have h0 := (tsField_firstByte p (v.extractLsb' 30 3)).2
  have hmarked (c : BitVec 7) : (c ++ 1#1).extractLsb' 1 7 = c := BitVec.extractLsb'_append_eq_left
  calc tsValue (tsField p v)
    _ = (p ++ v.extractLsb' 30 3 ++ 1#1).extractLsb' 1 3 ++ v.extractLsb' 22 8 ++
        (v.extractLsb' 15 7 ++ 1#1).extractLsb' 1 7 ++ v.extractLsb' 7 8 ++
        (v.extractLsb' 0 7 ++ 1#1).extractLsb' 1 7 := rfl
    _ = v.extractLsb' 30 3 ++ v.extractLsb' 22 8 ++ v.extractLsb' 15 7 ++ v.extractLsb' 7 8 ++
        v.extractLsb' 0 7 := by rw [h0, hmarked, hmarked]
    _ = v.extractLsb' 22 11 ++ v.extractLsb' 15 7 ++ v.extractLsb' 7 8 ++ v.extractLsb' 0 7 := by
      rw [extractLsb'_append_adjacent v 22 3 8]
    _ = v.extractLsb' 15 18 ++ v.extractLsb' 7 8 ++ v.extractLsb' 0 7 := by
      rw [extractLsb'_append_adjacent v 15 11 7]
    _ = v.extractLsb' 7 26 ++ v.extractLsb' 0 7 := by rw [extractLsb'_append_adjacent v 7 18 8]
    _ = v.extractLsb' 0 33 := extractLsb'_append_adjacent v 0 26 7
    _ = v := BitVec.extractLsb'_eq_self

theorem tsMarkersOk_tsField : tsMarkersOk (tsField p v) = true := by
  change ((p ++ v.extractLsb' 30 3 ++ 1#1).getLsbD 0 && (v.extractLsb' 15 7 ++ 1#1).getLsbD 0 &&
    (v.extractLsb' 0 7 ++ 1#1).getLsbD 0) = true
  simp only [getLsbD_zero_append_one, Bool.and_self]

end Timestamp

/-- Settles O36: the five bytes as one number, and each reader's bits found in them. -/
theorem timestampField : Obligations.TimestampField := fun p v =>
  ⟨tsField_bits p v, tsValue_tsField p v, tsPrefix_tsField p v, tsMarkersOk_tsField p v⟩

/-! ### Stream identifiers -/

section StreamIds

variable {sid : Byte}

theorem noHdr_iff : noHdr sid = true ↔ sid = 0xBC ∨ sid = 0xBE ∨ sid = 0xBF ∨ sid = 0xF0 ∨
    sid = 0xF1 ∨ sid = 0xF2 ∨ sid = 0xF8 ∨ sid = 0xFF := by
  simp [noHdr]

theorem hdrBearing_iff : hdrBearing sid = true ↔ 0xBD ≤ sid.toNat ∧ ¬ noHdr sid = true := by
  simp [hdrBearing]

theorem isVideo_iff : isVideo sid = true ↔ 0xE0 ≤ sid.toNat ∧ sid.toNat ≤ 0xEF := by
  simp [isVideo]

end StreamIds

/-- Settles O37: on each branch of the class, a comparison of the stream_id with the table's bounds. -/
theorem streamClasses : Obligations.StreamClasses := by
  intro sid
  have hlt := sid.isLt
  simp only [streamClass, hdrBearing_iff, noHdr_iff, isVideo_iff, ← BitVec.toNat_inj,
    BitVec.ofNat_eq_ofNat, BitVec.reduceToNat]
  split_ifs <;> simp only [or_self, or_true, true_or, true_iff, false_iff, iff_true, iff_false] <;>
    omega

end Sys2Proof.Machine
end

section
/-! Big-endian fields as numbers (00_scope.md R10): four bytes and the word they stand for. -/

namespace Sys2Proof.Machine

theorem be32_append (b₀ b₁ b₂ b₃ : Byte) : be32 (b₀ ++ b₁ ++ b₂ ++ b₃) = [b₀, b₁, b₂, b₃] := by
  obtain ⟨h, h₃⟩ := (extractLsb'_eq_append_iff 24 8).1
    (BitVec.extractLsb'_eq_self (x := b₀ ++ b₁ ++ b₂ ++ b₃))
  obtain ⟨h₀, h₁, h₂⟩ := (extractLsb'_eq_append_append_iff 8 8 8).1 h
  rw [be32, h₀, h₁, h₂, h₃]

theorem rdBE_four (b₀ b₁ b₂ b₃ : Byte) : rdBE [b₀, b₁, b₂, b₃] = (b₀ ++ b₁ ++ b₂ ++ b₃).toNat := by
  simp only [toNat_append_eq_add, rdBE, List.foldl, Nat.zero_mul, Nat.zero_add, Nat.reducePow]

/-- Four bytes whose number is that of a word are the word's bytes. -/
theorem eq_be32_of_rdBE {t : List Byte} {c : Word} (hlen : t.length = 4) (h : c.toNat = rdBE t) :
    t = be32 c := by
  obtain ⟨b₀, b₁, b₂, b₃, rfl⟩ := List.length_eq_four.1 hlen
  rw [rdBE_four] at h
  rw [BitVec.eq_of_toNat_eq h, be32_append]

end Sys2Proof.Machine
end

section
/-! The CRC function (40_crc.md R140, R141, R145): chaining, the table form from the step's linearity, and the
residue of a section with its trailer. -/

namespace Sys2Proof.Machine

/-! ### Chaining -/

@[simp] theorem crc32_nil (seed : Word) : crc32 seed [] = seed := rfl

theorem crc32_append (seed : Word) (a b : List Byte) : crc32 seed (a ++ b) = crc32 (crc32 seed a) b :=
  List.foldl_append

/-! ### The table form -/

theorem crcByte_xor (a c : Word) (x y : Byte) :
    crcByte (a ^^^ c) (x ^^^ y) = crcByte a x ^^^ crcByte c y := by
  have hbyte : (x ^^^ y).setWidth 32 <<< 24 =
      (x.setWidth 32 <<< 24 ^^^ y.setWidth 32 <<< 24 : Word) := by
    rw [BitVec.setWidth_xor, BitVec.shiftLeft_xor_distrib]
  have hswap (p q r t : Word) : p ^^^ q ^^^ (r ^^^ t) = p ^^^ r ^^^ (q ^^^ t) := by ac_rfl
  rw [crcByte, hbyte, hswap, crcShifts_xor]
  rfl

/-- The byte step splits into the state's own top byte, which only shifts, and a table entry. -/
theorem crcByte_eq_crcTableByte (c : Word) (b : Byte) : crcByte c b = crcTableByte c b := by
  let top : Byte := c.extractLsb' 24 8
  calc crcByte c b
    _ = crcByte (c ^^^ 0#32) (top ^^^ (top ^^^ b)) := by
      rw [BitVec.xor_zero, ← BitVec.xor_assoc, BitVec.xor_self, BitVec.zero_xor]
    _ = crcByte c top ^^^ crcByte 0 (top ^^^ b) := crcByte_xor ..
    _ = crcTableByte c b := by rw [crcByte_top]; rfl

/-- Settles O24: the two forms agree byte by byte; the listed values are computed. -/
theorem crcTableForm : Obligations.CrcTableForm := by
  refine ⟨fun seed b => ?_, fun seed b x => ?_, rfl, rfl, rfl, rfl, rfl, rfl, rfl, rfl, crc32_nil,
    by decide +kernel⟩
  · exact congrArg (b.foldl · seed) (funext₂ fun c x => (crcByte_eq_crcTableByte c x).symm)
  · exact (crc32_append seed b [x]).trans (crcByte_eq_crcTableByte _ x)

/-! ### The trailer -/

theorem crc32_append_be32 (seed : Word) (b : List Byte) : crc32 seed (b ++ be32 (crc32 seed b)) = 0 := by
  rw [crc32_append, crc32_be32]

/-- A trailer that agrees leaves residue 0, since it is the big-endian CRC of what is before it. -/
theorem residue_zero_of_crcAgrees {s : List Byte} (hlen : 4 ≤ s.length) (h : crcAgrees s) :
    crc32 psiSeed s = 0 := by
  have htrailer : s.drop (s.length - 4) = be32 (crc32 psiSeed (s.take (s.length - 4))) :=
    eq_be32_of_rdBE (by rw [List.length_drop]; omega) h
  rw [← List.take_append_drop (s.length - 4) s, htrailer, crc32_append_be32]

/-- Settles O26: one changed byte changes the CRC, so the residue is not 0, and a trailer that agreed would leave
residue 0. -/
theorem sealedResidue : Obligations.SealedResidue := by
  refine ⟨crc32_append_be32 psiSeed, fun b j x hj hx => ?_⟩
  have hbyte : byteAt (sealed b) j = (sealed b)[j] := List.getD_eq_getElem _ _ hj
  have hresidue : crc32 psiSeed ((sealed b).set j x) ≠ 0 := by
    rw [← crc32_append_be32 psiSeed b]
    exact crc32_set_ne hj (hbyte ▸ hx)
  have hlen : 4 ≤ ((sealed b).set j x).length := by simp
  exact ⟨hresidue, mt (residue_zero_of_crcAgrees hlen) hresidue⟩

end Sys2Proof.Machine
end

section
/-! The CRC commands (40_crc.md R141 to R144): the full next state of each, and its failures. -/

namespace Sys2Proof.Machine

/-! ### A command from its pseudocode -/

section Endings

variable {i : Instr} {s : State}

theorem exec_of_ok {t : State} (h : pseudocode i s = .ok t) : exec i s = .next t :=
  exec_eq_next.2 (.inl h)

theorem fail_eq_failed (s : State) (c : Code) : s.fail { code := c } = s.failed c :=
  fail_eq_of_plain rfl rfl

/-- A failure that keeps no write (60_exceptions.md R283). -/
theorem exec_of_plain_error {c : Code} (h : pseudocode i s = .error { code := c }) :
    exec i s = .next (s.failed c) :=
  exec_eq_next.2 (.inr ⟨_, h, (fail_eq_failed s c).symm⟩)

end Endings

/-! ### CRC_RUN -/

/-- Settles O27: the two answers of the pseudocode. -/
theorem crcRunResult : Obligations.CrcRunResult := fun _ _ =>
  ⟨fun hin => exec_of_ok (crcRun_eq_ok.2 ⟨hin, rfl⟩),
    fun hout => exec_of_plain_error (crcRun_eq_error.2 ⟨hout, rfl⟩)⟩

/-- Settles O25: both ranges lie in memory, the second begins where the first ends, and CRC_ACC carries the CRC of
the first into the second command. -/
theorem crcChaining : Obligations.CrcChaining := by
  refine ⟨fun x a b => (crc32_append x a b).symm, fun s t init n k hn hmem hlt ht => ?_⟩
  subst hn
  have hin : InMem s s.srcAddr.toNat s.srcLen.toNat := by unfold InMem; omega
  have hnext : (s.srcAddr + s.srcLen).toNat = s.srcAddr.toNat + s.srcLen.toNat :=
    BitVec.toNat_add_of_lt hlt
  obtain rfl := Host.Outcome.next.inj (((crcRunResult init s).1 hin).symm.trans ht)
  refine ⟨_, (crcRunResult false _).1 (?_ : _ + _ ≤ s.params.memBytes), rfl, ?_⟩
  · rwa [hnext]
  · rw [Memory.readBytes_append, crc32_append, ← hnext]
    rfl

/-! ### CRC_CHECK -/

theorem crcCheck_eq_error {s : State} {r : Raise} :
    crcCheck s = .error r ↔
      ((¬ InMem s s.srcAddr.toNat s.srcLen.toNat ∨ ¬ 4 ≤ s.srcLen.toNat) ∧ r = .invalidArgument) ∨
      (InMem s s.srcAddr.toNat s.srcLen.toNat ∧ 4 ≤ s.srcLen.toNat ∧
        (crc32 psiSeed (s.mem.readBytes s.srcAddr.toNat (s.srcLen.toNat - 4))).toNat ≠
          rdBE (s.mem.readBytes (s.srcAddr.toNat + s.srcLen.toNat - 4) 4) ∧ r = .invalidData) := by
  simp only [crcCheck, check_bind_eq_error, reduceCtorEq, and_false, or_false, eq_comm (a := r)]
  tauto

/-- Two byte strings that fill a range are the bytes of its two parts. -/
theorem Memory.readBytes_eq_append_iff {m : Memory} {a n : Nat} {b c : List Byte} :
    m.readBytes a n = b ++ c ↔
      n = b.length + c.length ∧ m.readBytes a b.length = b ∧ m.readBytes (a + b.length) c.length = c := by
  constructor
  · intro h
    have hn : n = b.length + c.length := by simpa using congrArg List.length h
    rw [hn, Memory.readBytes_append] at h
    exact ⟨hn, List.append_inj h (by simp)⟩
  · rintro ⟨rfl, hb, hc⟩
    rw [Memory.readBytes_append, hb, hc]

/-- Settles O28: the range read as its content and its trailer. -/
theorem crcCheckResult : Obligations.CrcCheckResult := by
  refine fun s => ⟨fun content trailer htrailer hin hread => ?_, fun hout => ?_⟩
  · obtain ⟨hlen, hcontent, hcheck⟩ := Memory.readBytes_eq_append_iff.1 hread
    rw [htrailer] at hlen hcheck
    have h4 : 4 ≤ s.srcLen.toNat := by omega
    rw [show content.length = s.srcLen.toNat - 4 by omega] at hcontent
    rw [show s.srcAddr.toNat + content.length = s.srcAddr.toNat + s.srcLen.toNat - 4 by omega]
      at hcheck
    subst hcontent hcheck
    exact ⟨fun h => exec_of_ok (crcCheck_eq_ok.2 ⟨hin, h4, h, rfl⟩),
      fun h => exec_of_plain_error (crcCheck_eq_error.2 (.inr ⟨hin, h4, h, rfl⟩))⟩
  · exact exec_of_plain_error (crcCheck_eq_error.2 (.inl ⟨hout.imp_right Nat.not_le.2, rfl⟩))

/-! ### CRC_SEAL -/

/-- Settles O29: the trailer written reads back, and every byte outside it reads as before. -/
theorem crcSealResult : Obligations.CrcSealResult := by
  refine fun s => ⟨fun hwf hin => ?_, fun hout => exec_of_plain_error (crcSeal_eq_error.2 ⟨hout, rfl⟩)⟩
  exact ⟨_, exec_of_ok (crcSeal_eq_ok.2 ⟨hin, rfl⟩), Memory.readBytes_writeBytes hwf _ (be32 _),
    fun _ ha => Memory.read_writeBytes_outside s.mem (be32 _) ha⟩

end Sys2Proof.Machine
end

section
/-! What a step keeps (10_state.md R21, 20_memory.md R70, 41_cursor.md R161, R162, 43_psi.md R221): what a command can
do to the cursor and to a staging list, then the invariant over commands, host accesses and steps. -/

namespace Sys2Proof.Machine

/-! ### The cursor after a success -/

/-- What a command that succeeds can do to the cursor: nothing, a move inside the stream from a cursor not in error,
or the latching of `CUR_INIT`. -/
inductive CursorMove (s : State) : Instr → Cursor → Prop
  | kept {i : Instr} : CursorMove s i s.cur
  | moved {i : Instr} {p : Nat} (noErr : s.cur.err = false) (inside : p ≤ 8 * s.cur.total) :
      CursorMove s i (s.setPos p).cur
  | latched {t : State} (h : curInit s = .ok t) : CursorMove s .curInit t.cur

section Cursor

variable {i : Instr} {s t : State}

theorem CursorMove.epilogue {o e : Nat} (ho : prologue s = .ok o) (he : e ≤ s.cur.total) :
    CursorMove s i (s.epilogue e).cur :=
  .moved (prologue_eq_ok.1 ho).2.1 (Nat.mul_le_mul_left 8 he)

theorem Succeeds.cursorMove (h : Succeeds i s t) : CursorMove s i t.cur := by
  cases h with
  | curInit _ h0 h1 ht => exact .latched (curInit_eq_ok.2 ⟨h0, h1, ht, rfl⟩)
  | curRead _ _ _ _ he hp | curSkip _ _ _ he hp => exact .moved he hp
  | curSeek _ _ _ he hp => exact .moved he (Nat.mul_le_mul_left 8 hp)
  | tsDec _ _ _ _ _ ho hp | pesRead _ _ _ _ _ _ ho hp => exact .epilogue ho hp
  | patIgnored _ _ hr | patRebuilt _ _ hr | pmtIgnored _ _ _ hr | pmtRebuilt _ _ _ _ hr
  | psmIgnored _ _ _ hr | psmRebuilt _ _ _ _ hr => exact .epilogue hr.prologue hr.room
  | tblClear tb => cases tb <;> exact .kept
  | tblAdd tb => cases tb <;> exact .kept
  | _ => exact .kept

/-- A position inside the stream stays inside it, in 32 bits as well. -/
theorem CursorMove.pos_le {c : Cursor} (h : CursorMove s i c)
    (hpos : s.cur.pos.toNat ≤ 8 * s.cur.total) : c.pos.toNat ≤ 8 * c.total := by
  cases h with
  | kept => exact hpos
  | moved _ inside => exact Nat.le_trans (Nat.mod_le _ _) inside
  | latched h =>
    obtain ⟨-, -, -, rfl⟩ := curInit_eq_ok.1 h
    exact Nat.zero_le _

end Cursor

/-- The part of the invariant about the cursor (41_cursor.md R161, R162). -/
structure State.CursorInv (s : State) (c : Cursor) : Prop where
  range0 : InMem s c.base0.toNat c.len0.toNat
  range1 : InMem s c.base1.toNat c.len1.toNat
  total : c.total < 2 ^ 29
  pos : c.pos.toNat ≤ 8 * c.total

theorem State.Inv.cursorInv {s : State} (h : s.Inv) : s.CursorInv s.cur :=
  ⟨h.range0, h.range1, h.total, h.pos⟩

theorem CursorMove.cursorInv {i : Instr} {s : State} {c : Cursor} (h : CursorMove s i c)
    (hs : s.CursorInv s.cur) : s.CursorInv c := by
  have hpos := h.pos_le hs.pos
  cases h with
  | kept => exact hs
  | moved => exact { hs with pos := hpos }
  | latched h =>
    obtain ⟨h0, h1, htotal, rfl⟩ := curInit_eq_ok.1 h
    exact ⟨h0, h1, htotal, hpos⟩

/-! ### The staging lists after a success -/

/-- How many entries a staging list holds; COUNT shows it in 16 bits (10_state.md R40, log 7). -/
def State.listLength (s : State) : Table → Nat
  | .pat => s.pat.entries.length
  | .pmt => s.pmt.entries.length
  | .psm => s.psm.entries.length

theorem State.count_eq_countReg (s : State) (tb : Table) : s.count tb = countReg (s.listLength tb) := by
  cases tb <;> rfl

theorem State.listLength_clearTable (s : State) (tb' tb : Table) :
    (s.clearTable tb').listLength tb = if tb' = tb then 0 else s.listLength tb := by
  cases tb' <;> cases tb <;> rfl

theorem State.listLength_addEntry (s : State) (tb' tb : Table) :
    (s.addEntry tb').listLength tb = if tb' = tb then s.listLength tb + 1 else s.listLength tb := by
  cases tb' <;> cases tb <;> simp [State.listLength, State.addEntry]

/-- What a command that succeeds can do to the length of a staging list. -/
theorem Succeeds.listLength_cases {i : Instr} {s t : State} (h : Succeeds i s t) (tb : Table) :
    t.listLength tb = s.listLength tb ∨ t.listLength tb ≤ s.cap tb ∨
      ((s.count tb).toNat ≠ s.cap tb ∧ t.listLength tb = s.listLength tb + 1) := by
  cases h with
  | patRebuilt _ b _ hc =>
    cases tb with
    | pat => exact .inr (.inl (by simpa [State.listLength, Machine.patRebuilt, State.cap] using hc))
    | _ => exact .inl rfl
  | pmtRebuilt _ b items _ _ hc =>
    cases tb with
    | pmt => exact .inr (.inl (by simpa [State.listLength, Machine.pmtRebuilt, State.cap] using hc))
    | _ => exact .inl rfl
  | psmRebuilt _ b items _ _ hc =>
    cases tb with
    | psm => exact .inr (.inl (by simpa [State.listLength, Machine.psmRebuilt, State.cap] using hc))
    | _ => exact .inl rfl
  | tblClear tb' =>
    have hlen : ((s.clearTable tb').done 0 0).listLength tb = if tb' = tb then 0 else s.listLength tb :=
      s.listLength_clearTable tb' tb
    rw [hlen]
    split
    · exact .inr (.inl (Nat.zero_le _))
    · exact .inl rfl
  | tblAdd tb' _ r hc =>
    have hlen : ((s.addEntry tb').done 0 r).listLength tb =
        if tb' = tb then s.listLength tb + 1 else s.listLength tb := s.listLength_addEntry tb' tb
    rw [hlen]
    split
    · next htb => exact .inr (.inr ⟨htb ▸ hc, rfl⟩)
    · exact .inl rfl
  | _ => exact .inl rfl

/-- A list below its capacity has room for one entry more, since COUNT shows its length. -/
theorem Succeeds.listLength_le {i : Instr} {s t : State} (h : Succeeds i s t) {tb : Table}
    (hcap : s.cap tb < 2 ^ 16) (hlen : s.listLength tb ≤ s.cap tb) : t.listLength tb ≤ s.cap tb := by
  rcases h.listLength_cases tb with heq | hle | ⟨hcount, heq⟩
  · exact heq ▸ hlen
  · exact hle
  · have hshown : (s.count tb).toNat = s.listLength tb := by
      rw [s.count_eq_countReg]
      exact Nat.mod_eq_of_lt (Nat.lt_of_le_of_lt hlen hcap)
    omega

/-! ### Commands -/

/-- Bytes written inside memory leave every cell inside it. -/
theorem Memory.writeBytes_within {m : Memory} {a n : Nat} {b : List Byte} (h : a + b.length ≤ n)
    (hm : ∀ c ∈ m, c.1 < n) : ∀ c ∈ m.writeBytes a b, c.1 < n := by
  intro c hc
  rcases Memory.mem_writeBytes hc with ⟨-, hlt⟩ | hold
  · omega
  · exact hm c hold

theorem Succeeds.inv {i : Instr} {s t : State} (h : Succeeds i s t) (hs : s.Inv) : t.Inv := by
  obtain ⟨b, hb⟩ := h.stores
  have hcur := h.cursorMove.cursorInv hs.cursorInv
  have hcode : t.status.code ≠ .writeFailed := by rw [h.code_ok]; nofun
  have hmemWf : t.mem.wf = true := by rw [hb.mem]; exact Memory.writeBytes_wf hs.memWf _ b
  have hmemIn : ∀ c ∈ t.mem, c.1 < s.params.memBytes := by
    rw [hb.mem]; exact Memory.writeBytes_within hb.inMem hs.memIn
  have hlist {tb : Table} (hlen : s.cap tb < 2 ^ 16 → s.listLength tb ≤ s.cap tb)
      (hcap : s.cap tb < 2 ^ 16) : t.listLength tb ≤ s.cap tb := h.listLength_le hcap (hlen hcap)
  rw [h.eq_framed]
  exact {
    params := hs.params, memWf := hmemWf, memIn := hmemIn
    range0 := hcur.range0, range1 := hcur.range1, total := hcur.total, pos := hcur.pos
    code := hcode
    patCap := hlist (tb := .pat) hs.patCap
    pmtCap := hlist (tb := .pmt) hs.pmtCap
    psmCap := hlist (tb := .psm) hs.psmCap
    hostPos := hs.hostPos, pc := hs.pc }

theorem exec_inv {i : Instr} {s t : State} (h : exec i s = .next t) (hs : s.Inv) : t.Inv := by
  rcases exec_eq_next.1 h with hok | ⟨r, herr, rfl⟩
  · exact (pseudocode_ok hok).inv hs
  · obtain ⟨-, -, hcode, -⟩ := pseudocode_error herr
    exact { hs with code := hcode }

/-! ### Host accesses -/

theorem launch_inv {w : Word} {s t : State} (h : launch w s = .next t)
    (hs : State.Inv { s with pc := s.pc + 1 }) : t.Inv := by
  have hcmd : State.Inv { s with cmd := w, pc := s.pc + 1 } := { hs with }
  unfold launch at h
  split at h
  · exact exec_inv h hcmd
  · obtain rfl := Host.Outcome.next.inj h
    exact { hcmd with code := nofun }

theorem hostRegWrite_inv {s : State} (hs : s.Inv) (off : BitVec 9) (v : Word) :
    (hostRegWrite off v s).Inv := by
  unfold hostRegWrite
  split
  · next r _ => cases r <;> exact { hs with }
  · exact hs

theorem hostMemWrite_inv {a : Word} {b : List Byte} {s t : State} (hs : s.Inv)
    (h : hostMemWrite a b s = .next t) : t.Inv := by
  unfold hostMemWrite at h
  split at h
  · next hin =>
    obtain rfl := Host.Outcome.next.inj h
    exact { hs with
      memWf := Memory.writeBytes_wf hs.memWf _ b
      memIn := Memory.writeBytes_within hin hs.memIn }
  · cases h

theorem hostMemRead_inv {a : Word} {n : Nat} {s t : State} (hs : s.Inv)
    (h : hostMemRead a n s = .next t) : t.Inv := by
  unfold hostMemRead at h
  split at h
  · obtain rfl := Host.Outcome.next.inj h
    exact { hs with }
  · cases h

theorem platformReset_inv {s : State} (hs : s.Inv) : (platformReset s).Inv :=
  { State.resetWith_inv hs.params hs.memWf hs.memIn with hostPos := hs.hostPos, pc := hs.pc }

/-! ### Steps -/

/-- The next access taken from the sequence, and counted if it writes CMD (10_state.md R21). -/
theorem State.Inv.take_event {s : State} {e : HostEvent} (hs : s.Inv) (he : s.host[s.hostPos]? = some e) :
    State.Inv { s with hostPos := s.hostPos + 1, pc := s.pc + if isCommand e then 1 else 0 } := by
  obtain ⟨hlt, -⟩ := List.getElem?_eq_some_iff.1 he
  refine { hs with hostPos := hlt, pc := ?_ }
  rw [List.take_add_one, he, List.countP_append, ← hs.pc]
  exact congrArg (s.pc + ·) (List.countP_singleton ..).symm

theorem perform_inv {e : HostEvent} {s t : State} (h : perform e s = .next t)
    (hs : State.Inv { s with pc := s.pc + if isCommand e then 1 else 0 }) : t.Inv := by
  cases e with
  | regWrite width off v =>
    simp only [perform] at h
    split at h
    · split at h
      · next hcmd => rw [if_pos hcmd] at hs; exact launch_inv h hs
      · next hcmd =>
        rw [if_neg hcmd] at hs
        obtain rfl := Host.Outcome.next.inj h
        exact hostRegWrite_inv hs off v
    · cases h
  | regRead width off =>
    simp only [perform] at h
    split at h
    · obtain rfl := Host.Outcome.next.inj h
      exact { hs with }
    · cases h
  | memWrite a b => exact hostMemWrite_inv hs h
  | memRead a n => exact hostMemRead_inv hs h
  | reset =>
    obtain rfl := Host.Outcome.next.inj h
    exact platformReset_inv hs

/-- Settles O22: a step takes the next access from the sequence, which the command index counts, and performs it. -/
theorem stepKeepsInvariant : Obligations.StepKeepsInvariant := by
  intro s t hs h
  cases he : s.host[s.hostPos]? with
  | none =>
    have hidle : step s = .next s := by simp only [step, he]
    exact Host.Outcome.next.inj (hidle.symm.trans h) ▸ hs
  | some e =>
    rw [step_of_event he] at h
    exact perform_inv h (hs.take_event he)

end Sys2Proof.Machine
end

section
/-! The cursor's own commands (41_cursor.md R160 to R165): the sticky error, the logical stream as bytes and bits, and
the full next state of each command. -/

namespace Sys2Proof.Machine

/-! ### The sticky error -/

section Sticky

variable {i : Instr} {s t : State}

theorem Succeeds.noErr_of_decoder (h : Succeeds i s t) (hi : isDecoder i = true) : s.cur.err = false := by
  cases h with
  | tsDec _ _ _ _ _ ho | pesRead _ _ _ _ _ _ ho => exact (prologue_eq_ok.1 ho).2.1
  | patIgnored _ _ hr | patRebuilt _ _ hr | pmtIgnored _ _ _ hr | pmtRebuilt _ _ _ _ hr
  | psmIgnored _ _ _ hr | psmRebuilt _ _ _ _ hr => exact hr.noErr
  | _ => cases hi

theorem fail_cur_of_err (he : s.cur.err = true) (r : Raise) : (s.fail r).cur = s.cur := by
  rw [State.fail_cur, he, Bool.true_or, ← he]

/-- A cursor in error is moved by no success but that of `CUR_INIT`. -/
theorem CursorMove.eq_or_curInit {c : Cursor} (h : CursorMove s i c) (he : s.cur.err = true) :
    c = s.cur ∨ i = .curInit := by
  cases h with
  | kept => exact .inl rfl
  | moved noErr => rw [he] at noErr; cases noErr
  | latched => exact .inr rfl

theorem curRead_of_not {n : BitVec 7}
    (h : ¬ (s.cur.err = false ∧ s.cur.pos.toNat + n.toNat ≤ 8 * s.cur.total)) :
    exec (.curRead n) s = .next (s.fail .readPastEnd) :=
  exec_eq_next.2 (.inr ⟨_, curRead_eq_error.2 ⟨h, rfl⟩, rfl⟩)

end Sticky

/-- Settles O17: the moves a success can make, and a failure that finds `cur.err` set leaves the cursor. -/
theorem cursorErrorIsSticky : Obligations.CursorErrorIsSticky := by
  refine ⟨fun i s t _ hpos h => ?_, fun i s t he h => ⟨fun hne => ?_, fun n hi => ?_, fun hi hok => ?_⟩⟩
  · rcases exec_eq_next.1 h with hok | ⟨r, -, rfl⟩
    · exact (pseudocode_ok hok).cursorMove.pos_le hpos
    · exact hpos
  · rcases exec_eq_next.1 h with hok | ⟨r, -, rfl⟩
    · have hs := pseudocode_ok hok
      exact ⟨(hs.cursorMove.eq_or_curInit he).resolve_left hne, hs.code_ok⟩
    · exact absurd (fail_cur_of_err he r) hne
  · subst hi
    have hfail := curRead_of_not (n := n) (s := s) (by simp [he])
    obtain rfl := Host.Outcome.next.inj (hfail.symm.trans h)
    exact ⟨rfl, rfl, rfl⟩
  · rcases exec_eq_next.1 h with hsucc | ⟨r, herr, rfl⟩
    · rw [(pseudocode_ok hsucc).noErr_of_decoder hi] at he
      cases he
    · obtain ⟨-, hcode, -⟩ := pseudocode_error herr
      exact hcode hok

/-! ### The logical stream -/

section Stream

variable (s : State)

theorem curBytes_range0 : s.curBytes 0 s.cur.len0.toNat =
    s.mem.readBytes s.cur.base0.toNat s.cur.len0.toNat := by
  refine List.map_congr_left fun i hi => ?_
  rw [Nat.zero_add, State.curByte, Cursor.addr, if_pos (List.mem_range.1 hi)]

theorem curBytes_range1 (n : Nat) : s.curBytes s.cur.len0.toNat n =
    s.mem.readBytes s.cur.base1.toNat n := by
  refine List.map_congr_left fun i _ => ?_
  rw [State.curByte, Cursor.addr, if_neg (Nat.not_lt.2 (Nat.le_add_right _ _)), Nat.add_sub_cancel_left]

theorem curBits_lt (j n : Nat) : s.curBits j n < 2 ^ n := by
  induction n generalizing j with
  | zero => exact Nat.one_pos
  | succ n ih =>
    have hbit : (s.curBit j).toNat * 2 ^ n ≤ 1 * 2 ^ n := Nat.mul_le_mul_right _ (Bool.toNat_le _)
    have hrest := ih (j + 1)
    rw [State.curBits, Nat.pow_succ]
    omega

theorem curBits_add (j n k : Nat) :
    s.curBits j (n + k) = s.curBits j n * 2 ^ k + s.curBits (j + n) k := by
  induction n generalizing j with
  | zero => simp [State.curBits]
  | succ n ih =>
    rw [Nat.add_right_comm, State.curBits, State.curBits, ih, Nat.add_mul, Nat.mul_assoc, ← Nat.pow_add,
      Nat.add_assoc, Nat.add_assoc, Nat.add_comm 1 n]

/-- Bit `k` of the stream is bit `n - 1 - k` of the number: most significant first. -/
theorem testBit_curBits {j n k : Nat} (h : k < n) :
    (s.curBits j n).testBit (n - 1 - k) = s.curBit (j + k) := by
  induction n generalizing j k with
  | zero => cases h
  | succ n ih =>
    rw [State.curBits, Nat.mul_comm, Nat.testBit_two_pow_mul_add _ (curBits_lt s (j + 1) n)]
    cases k with
    | zero => cases s.curBit j <;> simp
    | succ k =>
      have hk : k < n := Nat.lt_of_succ_lt_succ h
      rw [if_pos (by omega), show n + 1 - 1 - (k + 1) = n - 1 - k by omega, ih hk, Nat.add_right_comm]
      rfl

theorem curBits_byte (o : Nat) : s.curBits (8 * o) 8 = (s.curByte o).toNat := by
  refine Nat.eq_of_testBit_eq fun i => ?_
  by_cases hi : i < 8
  · have h := testBit_curBits s (j := 8 * o) (n := 8) (k := 7 - i) (by omega)
    rw [State.curBit, show (8 * o + (7 - i)) / 8 = o by omega,
      show 7 - (8 * o + (7 - i)) % 8 = i by omega, show 8 - 1 - (7 - i) = i by omega] at h
    exact h
  · have hpow : 2 ^ 8 ≤ 2 ^ i := Nat.pow_le_pow_right Nat.two_pos (Nat.not_lt.1 hi)
    rw [Nat.testBit_lt_two_pow (Nat.lt_of_lt_of_le (curBits_lt s _ 8) hpow),
      Nat.testBit_lt_two_pow (Nat.lt_of_lt_of_le (s.curByte o).isLt hpow)]

theorem rdBE_append_byte (b : List Byte) (x : Byte) : rdBE (b ++ [x]) = rdBE b * 2 ^ 8 + x.toNat :=
  List.foldl_append

theorem curBits_bytes (o n : Nat) : s.curBits (8 * o) (8 * n) = rdBE (s.curBytes o n) := by
  induction n with
  | zero => rfl
  | succ n ih =>
    rw [Nat.mul_succ, curBits_add, ih, ← Nat.mul_add, curBits_byte, curBytes_append, curBytes_succ,
      curBytes_zero, rdBE_append_byte]

end Stream

/-- Settles O30: range by range, byte by byte, and bit by bit. -/
theorem logicalStream : Obligations.LogicalStream := by
  refine ⟨fun s => ?_, curBits_bytes, curBits_add⟩
  rw [Cursor.total, curBytes_append, Nat.zero_add, curBytes_range0, curBytes_range1]

/-! ### CUR_INIT -/

/-- Settles O31: the two answers of the pseudocode. -/
theorem curInitResult : Obligations.CurInitResult := by
  refine fun s => ⟨fun h0 h1 ht => ?_, fun hbad => exec_of_plain_error ?_⟩
  · rw [BitVec.ofNat_add, BitVec.ofNat_toNat, BitVec.ofNat_toNat, BitVec.setWidth_eq, BitVec.setWidth_eq]
    exact exec_of_ok (curInit_eq_ok.2 ⟨h0, h1, ht, rfl⟩)
  · cases h : curInit s with
    | ok t =>
      obtain ⟨h0, h1, ht, -⟩ := curInit_eq_ok.1 h
      exact absurd ⟨h0, h1, ht⟩ hbad
    | error r => exact h.trans (congrArg _ (curInit_error h))

/-! ### CUR_READ, CUR_SKIP, CUR_SEEK -/

theorem fail_pastEnd (s : State) : s.fail .pastEnd = s.ranOut := by
  simp [State.fail, State.ranOut, Raise.pastEnd]

theorem fail_readPastEnd (s : State) : s.fail .readPastEnd = { s.ranOut with result := 0, resultHi := 0 } := by
  simp [State.fail, State.ranOut, Raise.readPastEnd]

theorem exec_of_pastEnd {i : Instr} {s : State} (h : pseudocode i s = .error .pastEnd) :
    exec i s = .next s.ranOut :=
  exec_eq_next.2 (.inr ⟨_, h, (fail_pastEnd s).symm⟩)

/-- When a cursor command fails: the cursor is in error, or the bits or bytes asked for go past the end. -/
theorem not_noErr_and_le {err : Bool} {p q : Nat} (h : err = true ∨ q < p) : ¬ (err = false ∧ p ≤ q) := by
  rintro ⟨he, hp⟩
  rcases h with herr | hpast
  · rw [he] at herr; cases herr
  · exact Nat.not_le.2 hpast hp

/-- A position advanced, as a number and as a word. -/
theorem ofNat_pos_add {n : Nat} (pos : Word) (k : BitVec n) :
    BitVec.ofNat 32 (pos.toNat + k.toNat) = pos + k.setWidth 32 := by
  rw [BitVec.ofNat_add, BitVec.ofNat_toNat, BitVec.ofNat_toNat, BitVec.setWidth_eq]

theorem ofNat_byte_pos (k : BitVec 24) : BitVec.ofNat 32 (8 * k.toNat) = 8 * k.setWidth 32 := by
  rw [BitVec.ofNat_mul, BitVec.ofNat_toNat]
  rfl

theorem ofNat_pos_add_bytes (pos : Word) (k : BitVec 24) :
    BitVec.ofNat 32 (pos.toNat + 8 * k.toNat) = pos + 8 * k.setWidth 32 := by
  rw [BitVec.ofNat_add, BitVec.ofNat_toNat, BitVec.setWidth_eq, ofNat_byte_pos]

/-- Settles O32: the number read has the stream's bits and no others. -/
theorem curReadResult : Obligations.CurReadResult := by
  refine fun n s _ hn => ⟨fun he hp => ?_, fun hbad => ?_⟩
  · have hlt (k : Nat) (hk : n.toNat ≤ k) : s.curBits s.cur.pos.toNat n.toNat < 2 ^ k :=
      Nat.lt_of_lt_of_le (curBits_lt s _ _) (Nat.pow_le_pow_right Nat.two_pos hk)
    have hbits (k : Nat) : (BitVec.ofNat 64 (s.curBits s.cur.pos.toNat n.toNat)).getLsbD k =
        (s.curBits s.cur.pos.toNat n.toNat).testBit k := by
      rw [BitVec.getLsbD, BitVec.toNat_ofNat, Nat.mod_eq_of_lt (hlt 64 hn)]
    refine ⟨BitVec.ofNat 64 (s.curBits s.cur.pos.toNat n.toNat), fun k hk => ?_, fun k hk => ?_, ?_⟩
    · rw [hbits, testBit_curBits s hk]
    · rw [hbits, Nat.testBit_lt_two_pow (hlt k hk)]
    · rw [← ofNat_pos_add]
      exact exec_of_ok (curRead_eq_ok.2 ⟨⟨he, hp⟩, rfl⟩)
  · rw [← fail_readPastEnd]
    exact curRead_of_not (not_noErr_and_le hbad)

/-- Settles O33: the two answers of each pseudocode, the new position as a word. -/
theorem curSkipSeekResult : Obligations.CurSkipSeekResult := by
  refine fun k s => ⟨fun he hp => ?_, fun hbad => ?_, fun he hp => ?_, fun hbad => ?_⟩
  · rw [← ofNat_pos_add_bytes]
    exact exec_of_ok (curSkip_eq_ok.2 ⟨⟨he, hp⟩, rfl⟩)
  · exact exec_of_pastEnd (curSkip_eq_error.2 ⟨not_noErr_and_le hbad, rfl⟩)
  · rw [← ofNat_byte_pos]
    exact exec_of_ok (curSeek_eq_ok.2 ⟨⟨he, hp⟩, rfl⟩)
  · exact exec_of_pastEnd (curSeek_eq_error.2 ⟨not_noErr_and_le hbad, rfl⟩)

end Sys2Proof.Machine
end

section
/-! The decoders on an input that is too short (41_cursor.md R166): the prologue and the first take of each, then
truncation by a length field, inside an MPEG-2 body and inside an MPEG-1 header (43_psi.md R240, 42_pes.md R200 to
R204). -/

namespace Sys2Proof.Machine

/-! ### A sequence from its first part -/

section Sequence

variable {α β : Type} {first : Except Raise α} {rest : α → Except Raise β}

theorem bind_eq_of_ok {v : α} (h : first = .ok v) : first >>= rest = rest v := by rw [h, ok_bind]

theorem bind_error_of_ok {v : α} {r : Raise} (h : first = .ok v) (hrest : rest v = .error r) :
    first >>= rest = .error r := (bind_eq_of_ok h).trans hrest

theorem bind_error_of_error {r : Raise} (h : first = .error r) : first >>= rest = .error r := by
  rw [h, error_bind]

end Sequence

/-! ### The first bytes -/

/-- The command begins with the decoders' prologue and a take of `need` bytes (41_cursor.md R166). -/
def TakesFirst (i : Instr) (need : Nat) (s : State) : Prop :=
  ∃ rest : Nat → List Byte → Except Raise State,
    pseudocode i s = prologue s >>= fun o => take s o need >>= rest o

theorem pmtRead_takesFirst {s : State} (ha : ArenaOk s) : TakesFirst .pmtRead 3 s :=
  ⟨_, bind_eq_of_ok (checkArenaWindow_of ha)⟩

theorem psmRead_takesFirst {s : State} (ha : ArenaOk s) : TakesFirst .psmRead 6 s :=
  ⟨_, bind_eq_of_ok (checkArenaWindow_of ha)⟩

section Refusals

variable {i : Instr} {need : Nat} {s : State}

theorem TakesFirst.error_of_prologue (h : TakesFirst i need s) {r : Raise} (hp : prologue s = .error r) :
    pseudocode i s = .error r := by
  obtain ⟨rest, heq⟩ := h
  rw [heq, hp, error_bind]

theorem TakesFirst.error_of_short (h : TakesFirst i need s) (hpos : s.cur.pos.toNat % 8 = 0)
    (herr : s.cur.err = false) (hshort : s.cur.total < s.cur.pos.toNat / 8 + need) :
    pseudocode i s = .error .pastEnd := by
  obtain ⟨rest, heq⟩ := h
  rw [heq, prologue_eq_ok.2 ⟨hpos, herr, rfl⟩, ok_bind, take_eq_error.2 ⟨hshort, rfl⟩, error_bind]

end Refusals

/-- Settles O34: every decoder begins with the prologue and one take. -/
theorem decoderProtocol : Obligations.DecoderProtocol := by
  intro i need s hi
  have hfirst : TakesFirst i need s := by
    rcases hi with ⟨rfl, rfl⟩ | ⟨l, rfl, rfl⟩ | ⟨rfl, rfl⟩ | ⟨rfl, rfl, ha⟩ | ⟨rfl, rfl, ha⟩
    · exact ⟨_, rfl⟩
    · exact ⟨_, rfl⟩
    · exact ⟨_, rfl⟩
    · exact pmtRead_takesFirst ha
    · exact psmRead_takesFirst ha
  refine ⟨fun hpos => ?_, fun hpos herr => ?_, fun hpos herr hshort => ?_⟩
  · exact exec_of_plain_error (hfirst.error_of_prologue (prologue_eq_error.2 (.inl ⟨hpos, rfl⟩)))
  · exact exec_of_plain_error (hfirst.error_of_prologue (prologue_eq_error.2 (.inr ⟨hpos, herr, rfl⟩)))
  · exact exec_of_pastEnd (hfirst.error_of_short hpos herr hshort)

/-! ### The bytes ahead -/

/-- The bytes of the stream from offset `o` on begin with `c`. -/
structure Ahead (s : State) (o : Nat) (c : List Byte) : Prop where
  room : o + c.length ≤ s.cur.total
  bytes : s.curBytes o c.length = c

section Bytes

variable {s : State} {o n : Nat} {a b c : List Byte} {x : Byte}

theorem Reads.ahead (h : Reads s b) : Ahead s (s.cur.pos.toNat / 8) b := ⟨h.room, h.bytes⟩

theorem Ahead.left (h : Ahead s o (a ++ c)) : Ahead s o a := by
  obtain ⟨hroom, hbytes⟩ := h
  rw [List.length_append, curBytes_append] at hbytes
  rw [List.length_append] at hroom
  exact ⟨by omega, (List.append_inj hbytes (curBytes_length ..)).1⟩

theorem Ahead.right (h : Ahead s o (a ++ c)) : Ahead s (o + a.length) c := by
  obtain ⟨hroom, hbytes⟩ := h
  rw [List.length_append, curBytes_append] at hbytes
  rw [List.length_append] at hroom
  exact ⟨by omega, (List.append_inj hbytes (curBytes_length ..)).2⟩

theorem Ahead.take (h : Ahead s o c) (hn : n = c.length) : take s o n = .ok c :=
  hn ▸ take_eq_ok.2 ⟨h.room, h.bytes.symm⟩

theorem Ahead.peek (h : Ahead s o (x :: c)) : peek s o = .ok x := by
  obtain ⟨hroom, hbytes⟩ := h.left (a := [x])
  exact peek_eq_ok.2 ⟨hroom, (List.cons.inj hbytes).1.symm⟩

theorem Ahead.tail (h : Ahead s o (x :: c)) : Ahead s (o + 1) c := h.right (a := [x])

theorem byteAt_drop (b : List Byte) (k i : Nat) : byteAt (b.drop k) i = byteAt b (k + i) := by
  simp only [byteAt, List.getD_eq_getElem?_getD, List.getElem?_drop]

theorem take_pastEnd (h : s.cur.total < o + n) : Machine.take s o n = .error .pastEnd :=
  take_eq_error.2 ⟨h, rfl⟩

theorem peek_pastEnd (h : s.cur.total = o) : Machine.peek s o = .error .pastEnd :=
  peek_eq_error.2 ⟨h ▸ Nat.lt_succ_self _, rfl⟩

end Bytes

/-! ### A length field past the end -/

section Sections

variable {s : State} {b : List Byte}

theorem patRead_truncated (h : Reads s b) (hlen : b.length = 3) (htable : byteAt b 0 = 0x00)
    (hsyntax : (byteAt b 1).getLsbD 7 = true)
    (hsl : 9 ≤ (field12 b 1).toNat ∧ (field12 b 1).toNat ≤ 1021 ∧ ((field12 b 1).toNat - 9) % 4 = 0)
    (hcut : s.cur.total < s.cur.pos.toNat / 8 + 3 + (field12 b 1).toNat) :
    patRead s = .error .pastEnd := by
  unfold patRead
  exact bind_error_of_ok h.prologue <| bind_error_of_ok (h.ahead.take hlen.symm) <|
    bind_error_of_ok (check_of ⟨htable, hsyntax⟩ _) <| bind_error_of_ok (check_of hsl _) <|
    bind_error_of_error (take_pastEnd hcut)

theorem pmtRead_truncated (ha : ArenaOk s) (h : Reads s b) (hlen : b.length = 3)
    (htable : byteAt b 0 = 0x02) (hsyntax : (byteAt b 1).getLsbD 7 = true)
    (hsl : 13 ≤ (field12 b 1).toNat ∧ (field12 b 1).toNat ≤ 1021)
    (hcut : s.cur.total < s.cur.pos.toNat / 8 + 3 + (field12 b 1).toNat) :
    pmtRead s = .error .pastEnd := by
  unfold pmtRead
  exact bind_error_of_ok (checkArenaWindow_of ha) <| bind_error_of_ok h.prologue <|
    bind_error_of_ok (h.ahead.take hlen.symm) <| bind_error_of_ok (check_of ⟨htable, hsyntax⟩ _) <|
    bind_error_of_ok (check_of hsl _) <| bind_error_of_error (take_pastEnd hcut)

theorem psmRead_truncated (ha : ArenaOk s) (h : Reads s b) (hlen : b.length = 6)
    (hstart : b.take 4 = [0x00, 0x00, 0x01, 0xBC])
    (hpsml : 10 ≤ (field16 b 4).toNat ∧ (field16 b 4).toNat ≤ 1018)
    (hcut : s.cur.total < s.cur.pos.toNat / 8 + 6 + (field16 b 4).toNat) :
    psmRead s = .error .pastEnd := by
  unfold psmRead
  exact bind_error_of_ok (checkArenaWindow_of ha) <| bind_error_of_ok h.prologue <|
    bind_error_of_ok (h.ahead.take hlen.symm) <| bind_error_of_ok (check_of hstart _) <|
    bind_error_of_ok (check_of hpsml _) <| bind_error_of_error (take_pastEnd hcut)

end Sections

/-! ### PES headers past byte 5 -/

section Pes

variable {l : Layout} {s : State} {p : PesScan} {a b c : List Byte}

/-- A `PES_READ` of a header-bearing stream_id fails as its body does, which starts at byte 6. -/
theorem pesRead_of_body_error {r : Raise} (h : Reads s b) (hlen : 6 ≤ b.length)
    (hstart : b.take 3 = [0x00, 0x00, 0x01]) (hsid : hdrBearing (byteAt b 3) = true)
    (hbody : ∀ p, p.o = s.cur.pos.toNat / 8 + 6 → Ahead s p.o (b.drop 6) → noHdr p.r.sid = false →
      pesBody l s p = .error r) : pesRead l s = .error r := by
  obtain ⟨hlow, hhdr⟩ := hdrBearing_iff.1 hsid
  rw [← byteAt_take (show 3 < 6 by decide)] at hlow hhdr
  have hbyte {i : Nat} (hi : i < 3) : byteAt (b.take 6) i = byteAt [0x00, 0x00, 0x01] i := by
    rw [← hstart, byteAt_take hi, byteAt_take (Nat.lt_trans hi (by decide))]
  have hahead : Ahead s (s.cur.pos.toNat / 8 + 6) (b.drop 6) := by
    have hsplit := h.ahead
    rw [← List.take_append_drop 6 b] at hsplit
    have hright := hsplit.right
    rwa [List.length_take, Nat.min_eq_left hlen] at hright
  unfold pesRead
  exact bind_error_of_ok h.prologue <| bind_error_of_ok (h.take_zero hlen) <|
    bind_error_of_ok (check_of ⟨hbyte (by decide), hbyte (by decide), hbyte (by decide)⟩ _) <|
    bind_error_of_ok (check_of (Nat.le_of_succ_le hlow) _) <|
    bind_error_of_error (hbody _ rfl hahead (Bool.eq_false_iff.2 hhdr))

theorem mpeg2Body_short (h : s.cur.total < p.o + 3) : mpeg2Body s p = .error .pastEnd :=
  bind_error_of_error (take_pastEnd h)

/-- The stream ends right after byte 5, whatever the layout. -/
theorem pesBody_of_end (hsid : noHdr p.r.sid = false) (hend : s.cur.total = p.o) :
    pesBody l s p = .error .pastEnd := by
  unfold pesBody
  rw [hsid, if_neg Bool.false_ne_true]
  cases l with
  | mpeg2 => exact mpeg2Body_short (by omega)
  | mpeg1 =>
    have hstuff : skipStuffing s (s.cur.total - p.o) p.o 0 = .error .pastEnd := by
      rw [hend, Nat.sub_self]
      rfl
    exact bind_error_of_error hstuff
  | auto => exact bind_error_of_error (peek_pastEnd hend)

/-! #### MPEG-2 layout -/

theorem pesBody_eq_mpeg2Body (hsid : noHdr p.r.sid = false) (h : Ahead s p.o c) (hc : 0 < c.length)
    (hl : l = .mpeg2 ∨ (l = .auto ∧ (byteAt c 0).extractLsb' 6 2 = 0b10)) :
    pesBody l s p = mpeg2Body s p := by
  unfold pesBody
  rw [hsid, if_neg Bool.false_ne_true]
  rcases hl with rfl | ⟨rfl, htop⟩
  · rfl
  · obtain ⟨x, d, rfl⟩ := List.exists_cons_of_length_pos hc
    exact (bind_eq_of_ok h.peek).trans (if_pos htop)

/-- The stream ends inside the optional area: the flags are looked at first. -/
theorem mpeg2Body_truncated (h : Ahead s p.o c) (hlen : c.length = 3)
    (htop : (byteAt c 0).extractLsb' 6 2 = 0b10)
    (hcut : s.cur.total < p.o + 3 + (byteAt c 2).toNat) :
    mpeg2Body s p =
      .error (if (byteAt c 1).extractLsb' 6 2 = 0b01 then .invalidData else .pastEnd) := by
  unfold mpeg2Body
  refine bind_error_of_ok (h.take hlen.symm) <| bind_error_of_ok (check_of htop _) ?_
  by_cases hflags : (byteAt c 1).extractLsb' 6 2 = 0b01
  · rw [if_pos hflags]
    exact bind_error_of_error (check_of_not (not_not_intro hflags) _)
  · rw [if_neg hflags]
    exact bind_error_of_ok (check_of hflags _) <| bind_error_of_error (take_pastEnd hcut)

/-! #### MPEG-1 layout -/

/-- The byte string `l` cut short. -/
def CutOf (c l : List Byte) : Prop := c <+: l ∧ c ≠ l

theorem CutOf.length_lt {l : List Byte} (h : CutOf c l) : c.length < l.length :=
  Nat.lt_of_not_le fun hle => h.2 (h.1.eq_of_length_le hle)

/-- A string of two parts is cut in the first, or in the second. -/
theorem CutOf.append_cases {l : List Byte} (h : CutOf c (a ++ l)) :
    CutOf c a ∨ ∃ d, c = a ++ d ∧ CutOf d l := by
  obtain ⟨hpre, hne⟩ := h
  have hsecond (ha : a <+: c) : ∃ d, c = a ++ d ∧ CutOf d l := by
    obtain ⟨d, rfl⟩ := ha
    exact ⟨d, rfl, (List.prefix_append_right_inj a).1 hpre, fun hd => hne (hd ▸ rfl)⟩
  rcases List.prefix_or_prefix_of_prefix hpre (List.prefix_append a l) with hca | hac
  · by_cases heq : c = a
    · exact .inr (hsecond (heq ▸ List.prefix_rfl))
    · exact .inl ⟨hca, heq⟩
  · exact .inr (hsecond hac)

theorem CutOf.head_eq {x : Byte} {l : List Byte} (h : CutOf (x :: c) l) : byteAt l 0 = x := by
  obtain ⟨⟨r, rfl⟩, -⟩ := h
  rfl

/-- A field of a field. -/
theorem extractLsb'_extractLsb' {w i j k n : Nat} (x : BitVec w) (h : j + k ≤ n) :
    (x.extractLsb' i n).extractLsb' j k = x.extractLsb' (i + j) k := by
  refine BitVec.eq_of_getElem_eq fun b hb => ?_
  have hin : j + b < n := by omega
  simp [hin, Nat.add_assoc]

theorem Mpeg1Stamps.firstByte {st : Mpeg1Stamps} (h : st.wf) :
    (byteAt st.bytes 0).extractLsb' 6 2 = 0b00 := by
  have of_nibble {t : List Byte} {v : BitVec 4} (ht : tsPrefix t = v) (hv : v.extractLsb' 2 2 = 0b00) :
      (byteAt t 0).extractLsb' 6 2 = 0b00 := by
    rw [← hv, ← ht, tsPrefix, extractLsb'_extractLsb' _ (by decide)]
  cases st with
  | none => decide
  | pts t => exact of_nibble h.2 (by decide)
  | both t u =>
    obtain ⟨hlen, hpre, -⟩ := h
    rw [Mpeg1Stamps.bytes, byteAt_append_left (by omega)]
    exact of_nibble hpre (by decide)

theorem stdBufBytes_firstByte (scale : Bool) (size : BitVec 13) :
    (byteAt (stdBufBytes (some (scale, size))) 0).extractLsb' 6 2 = 0b01 := by
  obtain ⟨htop, -, -⟩ := (extractLsb'_eq_append_append_iff 2 1 13).1
    (BitVec.extractLsb'_eq_self (x := 0b01#2 ++ BitVec.ofBool scale ++ size))
  exact (extractLsb'_extractLsb' _ (by decide)).trans htop

/-- What follows the stuffing of an MPEG-1 header (30_encoding.md R106 parts 2 and 3). -/
def mpeg1Rest (std : Option (Bool × BitVec 13)) (st : Mpeg1Stamps) : List Byte :=
  stdBufBytes std ++ st.bytes

theorem mpeg1Header_eq_append (sid : Byte) (len : BitVec 16) (n : Nat) (std : Option (Bool × BitVec 13))
    (st : Mpeg1Stamps) : mpeg1Header sid len n std st =
      pesStart sid len ++ (List.replicate n 0xFF ++ mpeg1Rest std st) := by
  simp only [mpeg1Header, mpeg1Front, mpeg1Rest, List.append_assoc]

theorem mpeg1Rest_firstByte (std : Option (Bool × BitVec 13)) {st : Mpeg1Stamps} (h : st.wf) :
    (byteAt (mpeg1Rest std st) 0).extractLsb' 6 2 = if std.isSome then 0b01 else 0b00 := by
  cases std with
  | none => exact Mpeg1Stamps.firstByte h
  | some v => exact stdBufBytes_firstByte v.1 v.2

theorem skipStuffing_replicate {m fuel o n : Nat} (h : Ahead s o (List.replicate m 0xFF)) :
    skipStuffing s (m + fuel) o n = skipStuffing s fuel (o + m) (n + m) := by
  induction m generalizing o n with
  | zero => rw [Nat.zero_add]; rfl
  | succ m ih =>
    rw [List.replicate_succ] at h
    rw [Nat.add_right_comm, skipStuffing, h.peek, ok_bind, if_pos rfl]
    rw [ih h.tail, Nat.add_assoc, Nat.add_assoc, Nat.add_comm 1 m]

theorem mpeg1Stamps_truncated {st : Mpeg1Stamps} (h : Ahead s p.o c) (hend : s.cur.total = p.o + c.length)
    (hst : st.wf) (hc : CutOf c st.bytes) : mpeg1Stamps s p = .error .pastEnd := by
  have hlt := hc.length_lt
  unfold mpeg1Stamps
  cases c with
  | nil => exact bind_error_of_error (peek_pastEnd hend)
  | cons x c =>
    have hx := hc.head_eq
    refine bind_error_of_ok h.peek ?_
    cases st with
    | none => simp [Mpeg1Stamps.bytes] at hlt
    | pts t =>
      obtain ⟨hlen, hpre⟩ := hst
      have hnibble : x.extractLsb' 4 4 = 0b0010 := hx ▸ hpre
      change (x :: c).length < t.length at hlt
      rw [if_pos hnibble]
      exact bind_error_of_error (take_pastEnd (by omega))
    | both t u =>
      obtain ⟨hlen, hpre, hlen'⟩ := hst
      rw [Mpeg1Stamps.bytes, List.length_append] at hlt
      rw [Mpeg1Stamps.bytes, byteAt_append_left (by omega)] at hx
      have hnibble : x.extractLsb' 4 4 = 0b0011 := hx ▸ hpre
      rw [hnibble, if_neg (by decide), if_pos rfl]
      by_cases hfirst : p.o + 5 ≤ s.cur.total
      · exact bind_error_of_ok (take_eq_ok.2 ⟨hfirst, rfl⟩) <|
          bind_error_of_error (take_pastEnd (by omega))
      · exact bind_error_of_error (take_pastEnd (Nat.not_le.1 hfirst))

theorem mpeg1StdBuf_present {v : Bool × BitVec 13} (h : Ahead s p.o (stdBufBytes (some v))) :
    ∃ q, mpeg1StdBuf s p = .ok q ∧ q.o = p.o + 2 := by
  have hlook : mpeg1StdBuf s p = _ :=
    (bind_eq_of_ok h.peek).trans (if_pos (stdBufBytes_firstByte v.1 v.2))
  exact ⟨_, hlook.trans (bind_eq_of_ok (h.take rfl)), rfl⟩

theorem mpeg1StdBuf_absent {x : Byte} (h : Ahead s p.o (x :: c)) (hx : x.extractLsb' 6 2 = 0b00) :
    mpeg1StdBuf s p = .ok p :=
  (bind_eq_of_ok h.peek).trans (if_neg (by rw [hx]; decide))

theorem mpeg1StdBuf_truncated {x : Byte} (h : Ahead s p.o (x :: c)) (hx : x.extractLsb' 6 2 = 0b01)
    (hcut : s.cur.total < p.o + 2) : mpeg1StdBuf s p = .error .pastEnd :=
  (bind_eq_of_ok h.peek).trans ((if_pos hx).trans (bind_error_of_error (take_pastEnd hcut)))

/-- What follows the stuffing, cut short: the end is found at a look at the first byte of a part, or inside one. -/
theorem mpeg1Rest_truncated {std : Option (Bool × BitVec 13)} {st : Mpeg1Stamps} (h : Ahead s p.o c)
    (hend : s.cur.total = p.o + c.length) (hst : st.wf) (hc : CutOf c (mpeg1Rest std st)) :
    (mpeg1StdBuf s p >>= mpeg1Stamps s) = .error .pastEnd := by
  cases c with
  | nil => exact bind_error_of_error (bind_error_of_error (peek_pastEnd hend))
  | cons x c =>
    have hx := mpeg1Rest_firstByte std hst
    rw [hc.head_eq] at hx
    cases std with
    | none => exact bind_error_of_ok (mpeg1StdBuf_absent h hx) (mpeg1Stamps_truncated h hend hst hc)
    | some v =>
      rcases hc.append_cases with hfirst | ⟨d, hd, hrest⟩
      · have hlt : (x :: c).length < 2 := hfirst.length_lt
        exact bind_error_of_error (mpeg1StdBuf_truncated h hx (by omega))
      · rw [hd] at h hend
        obtain ⟨q, hq, ho⟩ := mpeg1StdBuf_present h.left
        have hright : Ahead s q.o d := ho ▸ h.right
        have hendq : s.cur.total = q.o + d.length := by
          rw [hend, ho, List.length_append, Nat.add_assoc]
          rfl
        exact bind_error_of_ok hq (mpeg1Stamps_truncated hright hendq hst hrest)

/-- The whole MPEG-1 body, cut short in its stuffing or after it. -/
theorem mpeg1Body_truncated {n : Nat} {std : Option (Bool × BitVec 13)} {st : Mpeg1Stamps}
    (h : Ahead s p.o c) (hend : s.cur.total = p.o + c.length) (hst : st.wf)
    (hc : CutOf c (List.replicate n 0xFF ++ mpeg1Rest std st)) : mpeg1Body s p = .error .pastEnd := by
  have of_stuffing {m : Nat} (h : Ahead s p.o (List.replicate m 0xFF)) (hm : s.cur.total = p.o + m) :
      mpeg1Body s p = .error .pastEnd := by
    have hstuff := skipStuffing_replicate (fuel := 0) (n := 0) h
    rw [Nat.add_zero, ← Nat.sub_eq_of_eq_add (hm.trans (Nat.add_comm ..))] at hstuff
    exact bind_error_of_error hstuff
  rcases hc.append_cases with ⟨hpre, -⟩ | ⟨d, rfl, hrest⟩
  · rw [(List.prefix_replicate_iff.1 hpre).2] at h
    exact of_stuffing h hend
  · rw [List.length_append, List.length_replicate] at hend
    cases d with
    | nil => exact of_stuffing h.left hend
    | cons x d =>
      have hx := mpeg1Rest_firstByte std hst
      rw [hrest.head_eq] at hx
      have hne : x ≠ 0xFF := by
        rintro rfl
        revert hx
        cases std.isSome <;> decide
      have hright := h.right
      rw [List.length_replicate] at hright
      have hfuel : s.cur.total - p.o = n + (d.length + 1) := by
        rw [hend, Nat.add_sub_cancel_left, List.length_cons]
      have hstuff : skipStuffing s (s.cur.total - p.o) p.o 0 = .ok (p.o + n, n) := by
        rw [hfuel, skipStuffing_replicate h.left, skipStuffing, hright.peek, ok_bind, if_neg hne,
          Nat.zero_add]
      refine bind_error_of_ok hstuff ?_
      exact mpeg1Rest_truncated hright (hend.trans (Nat.add_assoc ..).symm) hst hrest

theorem mpeg1_firstByte {n : Nat} {std : Option (Bool × BitVec 13)} {st : Mpeg1Stamps} (hst : st.wf) :
    (byteAt (List.replicate n 0xFF ++ mpeg1Rest std st) 0).extractLsb' 6 2 ≠ 0b10 := by
  cases n with
  | zero =>
    rw [List.replicate_zero, List.nil_append, mpeg1Rest_firstByte std hst]
    cases std.isSome <;> decide
  | succ n =>
    change (0xFF#8).extractLsb' 6 2 ≠ 0b10
    decide

theorem pesBody_mpeg1_truncated {n : Nat} {std : Option (Bool × BitVec 13)} {st : Mpeg1Stamps}
    (hl : l ≠ .mpeg2) (hsid : noHdr p.r.sid = false) (h : Ahead s p.o c)
    (hend : s.cur.total = p.o + c.length) (hst : st.wf)
    (hc : CutOf c (List.replicate n 0xFF ++ mpeg1Rest std st)) : pesBody l s p = .error .pastEnd := by
  have hbody := mpeg1Body_truncated h hend hst hc
  unfold pesBody
  rw [hsid, if_neg Bool.false_ne_true]
  cases l with
  | mpeg2 => exact absurd rfl hl
  | mpeg1 => exact hbody
  | auto =>
    cases c with
    | nil => exact bind_error_of_error (peek_pastEnd hend)
    | cons x c =>
      refine bind_error_of_ok h.peek ?_
      rw [← hc.head_eq, if_neg (mpeg1_firstByte hst)]
      exact hbody

/-! #### The command -/

theorem pesRead_mpeg2_truncated (h : Reads s b) (hlen : b.length = 9)
    (hstart : b.take 3 = [0x00, 0x00, 0x01]) (hsid : hdrBearing (byteAt b 3) = true)
    (hl : l ≠ .mpeg1) (htop : (byteAt b 6).extractLsb' 6 2 = 0b10)
    (hcut : s.cur.total < s.cur.pos.toNat / 8 + 9 + (byteAt b 8).toNat) :
    pesRead l s = .error (if (byteAt b 7).extractLsb' 6 2 = 0b01 then .invalidData else .pastEnd) := by
  have hlen' : (b.drop 6).length = 3 := by rw [List.length_drop, hlen]
  refine pesRead_of_body_error h (by omega) hstart hsid fun p ho hahead hhdr => ?_
  have hlayout : l = .mpeg2 ∨ (l = .auto ∧ (byteAt (b.drop 6) 0).extractLsb' 6 2 = 0b10) := by
    rw [byteAt_drop]
    cases l with
    | mpeg2 => exact .inl rfl
    | mpeg1 => exact absurd rfl hl
    | auto => exact .inr ⟨rfl, htop⟩
  have hcutp : s.cur.total < p.o + 3 + (byteAt b 8).toNat := by omega
  rw [pesBody_eq_mpeg2Body hhdr hahead (by omega) hlayout,
    mpeg2Body_truncated hahead hlen' (by rw [byteAt_drop]; exact htop) (by rw [byteAt_drop]; exact hcutp),
    byteAt_drop]

theorem pesRead_mpeg2_short (h : Reads s b) (hlen : b.length = 7)
    (hstart : b.take 3 = [0x00, 0x00, 0x01]) (hsid : hdrBearing (byteAt b 3) = true)
    (hl : l = .mpeg2 ∨ (l = .auto ∧ (byteAt b 6).extractLsb' 6 2 = 0b10))
    (hcut : s.cur.total < s.cur.pos.toNat / 8 + 9) : pesRead l s = .error .pastEnd := by
  have hlen' : (b.drop 6).length = 1 := by rw [List.length_drop, hlen]
  refine pesRead_of_body_error h (by omega) hstart hsid fun p ho hahead hhdr => ?_
  rw [pesBody_eq_mpeg2Body hhdr hahead (by omega) (by rw [byteAt_drop]; exact hl),
    mpeg2Body_short (by omega)]

theorem pesRead_mpeg1_truncated {sid : Byte} {len : BitVec 16} {n : Nat}
    {std : Option (Bool × BitVec 13)} {st : Mpeg1Stamps} (h : Reads s b) (hl : l ≠ .mpeg2)
    (hsid : hdrBearing sid = true) (hst : st.wf) (hlen : 6 ≤ b.length)
    (hcut : CutOf b (mpeg1Header sid len n std st))
    (hend : s.cur.total = s.cur.pos.toNat / 8 + b.length) : pesRead l s = .error .pastEnd := by
  rw [mpeg1Header_eq_append] at hcut
  rcases hcut.append_cases with hstart | ⟨c, rfl, hc⟩
  · exact absurd hstart.length_lt (Nat.not_lt.2 hlen)
  · refine pesRead_of_body_error h hlen rfl hsid fun p ho hahead hhdr => ?_
    have hendp : s.cur.total = p.o + c.length := by
      rw [hend, ho, List.length_append, Nat.add_assoc]
      rfl
    exact pesBody_mpeg1_truncated hl hhdr hahead hendp hst hc

end Pes

/-- Settles O35: the first bytes are good, and a later take or look finds the end of the stream. -/
theorem truncatedInput : Obligations.TruncatedInput := by
  intro s b h
  refine ⟨fun hlen htable hsyntax hlow hhigh hwhole hcut => ?_,
    fun ha hlen htable hsyntax hlow hhigh hcut => ?_, fun ha hlen hstart hlow hhigh hcut => ?_,
    fun l hlen hstart hsid hl htop hcut => ?_, fun l hlen hstart hsid hend => ?_,
    fun l hlen hstart hsid hl hcut => ?_, fun l sid len n std st hl hsid hst hlen hpre hne hend => ?_⟩
  · exact exec_of_pastEnd (patRead_truncated h hlen htable hsyntax ⟨hlow, hhigh, hwhole⟩ hcut)
  · exact exec_of_pastEnd (pmtRead_truncated ha h hlen htable hsyntax ⟨hlow, hhigh⟩ hcut)
  · exact exec_of_pastEnd (psmRead_truncated ha h hlen hstart ⟨hlow, hhigh⟩ hcut)
  · have hread := pesRead_mpeg2_truncated h hlen hstart hsid hl htop hcut
    by_cases hflags : (byteAt b 7).extractLsb' 6 2 = 0b01
    · rw [if_pos hflags] at hread ⊢
      exact exec_of_plain_error hread
    · rw [if_neg hflags] at hread ⊢
      exact exec_of_pastEnd hread
  · exact exec_of_pastEnd <| pesRead_of_body_error h (Nat.le_of_eq hlen.symm) hstart hsid
      fun p ho _ hhdr => pesBody_of_end hhdr (hend.trans ho.symm)
  · exact exec_of_pastEnd (pesRead_mpeg2_short h hlen hstart hsid hl hcut)
  · exact exec_of_pastEnd (pesRead_mpeg1_truncated h hl hsid hst hlen ⟨hpre, hne⟩ hend)

end Sys2Proof.Machine
end

section
/-! `TS_ENC`, `TS_DEC` and `PES_WRITE` (42_pes.md R180 to R190): the full next state of each, and its failures. -/

namespace Sys2Proof.Machine

/-- A check and what follows fail alike: where the check does not hold, or past it. -/
theorem check_bind_error_self {c : Prop} [Decidable c] {β : Type} {f : Unit → Except Raise β} {r : Raise} :
    (check c r >>= f) = .error r ↔ ¬ c ∨ f () = .error r := by
  rw [check_bind_eq_error]
  tauto

/-! ### TS_ENC -/

theorem wireStamp_eq_ofNat (v : BitVec 64) : wireStamp v = BitVec.ofNat 33 (v.toNat % 2 ^ 33) := by
  apply BitVec.eq_of_toNat_eq
  simp [wireStamp]

/-- Settles O38: the field written reads back, and every byte outside it reads as before. -/
theorem tsEncResult : Obligations.TsEncResult := by
  intro sel p s v hv
  have hstamp : s.stamp sel = v := by cases sel <;> exact hv.symm
  subst hstamp
  refine ⟨fun hwf hin hne hcap => ?_, fun hbad => ?_, fun hin hne hcap => ?_⟩
  · rw [← wireStamp_eq_ofNat]
    exact ⟨_, exec_of_ok (tsEnc_eq_ok.2 ⟨hin, hne, hcap, rfl⟩),
      Memory.readBytes_writeBytes hwf _ (tsField ..),
      fun _ ha => Memory.read_writeBytes_outside s.mem (tsField ..) ha⟩
  · exact exec_of_plain_error <| check_bind_error_self.2 <| hbad.imp_right fun habsent =>
      check_bind_error_self.2 (.inl (not_not_intro habsent))
  · exact exec_of_plain_error <| bind_error_of_ok (check_of hin _) <| bind_error_of_ok (check_of hne _) <|
      check_bind_error_self.2 (.inl (Nat.not_le.2 hcap))

/-! ### TS_DEC -/

/-- Settles O39: one take of the five bytes; the failures are those of every decoder. -/
theorem tsDecResult : Obligations.TsDecResult := fun s =>
  ⟨fun _ hlen h => exec_of_ok (tsDec_eq_ok.2 ⟨_, _, h.prologue, h.ahead.take hlen.symm, rfl⟩),
    decoderProtocol .tsDec 5 s (.inl ⟨rfl, rfl⟩)⟩

/-! ### PES_WRITE -/

section PesWrite

variable {unb : Bool} {p : Pes} {len : Nat}

theorem emitsPts_eq_decide (p : Pes) : emitsPts p = decide (p.pts ≠ noValue) := by
  rw [emitsPts, decide_not]
  rfl

theorem emitsDts_eq_decide (p : Pes) :
    emitsDts p = decide (p.pts ≠ noValue ∧ p.dts ≠ noValue ∧ p.dts ≠ p.pts) := by
  rw [emitsDts, emitsPts_eq_decide, Bool.decide_and, Bool.decide_and, ← Bool.and_assoc,
    decide_not (p := p.dts = noValue), decide_not (p := p.dts = p.pts)]
  rfl

/-- A DTS is emitted only after a PTS. -/
theorem emitsPts_of_emitsDts (h : emitsDts p = true) : emitsPts p = true :=
  (Bool.and_eq_true_iff.1 (Bool.and_eq_true_iff.1 h).1).1

theorem pesOptLen_eq (p : Pes) : pesOptLen p =
    (if p.pts ≠ noValue then 5 else 0) +
      (if p.pts ≠ noValue ∧ p.dts ≠ noValue ∧ p.dts ≠ p.pts then 5 else 0) := by
  simp only [pesOptLen, emitsPts_eq_decide, emitsDts_eq_decide, decide_eq_true_eq]

/-- PES_packet_length is written as 0: UNB asks for it, or the length does not fit (42_pes.md R190). -/
abbrev LengthOmitted (unb : Bool) (p : Pes) : Prop :=
  unb = true ∨ 0xFFFF < 3 + pesOptLen p + p.payloadLen.toNat

theorem pesPacketLen_eq (unb : Bool) (p : Pes) :
    pesPacketLen unb p =
      if LengthOmitted unb p then check (isVideo p.sid) .invalidArgument >>= fun _ => .ok 0
      else .ok (3 + pesOptLen p + p.payloadLen.toNat) := by
  cases unb <;> simp [pesPacketLen, LengthOmitted]

theorem pesPacketLen_eq_ok :
    pesPacketLen unb p = .ok len ↔
      (LengthOmitted unb p → isVideo p.sid = true) ∧
      len = if LengthOmitted unb p then 0 else 3 + pesOptLen p + p.payloadLen.toNat := by
  rw [pesPacketLen_eq]
  by_cases ho : LengthOmitted unb p
  · rw [if_pos ho, if_pos ho, check_bind_eq_ok, imp_iff_right ho, Except.ok.injEq, eq_comm (a := len)]
  · rw [if_neg ho, if_neg ho, Except.ok.injEq, eq_comm (a := len)]
    exact (and_iff_right fun h => absurd h ho).symm

theorem pesPacketLen_of_not_video (hvideo : isVideo p.sid = false) (ho : LengthOmitted unb p) :
    pesPacketLen unb p = .error .invalidArgument := by
  rw [pesPacketLen_eq, if_pos ho, check_of_not (by simp [hvideo]), error_bind]

/-- `f7` of R190, its two flags set apart. -/
theorem pesFlagsByte_eq (p : Pes) : pesFlagsByte p =
    (if emitsPts p then 0x80 else 0x00) ||| (if emitsDts p then 0x40 else 0x00) := by
  unfold pesFlagsByte
  cases emitsPts p <;> cases emitsDts p <;> rfl

theorem pesOpt_eq (p : Pes) : (0#8 ++ pesFlagsByte p : BitVec 16) =
    (if emitsPts p then 0x0080 else 0) ||| (if emitsDts p then 0x0040 else 0) := by
  unfold pesFlagsByte
  cases emitsPts p <;> cases emitsDts p <;> rfl

/-- Byte 6 of the header: `'10'` above the six flag bits. -/
theorem flagsByte_eq_or (flags : BitVec 6) : 0b10#2 ++ flags = 0x80 ||| flags.setWidth 8 := by
  revert flags
  decide

/-- The header written reads back (42_pes.md R190). -/
theorem readBytes_pesWritten {s : State} (hwf : s.mem.wf = true) (len : Nat) :
    (pesWritten s len).mem.readBytes s.dstAddr.toNat (9 + pesOptLen s.pes) = pesHeader s.pes len := by
  rw [← pesHeader_length s.pes len]
  exact Memory.readBytes_writeBytes hwf _ _

end PesWrite

/-- Settles O40: the header written reads back, its bytes and the registers in the words of R190. -/
theorem pesWriteResult : Obligations.PesWriteResult := by
  intro unb s pv ed h len hpv hed hh hlen hwf hsid hin hdts hvideo hcap
  rw [← emitsPts_eq_decide] at hpv
  rw [← emitsDts_eq_decide] at hed
  subst hpv hed
  change h = pesOptLen s.pes at hh
  subst hh
  rw [← pesOpt_eq, ← pesFlagsByte_eq, ← flagsByte_eq_or]
  refine ⟨_, exec_of_ok (pesWrite_eq_ok.2
    ⟨hsid, hin, hdts, len, pesPacketLen_eq_ok.2 ⟨hvideo, hlen⟩, hcap, rfl⟩), ?_, fun a ha => ?_⟩
  · exact (readBytes_pesWritten hwf len).trans (List.append_assoc ..).symm
  · exact Memory.read_writeBytes_outside s.mem (pesHeader s.pes len) (by rwa [pesHeader_length])

/-- Settles O41: the checks of the pseudocode in their order. -/
theorem pesWriteFailures : Obligations.PesWriteFailures := by
  intro unb s h hh
  rw [← pesOptLen_eq] at hh
  subst hh
  refine ⟨fun hbad => exec_of_plain_error ?_, fun hsid hin hdts hvideo hcap => exec_of_plain_error ?_⟩
  · refine check_bind_error_self.2 <| hbad.imp Bool.eq_false_iff.1 fun hbad =>
      check_bind_error_self.2 <| hbad.imp_right fun hbad => check_bind_error_self.2 <|
      hbad.imp (fun ⟨hdts, hpts⟩ himp => himp hdts hpts) fun ⟨hvideo, ho⟩ => ?_
    exact bind_error_of_error (pesPacketLen_of_not_video hvideo ho)
  · exact bind_error_of_ok (check_of hsid _) <| bind_error_of_ok (check_of hin _) <|
      bind_error_of_ok (check_of hdts _) <| bind_error_of_ok (pesPacketLen_eq_ok.2 ⟨hvideo, rfl⟩) <|
      check_bind_error_self.2 (.inl (Nat.not_le.2 hcap))

end Sys2Proof.Machine
end

section
/-! `PES_READ` around its body (42_pes.md R200, R205): the six bytes before it, what a body that succeeds leads to, and
a stream_id that has none. -/

namespace Sys2Proof.Machine

section PesRead

variable {l : Layout} {s : State} {p q : PesScan} {sid : Byte} {len : BitVec 16} {b c : List Byte} {n : Nat}

/-- Where the body starts: bytes 0 to 5 taken, their fields in the record (42_pes.md R200). -/
def pesScanStart (s : State) (sid : Byte) (len : BitVec 16) : PesScan :=
  { o := s.cur.pos.toNat / 8 + 6, r := { sid := sid, pktLen := len, payloadLen := s.pes.payloadLen } }

/-- The state after a `PES_READ` of a header of `n` bytes, of which the body made `q` (42_pes.md R205). -/
def pesLoaded (s : State) (len : BitVec 16) (n : Nat) (q : PesScan) : State :=
  { s with
    cur := s.after n
    pes := q.r
    result := BitVec.ofNat 32 n
    resultHi := if len = 0 then 0 else BitVec.ofNat 32 (len.toNat - (n - 6))
    status := { s.okStatus with mpeg1 := q.mpeg1, markerErr := s.status.markerErr || q.flag } }

/-- The end of `PES_READ`: the packet length is checked against what the header took, and the record is committed. -/
def pesClose (s : State) (len : BitVec 16) (q : PesScan) : Except Raise State := do
  check (len = 0 ∨ q.o - s.cur.pos.toNat / 8 - 6 ≤ len.toNat) .invalidData
  .ok (((commitPes s q).epilogue q.o).done
    (if len = 0 then 0 else BitVec.ofNat 32 (len.toNat + 6 - (q.o - s.cur.pos.toNat / 8)))
    (BitVec.ofNat 32 (q.o - s.cur.pos.toNat / 8)))

theorem field16_be16 (x : BitVec 16) : field16 (be16 x) 0 = x :=
  (extractLsb'_append_adjacent x 0 8 8).trans BitVec.extractLsb'_eq_self

theorem field16_pesStart (sid : Byte) (len : BitVec 16) : field16 (pesStart sid len) 4 = len :=
  field16_be16 len

theorem pesRead_eq_bind (h : Reads s (pesStart sid len ++ c)) (hsid : 0xBC ≤ sid.toNat) :
    pesRead l s = pesBody l s (pesScanStart s sid len) >>= pesClose s len := by
  have hbytes : take s (s.cur.pos.toNat / 8) 6 = .ok (pesStart sid len) := h.ahead.left.take rfl
  unfold pesRead
  rw [h.prologue, ok_bind, hbytes, ok_bind, check_of ⟨rfl, rfl, rfl⟩, ok_bind, field16_pesStart]
  exact bind_eq_of_ok (check_of hsid _)

theorem pesClose_eq (ho : q.o = s.cur.pos.toNat / 8 + n) (hn : 6 ≤ n) :
    pesClose s len q =
      if len = 0 ∨ n - 6 ≤ len.toNat then .ok (pesLoaded s len n q) else .error .invalidData := by
  have htook : q.o - s.cur.pos.toNat / 8 = n := by omega
  unfold pesClose
  rw [htook]
  by_cases hfits : len = 0 ∨ n - 6 ≤ len.toNat
  · rw [if_pos hfits, check_of hfits, ok_bind, ho, show len.toNat + 6 - n = len.toNat - (n - 6) by omega]
    rfl
  · rw [if_neg hfits, check_of_not hfits, error_bind]

/-- A body that succeeds loads its record, if the packet is not shorter than the header. -/
theorem exec_pesRead_of_body (h : Reads s (pesStart sid len ++ c)) (hsid : 0xBC ≤ sid.toNat)
    (hbody : pesBody l s (pesScanStart s sid len) = .ok q) (ho : q.o = s.cur.pos.toNat / 8 + n)
    (hn : 6 ≤ n) (hfits : len = 0 ∨ n - 6 ≤ len.toNat) :
    exec (.pesRead l) s = .next (pesLoaded s len n q) := by
  refine exec_of_ok ((pesRead_eq_bind h hsid).trans ?_)
  rw [hbody, ok_bind, pesClose_eq ho hn, if_pos hfits]

theorem exec_pesRead_of_short_packet (h : Reads s (pesStart sid len ++ c)) (hsid : 0xBC ≤ sid.toNat)
    (hbody : pesBody l s (pesScanStart s sid len) = .ok q) (ho : q.o = s.cur.pos.toNat / 8 + n)
    (hn : 6 ≤ n) (hshort : len ≠ 0 ∧ len.toNat < n - 6) :
    exec (.pesRead l) s = .next (s.failed .invalidData) := by
  refine exec_of_plain_error ((pesRead_eq_bind h hsid).trans ?_)
  rw [hbody, ok_bind, pesClose_eq ho hn, if_neg (by rw [not_or, Nat.not_le]; exact hshort)]
  rfl

theorem exec_pesRead_of_body_error (h : Reads s (pesStart sid len ++ c)) (hsid : 0xBC ≤ sid.toNat)
    (hbody : pesBody l s (pesScanStart s sid len) = .error .invalidData) :
    exec (.pesRead l) s = .next (s.failed .invalidData) :=
  exec_of_plain_error ((pesRead_eq_bind h hsid).trans (bind_error_of_error hbody))

theorem low_of_hdrBearing (h : hdrBearing sid = true) : 0xBC ≤ sid.toNat :=
  Nat.le_of_succ_le (hdrBearing_iff.1 h).1

theorem noHdr_of_hdrBearing (h : hdrBearing sid = true) : noHdr sid = false :=
  Bool.eq_false_iff.2 (hdrBearing_iff.1 h).2

theorem low_of_noHdr (h : noHdr sid = true) : 0xBC ≤ sid.toNat := by
  rcases noHdr_iff.1 h with rfl | rfl | rfl | rfl | rfl | rfl | rfl | rfl <;> decide

end PesRead

/-- Settles O42: without a body the record is the one it starts from, six bytes on. -/
theorem pesReadNoHeader : Obligations.PesReadNoHeader := by
  intro l s sid len hno h
  rw [← List.append_nil (pesStart sid len)] at h
  have hbody : pesBody l s (pesScanStart s sid len) = .ok (pesScanStart s sid len) := if_pos hno
  rw [exec_pesRead_of_body h (low_of_noHdr hno) hbody rfl (Nat.le_refl 6) (.inr (Nat.zero_le _))]
  have hhi : (if len = 0 then 0 else BitVec.ofNat 32 (len.toNat - (6 - 6)) : Word) = len.setWidth 32 := by
    split
    · next hzero => subst hzero; rfl
    · exact BitVec.ofNat_toNat ..
  simp only [pesLoaded, hhi, pesScanStart, Bool.or_false]
  rfl

end Sys2Proof.Machine
end

section
/-! The optional area of an MPEG-2 header (42_pes.md R201 to R203): where each field's bytes end, what they decode to,
and that the area as a whole decodes exactly when all its fields fit. -/

namespace Sys2Proof.Machine

section Area

variable {hb : List Byte} {k n e e' : Nat} {α β : Type} {f x : Byte} {a : OptScan}

/-! ### Parts of the area -/

/-- What a part of the area answers that ends before index `e`: `v`, if the area has `e` bytes. -/
def fitting (hb : List Byte) (e : Nat) (v : α) : Except Raise α :=
  if e ≤ hb.length then .ok v else .error .invalidData

theorem fitting_of_le {v : α} (h : e ≤ hb.length) : fitting hb e v = .ok v := if_pos h

theorem fitting_of_lt {v : α} (h : hb.length < e) : fitting hb e v = .error .invalidData :=
  if_neg (Nat.not_le.2 h)

/-- Two parts in a row: the second decides, since it ends no earlier. -/
theorem fitting_bind {v : α} {w : β} {rest : α → Except Raise β} (hle : e ≤ e')
    (hrest : e ≤ hb.length → rest v = fitting hb e' w) : fitting hb e v >>= rest = fitting hb e' w := by
  by_cases hfits : e ≤ hb.length
  · rw [fitting_of_le hfits, ok_bind, hrest hfits]
  · rw [fitting, if_neg hfits, error_bind, fitting_of_lt (by omega)]

theorem fitting_bind_ok {v : α} {g : α → β} : (fitting hb e v >>= fun w => .ok (g w)) = fitting hb e (g v) :=
  fitting_bind (Nat.le_refl e) fun h => (fitting_of_le h).symm

/-- A field that a flag announces: without the flag the area has been read up to `a.k` and nothing is added. -/
theorem optional_eq_fitting {present : Bool} {field : Except Raise OptScan} {b : OptScan}
    (ha : a.k ≤ hb.length) (habsent : present = false → e = a.k ∧ b = a)
    (hpresent : present = true → field = fitting hb e b) :
    (if present then field else .ok a) = fitting hb e b := by
  cases present with
  | false =>
    obtain ⟨rfl, rfl⟩ := habsent rfl
    exact (fitting_of_le ha).symm
  | true => exact hpresent rfl

theorem getField_eq_fitting (hb : List Byte) (k n : Nat) :
    getField hb k n = fitting hb (k + n) (slice hb k n) := by
  unfold getField check fitting
  split <;> rfl

theorem byteAt_slice {i : Nat} (h : i < n) : byteAt (slice hb k n) i = byteAt hb (k + i) := by
  rw [slice, byteAt_take h, byteAt_drop]

theorem slice_length (h : k + n ≤ hb.length) : (slice hb k n).length = n := by
  rw [slice, List.length_take, List.length_drop]
  omega

theorem field16_eq_ofNat_rdBE {b : List Byte} (h : b.length = 2) : field16 b 0 = BitVec.ofNat 16 (rdBE b) := by
  obtain ⟨x, y, rfl⟩ := List.length_eq_two.1 h
  apply BitVec.eq_of_toNat_eq
  have hx := x.isLt
  have hy := y.isLt
  simp only [field16, byteAt, List.getD_cons_zero, List.getD_cons_succ, toNat_append_eq_add, rdBE, List.foldl,
    BitVec.toNat_ofNat]
  omega

/-- The two readings of a 16-bit field, where the area has its bytes. -/
theorem field16_slice (h : k + 2 ≤ hb.length) : field16 (slice hb k 2) 0 = numberAt 16 hb k 2 :=
  field16_eq_ofNat_rdBE (slice_length h)

theorem not_stampOk (p : BitVec 4) (t : List Byte) : (!stampOk p t) = stampWrong p t := by
  rw [stampOk, stampWrong, Bool.not_and]
  rfl

/-! ### The fields of R201 -/

theorem optStamps_eq (ha : a.k = 0) :
    optStamps f hb a = fitting hb (escrAt f)
      { k := escrAt f
        r := { a.r with
          pts := if f.getLsbD 7 then (tsValue (slice hb 0 5)).setWidth 64 else a.r.pts
          dts := if f.getLsbD 7 then
              (tsValue (if f.getLsbD 6 then slice hb 5 5 else slice hb 0 5)).setWidth 64
            else a.r.dts }
        flag := a.flag ||
          ((f.getLsbD 7 && stampWrong (if f.getLsbD 6 then 0b0011 else 0b0010) (slice hb 0 5)) ||
            (f.getLsbD 7 && f.getLsbD 6 && stampWrong 0b0001 (slice hb 5 5))) } := by
  refine optional_eq_fitting (by omega) (fun h7 => ?_) fun h7 => ?_
  · rw [escrAt, h7, Bool.false_and, Bool.false_and, Bool.false_and, Bool.or_false, Bool.or_false]
    exact ⟨ha.symm, congrArg (OptScan.mk · a.r a.flag) ha.symm⟩
  · simp only [escrAt, h7, ha, getField_eq_fitting, not_stampOk]
    cases h6 : f.getLsbD 6 with
    | false =>
      rw [if_neg Bool.false_ne_true, fitting_bind_ok, Bool.and_false, Bool.false_and, Bool.or_false]
      rfl
    | true =>
      rw [if_pos rfl]
      refine fitting_bind (by decide) fun _ => ?_
      rw [fitting_bind_ok, Bool.or_assoc]
      rfl

theorem optEscr_eq (ha : a.k ≤ hb.length) :
    optEscr f hb a = fitting hb (a.k + if f.getLsbD 5 then 6 else 0)
      { k := a.k + if f.getLsbD 5 then 6 else 0
        r := { a.r with
          escrBase := if f.getLsbD 5 then
              (numberAt 48 hb a.k 6).extractLsb' 43 3 ++ (numberAt 48 hb a.k 6).extractLsb' 27 15 ++
                (numberAt 48 hb a.k 6).extractLsb' 11 15
            else a.r.escrBase
          escrExt := if f.getLsbD 5 then (numberAt 48 hb a.k 6).extractLsb' 1 9 else a.r.escrExt }
        flag := a.flag || (f.getLsbD 5 &&
          !((numberAt 48 hb a.k 6).getLsbD 42 && (numberAt 48 hb a.k 6).getLsbD 26 &&
            (numberAt 48 hb a.k 6).getLsbD 10 && (numberAt 48 hb a.k 6).getLsbD 0)) } := by
  refine optional_eq_fitting ha (fun hf => ?_) fun hf => ?_
  · rw [hf, Bool.false_and, Bool.or_false]
    exact ⟨rfl, rfl⟩
  · rw [getField_eq_fitting, fitting_bind_ok, hf]
    rfl

theorem optEsRate_eq (ha : a.k ≤ hb.length) :
    optEsRate f hb a = fitting hb (a.k + if f.getLsbD 4 then 3 else 0)
      { k := a.k + if f.getLsbD 4 then 3 else 0
        r := { a.r with
          esRate := if f.getLsbD 4 then (numberAt 24 hb a.k 3).extractLsb' 1 22 else a.r.esRate }
        flag := a.flag || (f.getLsbD 4 &&
          !((numberAt 24 hb a.k 3).getLsbD 23 && (numberAt 24 hb a.k 3).getLsbD 0)) } := by
  refine optional_eq_fitting ha (fun hf => ?_) fun hf => ?_
  · rw [hf, Bool.false_and, Bool.or_false]
    exact ⟨rfl, rfl⟩
  · rw [getField_eq_fitting, fitting_bind_ok, hf]
    rfl

theorem optTrick_eq (ha : a.k ≤ hb.length) :
    optTrick f hb a = fitting hb (a.k + if f.getLsbD 3 then 1 else 0)
      { k := a.k + if f.getLsbD 3 then 1 else 0
        r := { a.r with trick := if f.getLsbD 3 then byteAt hb a.k else a.r.trick }
        flag := a.flag } := by
  refine optional_eq_fitting ha (fun hf => ?_) fun hf => ?_
  · rw [hf]
    exact ⟨rfl, rfl⟩
  · rw [getField_eq_fitting, fitting_bind_ok, hf, byteAt_slice Nat.one_pos]
    rfl

theorem optAddCopy_eq (ha : a.k ≤ hb.length) :
    optAddCopy f hb a = fitting hb (a.k + if f.getLsbD 2 then 1 else 0)
      { k := a.k + if f.getLsbD 2 then 1 else 0
        r := { a.r with
          addCopy := if f.getLsbD 2 then (byteAt hb a.k).extractLsb' 0 7 else a.r.addCopy }
        flag := a.flag || (f.getLsbD 2 && !(byteAt hb a.k).getLsbD 7) } := by
  refine optional_eq_fitting ha (fun hf => ?_) fun hf => ?_
  · rw [hf, Bool.false_and, Bool.or_false]
    exact ⟨rfl, rfl⟩
  · rw [getField_eq_fitting, fitting_bind_ok, hf, byteAt_slice Nat.one_pos]
    rfl

theorem optPrevCrc_eq (ha : a.k ≤ hb.length) :
    optPrevCrc f hb a = fitting hb (a.k + if f.getLsbD 1 then 2 else 0)
      { k := a.k + if f.getLsbD 1 then 2 else 0
        r := { a.r with prevCrc := if f.getLsbD 1 then numberAt 16 hb a.k 2 else a.r.prevCrc }
        flag := a.flag } := by
  refine optional_eq_fitting ha (fun hf => ?_) fun hf => ?_
  · rw [hf]
    exact ⟨rfl, rfl⟩
  · rw [getField_eq_fitting, hf]
    refine fitting_bind (Nat.le_refl _) fun hfits => ?_
    rw [field16_slice hfits]
    exact (fitting_of_le hfits).symm

/-! ### The extension of R203 -/

theorem extPrivate_eq (ha : a.k ≤ hb.length) :
    extPrivate x hb a = fitting hb (a.k + if x.getLsbD 7 then 16 else 0)
      { a with k := a.k + if x.getLsbD 7 then 16 else 0 } := by
  refine optional_eq_fitting ha (fun hx => ?_) fun hx => ?_
  · rw [hx]
    exact ⟨rfl, rfl⟩
  · rw [getField_eq_fitting, fitting_bind_ok, hx]
    rfl

theorem extPack_eq (ha : a.k ≤ hb.length) :
    extPack x hb a = fitting hb (a.k + if x.getLsbD 6 then 1 + (byteAt hb a.k).toNat else 0)
      { a with k := a.k + if x.getLsbD 6 then 1 + (byteAt hb a.k).toNat else 0 } := by
  refine optional_eq_fitting ha (fun hx => ?_) fun hx => ?_
  · rw [hx]
    exact ⟨rfl, rfl⟩
  · rw [hx, if_pos rfl, getField_eq_fitting, ← Nat.add_assoc]
    refine fitting_bind (Nat.le_add_right ..) fun _ => ?_
    rw [getField_eq_fitting, fitting_bind_ok, byteAt_slice Nat.one_pos]
    rfl

theorem extCounter_eq (ha : a.k ≤ hb.length) :
    extCounter x hb a = fitting hb (a.k + if x.getLsbD 5 then 2 else 0)
      { a with
        k := a.k + if x.getLsbD 5 then 2 else 0
        flag := a.flag || (x.getLsbD 5 &&
          !((byteAt hb a.k).getLsbD 7 && (byteAt hb (a.k + 1)).getLsbD 7)) } := by
  refine optional_eq_fitting ha (fun hx => ?_) fun hx => ?_
  · rw [hx, Bool.false_and, Bool.or_false]
    exact ⟨rfl, rfl⟩
  · rw [getField_eq_fitting, fitting_bind_ok, hx, byteAt_slice Nat.two_pos, byteAt_slice Nat.one_lt_two]
    rfl

theorem extStdBuf_eq (ha : a.k ≤ hb.length) :
    extStdBuf x hb a = fitting hb (a.k + if x.getLsbD 4 then 2 else 0)
      { k := a.k + if x.getLsbD 4 then 2 else 0
        r := { a.r with
          stdBuf := if x.getLsbD 4 then
              { valid := true, scale := (numberAt 16 hb a.k 2).getLsbD 13
                size := (numberAt 16 hb a.k 2).extractLsb' 0 13 }
            else a.r.stdBuf }
        flag := a.flag || (x.getLsbD 4 && ((numberAt 16 hb a.k 2).extractLsb' 14 2 != 0b01)) } := by
  refine optional_eq_fitting ha (fun hx => ?_) fun hx => ?_
  · rw [hx, Bool.false_and, Bool.or_false]
    exact ⟨rfl, rfl⟩
  · rw [getField_eq_fitting, hx]
    refine fitting_bind (Nat.le_refl _) fun hfits => ?_
    rw [field16_slice hfits]
    exact (fitting_of_le hfits).symm

theorem toNat_low_seven_bits (y : Byte) : (y.extractLsb' 0 7).toNat = y.toNat % 128 := by
  simp

theorem extField_eq (ha : a.k ≤ hb.length) :
    extField x hb a =
      fitting hb (a.k + if x.getLsbD 0 then 1 + (byteAt hb a.k).toNat % 128 else 0)
        { a with
          k := a.k + if x.getLsbD 0 then 1 + (byteAt hb a.k).toNat % 128 else 0
          flag := a.flag || (x.getLsbD 0 && !(byteAt hb a.k).getLsbD 7) } := by
  refine optional_eq_fitting ha (fun hx => ?_) fun hx => ?_
  · rw [hx, Bool.false_and, Bool.or_false]
    exact ⟨rfl, rfl⟩
  · rw [hx, if_pos rfl, getField_eq_fitting, ← Nat.add_assoc, ← toNat_low_seven_bits]
    refine fitting_bind (Nat.le_add_right ..) fun _ => ?_
    dsimp only
    rw [getField_eq_fitting, fitting_bind_ok, byteAt_slice Nat.one_pos]
    rfl

/-! The offsets rise to the end of the area (30_encoding.md R103, R105). -/

theorem ext2At_le : ext2At f hb ≤ extensionEnd f hb := Nat.le_add_right ..

theorem pstdAt_le : pstdAt f hb ≤ extensionEnd f hb := Nat.le_trans (Nat.le_add_right ..) ext2At_le

theorem counterAt_le : counterAt f hb ≤ extensionEnd f hb := Nat.le_trans (Nat.le_add_right ..) pstdAt_le

theorem packAt_le : packAt f hb ≤ extensionEnd f hb := Nat.le_trans (Nat.le_add_right ..) counterAt_le

theorem extensionAt_lt : extensionAt f < extensionEnd f hb := Nat.le_trans (Nat.le_add_right ..) packAt_le

theorem extensionAt_le : extensionAt f ≤ optionalEnd f hb := by
  unfold optionalEnd
  split
  · exact Nat.le_of_lt extensionAt_lt
  · exact Nat.le_refl _

theorem prevCrcAt_le : prevCrcAt f ≤ optionalEnd f hb := Nat.le_trans (Nat.le_add_right ..) extensionAt_le

theorem addCopyAt_le : addCopyAt f ≤ optionalEnd f hb := Nat.le_trans (Nat.le_add_right ..) prevCrcAt_le

theorem trickAt_le : trickAt f ≤ optionalEnd f hb := Nat.le_trans (Nat.le_add_right ..) addCopyAt_le

theorem esRateAt_le : esRateAt f ≤ optionalEnd f hb := Nat.le_trans (Nat.le_add_right ..) trickAt_le

theorem escrAt_le : escrAt f ≤ optionalEnd f hb := Nat.le_trans (Nat.le_add_right ..) esRateAt_le

theorem optExtension_eq (ha : a.k = extensionAt f) (hfits : a.k ≤ hb.length) (hopt : a.r.opt = 0#8 ++ f) :
    optExtension f hb a = fitting hb (optionalEnd f hb)
      { k := optionalEnd f hb
        r := { a.r with
          opt := (if f.getLsbD 0 then extFlags f hb else 0) ++ f
          stdBuf := if f.getLsbD 0 && (extFlags f hb).getLsbD 4 then
              { valid := true, scale := (numberAt 16 hb (pstdAt f hb) 2).getLsbD 13
                size := (numberAt 16 hb (pstdAt f hb) 2).extractLsb' 0 13 }
            else a.r.stdBuf }
        flag := a.flag ||
          ((f.getLsbD 0 && (extFlags f hb).getLsbD 5 &&
              !((byteAt hb (counterAt f hb)).getLsbD 7 && (byteAt hb (counterAt f hb + 1)).getLsbD 7)) ||
            (f.getLsbD 0 && (extFlags f hb).getLsbD 4 &&
              ((numberAt 16 hb (pstdAt f hb) 2).extractLsb' 14 2 != 0b01)) ||
            (f.getLsbD 0 && (extFlags f hb).getLsbD 0 && !(byteAt hb (ext2At f hb)).getLsbD 7)) } := by
  obtain ⟨k, r, flag⟩ := a
  dsimp only at ha hopt hfits
  subst ha
  refine optional_eq_fitting hfits (fun h0 => ?_) fun h0 => ?_
  · simp only [optionalEnd, h0, Bool.false_and, Bool.or_false]
    exact ⟨rfl, congrArg (fun o => OptScan.mk _ { r with opt := o } flag) hopt.symm⟩
  · have hlow : (0#8 ++ f).extractLsb' 0 8 = f := BitVec.extractLsb'_append_eq_right
    rw [optionalEnd, h0, if_pos rfl, getField_eq_fitting, hopt, hlow]
    refine fitting_bind extensionAt_lt fun h => ?_
    rw [show byteAt (slice hb (extensionAt f) 1) 0 = extFlags f hb from byteAt_slice Nat.one_pos]
    dsimp only
    rw [extPrivate_eq h]
    refine fitting_bind packAt_le fun h => ?_
    rw [extPack_eq h]
    refine fitting_bind counterAt_le fun h => ?_
    rw [extCounter_eq h]
    refine fitting_bind pstdAt_le fun h => ?_
    rw [extStdBuf_eq h]
    refine fitting_bind ext2At_le fun h => ?_
    rw [extField_eq h]
    simp only [Bool.true_and, Bool.or_assoc]
    rfl

/-- What `MPEG2Body` knows before the optional area of `n` bytes (42_pes.md R201). -/
def mpeg2Record (s : State) (sid : Byte) (len : BitVec 16) (flags : BitVec 6) (n : Nat) : Pes :=
  { sid := sid, pktLen := len, flags := flags, hdrLen := BitVec.ofNat 8 n, payloadLen := s.pes.payloadLen }

/-- The whole area: it decodes if its fields fit, and a field that does not is InvalidData. -/
theorem optFields_eq (s : State) (sid : Byte) (len : BitVec 16) (flags : BitVec 6) (n : Nat) (f : Byte)
    (hb : List Byte) :
    optFields f hb { k := 0, r := { mpeg2Record s sid len flags n with opt := 0#8 ++ f }, flag := false } =
      fitting hb (optionalEnd f hb)
        { k := optionalEnd f hb
          r := optionalRegs f hb (mpeg2Record s sid len flags n)
          flag := optionalWrong f hb } := by
  unfold optFields
  rw [optStamps_eq rfl]
  refine fitting_bind escrAt_le fun h => ?_
  rw [optEscr_eq h]
  refine fitting_bind esRateAt_le fun h => ?_
  rw [optEsRate_eq h]
  refine fitting_bind trickAt_le fun h => ?_
  rw [optTrick_eq h]
  refine fitting_bind addCopyAt_le fun h => ?_
  rw [optAddCopy_eq h]
  refine fitting_bind prevCrcAt_le fun h => ?_
  rw [optPrevCrc_eq h]
  refine fitting_bind extensionAt_le fun h => ?_
  rw [optExtension_eq rfl h rfl]
  unfold optionalWrong
  simp only [Bool.false_or, Bool.or_assoc]
  rfl

end Area

/-! ### The body -/

section Body

variable {l : Layout} {s : State} {sid f : Byte} {len : BitVec 16} {flags : BitVec 6} {hb c : List Byte}

theorem mpeg2Header_eq_append (sid : Byte) (len : BitVec 16) (flags : BitVec 6) (f : Byte) (hb : List Byte) :
    mpeg2Header sid len flags f hb =
      pesStart sid len ++ ([0b10#2 ++ flags, f, BitVec.ofNat 8 hb.length] ++ hb) :=
  List.append_assoc ..

theorem Reads.ahead_body (h : Reads s (pesStart sid len ++ c)) : Ahead s (pesScanStart s sid len).o c :=
  h.ahead.right

/-- What the body makes of a header whose optional area decodes. -/
def mpeg2Scan (s : State) (sid : Byte) (len : BitVec 16) (flags : BitVec 6) (f : Byte) (hb : List Byte) :
    PesScan :=
  { o := (pesScanStart s sid len).o + 3 + hb.length
    r := optionalRegs f hb (mpeg2Record s sid len flags hb.length)
    flag := optionalWrong f hb }

/-- The MPEG-2 body: the forbidden flags first, then the optional area. -/
theorem pesBody_mpeg2 (hl : l ≠ .mpeg1) (hsid : hdrBearing sid = true) (hlen : hb.length ≤ 255)
    (h : Reads s (mpeg2Header sid len flags f hb)) :
    pesBody l s (pesScanStart s sid len) =
      if f.extractLsb' 6 2 = 0b01 then .error .invalidData
      else fitting hb (optionalEnd f hb) (mpeg2Scan s sid len flags f hb) := by
  rw [mpeg2Header_eq_append] at h
  have htop : (0b10#2 ++ flags).extractLsb' 6 2 = 0b10 := BitVec.extractLsb'_append_eq_left
  have hlow : (0b10#2 ++ flags).extractLsb' 0 6 = flags := BitVec.extractLsb'_append_eq_right
  have hH : (BitVec.ofNat 8 hb.length).toNat = hb.length := by rw [BitVec.toNat_ofNat]; omega
  have hlayout : l = .mpeg2 ∨ (l = .auto ∧ (0b10#2 ++ flags).extractLsb' 6 2 = 0b10) := by
    cases l with
    | mpeg2 => exact .inl rfl
    | mpeg1 => exact absurd rfl hl
    | auto => exact .inr ⟨rfl, htop⟩
  have hahead := h.ahead_body
  rw [pesBody_eq_mpeg2Body (noHdr_of_hdrBearing hsid) hahead (Nat.succ_pos _) hlayout]
  have hfixed : take s (pesScanStart s sid len).o 3 = .ok [0b10#2 ++ flags, f, BitVec.ofNat 8 hb.length] :=
    hahead.left.take rfl
  refine (bind_eq_of_ok hfixed).trans <| (bind_eq_of_ok (check_of htop _)).trans ?_
  by_cases hflags : f.extractLsb' 6 2 = 0b01
  · rw [if_pos hflags]
    exact bind_error_of_error (check_of_not (not_not_intro hflags) _)
  · rw [if_neg hflags]
    refine (bind_eq_of_ok (check_of hflags _)).trans <| (bind_eq_of_ok (hahead.right.take hH)).trans ?_
    have harea := optFields_eq s sid len flags hb.length f hb
    rw [← hlow] at harea
    refine (congrArg (· >>= _) harea).trans <| fitting_bind_ok.trans ?_
    refine congrArg (fitting hb _) ?_
    rw [hlow, show (byteAt [0b10#2 ++ flags, f, BitVec.ofNat 8 hb.length] 2).toNat = hb.length from hH]
    rfl

end Body

/-- Settles O43: the body's answer, then the check of the packet length. -/
theorem pesReadMpeg2 : Obligations.PesReadMpeg2 := by
  intro l s sid len flags f hb hl hsid hlen h
  have hbody := pesBody_mpeg2 hl hsid hlen h
  have hlow := low_of_hdrBearing hsid
  have ho : (mpeg2Scan s sid len flags f hb).o = s.cur.pos.toNat / 8 + (9 + hb.length) := by
    simp only [mpeg2Scan, pesScanStart]
    omega
  have hn : 9 + hb.length - 6 = 3 + hb.length := by omega
  rw [mpeg2Header_eq_append] at h
  refine ⟨fun hflags hfits hpacket => ?_, fun hbad => ?_⟩
  · rw [if_neg hflags, fitting_of_le hfits] at hbody
    rw [exec_pesRead_of_body h hlow hbody ho (by omega) (hn ▸ hpacket), pesLoaded, hn]
    rfl
  · by_cases hflags : f.extractLsb' 6 2 = 0b01
    · rw [if_pos hflags] at hbody
      exact exec_pesRead_of_body_error h hlow hbody
    · rw [if_neg hflags] at hbody
      by_cases hfits : optionalEnd f hb ≤ hb.length
      · rw [fitting_of_le hfits] at hbody
        have hshort := (hbad.resolve_left hflags).resolve_left (Nat.not_lt.2 hfits)
        exact exec_pesRead_of_short_packet h hlow hbody ho (by omega) (hn ▸ hshort)
      · rw [fitting_of_lt (Nat.not_le.1 hfits)] at hbody
        exact exec_pesRead_of_body_error h hlow hbody

end Sys2Proof.Machine
end

section
/-! What `PES_WRITE` wrote, read again (42_pes.md R206): its header is an MPEG-2 header whose optional area holds the
timestamps and nothing else. -/

namespace Sys2Proof.Machine

section RoundTrip

variable {p q : Pes} {i : Nat}

/-! ### The flags byte -/

theorem pesFlagsByte_pts (p : Pes) : (pesFlagsByte p).getLsbD 7 = emitsPts p := by
  unfold pesFlagsByte
  cases emitsPts p <;> cases emitsDts p <;> rfl

theorem pesFlagsByte_dts (p : Pes) : (pesFlagsByte p).getLsbD 6 = emitsDts p := by
  unfold pesFlagsByte
  cases emitsPts p <;> cases emitsDts p <;> rfl

theorem pesFlagsByte_low (p : Pes) (hi : i < 6) : (pesFlagsByte p).getLsbD i = false := by
  rw [pesFlagsByte, BitVec.getLsbD_append, if_pos hi, BitVec.getLsbD_zero]

theorem pesFlagsByte_not_forbidden (p : Pes) : (pesFlagsByte p).extractLsb' 6 2 ≠ 0b01 := by
  have htop : (pesFlagsByte p).extractLsb' 6 2 = BitVec.ofBool (emitsPts p) ++ BitVec.ofBool (emitsDts p) :=
    BitVec.extractLsb'_append_eq_left
  rw [htop]
  cases hd : emitsDts p with
  | false => cases emitsPts p <;> decide
  | true => rw [emitsPts_of_emitsDts hd]; decide

/-! ### The optional area -/

theorem slice_pesStamps_pts (h : emitsPts p = true) : slice (pesStamps p) 0 5 =
    tsField (if emitsDts p then 0b0011 else 0b0010) (wireStamp p.pts) := by
  rw [pesStamps, if_pos h]
  rfl

theorem slice_pesStamps_dts (h : emitsDts p = true) :
    slice (pesStamps p) 5 5 = tsField 0b0001 (wireStamp p.dts) := by
  rw [pesStamps, if_pos (emitsPts_of_emitsDts h), if_pos h, if_pos h]
  rfl

theorem stampWrong_tsField (x : BitVec 4) (v : BitVec 33) : stampWrong x (tsField x v) = false := by
  rw [← not_stampOk, stampOk, tsPrefix_tsField, tsMarkersOk_tsField, beq_self_eq_true]
  rfl

theorem optionalEnd_pesStamps (p : Pes) : optionalEnd (pesFlagsByte p) (pesStamps p) = pesOptLen p := by
  have hend : optionalEnd (pesFlagsByte p) (pesStamps p) =
      if emitsPts p then (if emitsDts p then 10 else 5) else 0 := by
    simp (disch := decide) only [optionalEnd, extensionAt, prevCrcAt, addCopyAt, trickAt, esRateAt, escrAt,
      pesFlagsByte_pts, pesFlagsByte_dts, pesFlagsByte_low, Bool.false_eq_true, if_false, Nat.add_zero]
  rw [hend, pesOptLen]
  cases hd : emitsDts p with
  | false => rfl
  | true => rw [emitsPts_of_emitsDts hd]; rfl

theorem optionalWrong_pesStamps (p : Pes) : optionalWrong (pesFlagsByte p) (pesStamps p) = false := by
  simp (disch := decide) only [optionalWrong, pesFlagsByte_pts, pesFlagsByte_dts, pesFlagsByte_low,
    Bool.false_and, Bool.or_false]
  cases hp : emitsPts p with
  | false => rfl
  | true =>
    rw [slice_pesStamps_pts hp, stampWrong_tsField]
    cases hd : emitsDts p with
    | false => rfl
    | true => rw [slice_pesStamps_dts hd, stampWrong_tsField]; rfl

theorem optionalRegs_pesStamps_pts (p q : Pes) : (optionalRegs (pesFlagsByte p) (pesStamps p) q).pts =
    if emitsPts p then stampOfWire (wireStamp p.pts) else noValue := by
  simp only [optionalRegs, pesFlagsByte_pts]
  cases hp : emitsPts p with
  | false => rfl
  | true => rw [slice_pesStamps_pts hp]; exact congrArg stampOfWire (tsValue_tsField ..)

theorem optionalRegs_pesStamps_dts (p q : Pes) : (optionalRegs (pesFlagsByte p) (pesStamps p) q).dts =
    if emitsPts p then stampOfWire (wireStamp (if emitsDts p then p.dts else p.pts)) else noValue := by
  simp only [optionalRegs, pesFlagsByte_pts, pesFlagsByte_dts]
  cases hp : emitsPts p with
  | false => rfl
  | true =>
    cases hd : emitsDts p with
    | false => rw [slice_pesStamps_pts hp]; exact congrArg stampOfWire (tsValue_tsField ..)
    | true => rw [slice_pesStamps_dts hd]; exact congrArg stampOfWire (tsValue_tsField ..)

/-! ### The timestamps restored -/

theorem stampOfWire_wireStamp {v : BitVec 64} (h : v.toNat < 2 ^ 33) : stampOfWire (wireStamp v) = v := by
  apply BitVec.eq_of_toNat_eq
  rw [stampOfWire, wireStamp, BitVec.toNat_setWidth, BitVec.toNat_setWidth, Nat.mod_eq_of_lt h,
    Nat.mod_eq_of_lt v.isLt]

theorem restored_pts (hpts : p.pts = noValue ∨ p.pts.toNat < 2 ^ 33) :
    (optionalRegs (pesFlagsByte p) (pesStamps p) q).pts = p.pts := by
  rw [optionalRegs_pesStamps_pts, emitsPts_eq_decide]
  by_cases habsent : p.pts = noValue
  · rw [if_neg (by simpa using habsent), habsent]
  · rw [if_pos (decide_eq_true habsent), stampOfWire_wireStamp (hpts.resolve_left habsent)]

theorem restored_dts (hpts : p.pts = noValue ∨ p.pts.toNat < 2 ^ 33)
    (hdts : p.dts = noValue ∨ p.dts.toNat < 2 ^ 33) (horder : p.dts ≠ noValue → p.pts ≠ noValue) :
    (optionalRegs (pesFlagsByte p) (pesStamps p) q).dts = if p.dts = noValue then p.pts else p.dts := by
  rw [optionalRegs_pesStamps_dts, emitsPts_eq_decide, emitsDts_eq_decide]
  simp only [decide_eq_true_eq]
  by_cases hp : p.pts = noValue
  · have hd : p.dts = noValue := Decidable.not_not.1 fun hne => horder hne hp
    rw [if_neg (not_not_intro hp), if_pos hd, hp]
  · rw [if_pos hp]
    have hpts := stampOfWire_wireStamp (hpts.resolve_left hp)
    by_cases hd : p.dts = noValue
    · rw [if_neg (fun h => h.2.1 hd), if_pos hd, hpts]
    · rw [if_neg hd]
      have hdts := stampOfWire_wireStamp (hdts.resolve_left hd)
      split
      · exact hdts
      · next hsame =>
        have heq : p.dts = p.pts := Decidable.not_not.1 fun hne => hsame ⟨hp, hd, hne⟩
        rw [heq, hpts]

/-! ### The command -/

theorem pesHeader_eq_mpeg2Header (p : Pes) (len : Nat) : pesHeader p len =
    mpeg2Header p.sid (BitVec.ofNat 16 len) p.flags (pesFlagsByte p) (pesStamps p) := by
  rw [mpeg2Header, pesStamps_length]
  rfl

theorem pesOptLen_le (p : Pes) : pesOptLen p ≤ 10 := by
  unfold pesOptLen
  split <;> split <;> decide

theorem pesPacketLen_fits {unb : Bool} {len : Nat} (h : pesPacketLen unb p = .ok len) :
    BitVec.ofNat 16 len = 0 ∨ 3 + pesOptLen p ≤ (BitVec.ofNat 16 len).toNat := by
  obtain ⟨-, rfl⟩ := pesPacketLen_eq_ok.1 h
  split
  · exact .inl rfl
  · next ho =>
    have hfits : 3 + pesOptLen p + p.payloadLen.toNat < 2 ^ 16 :=
      Nat.lt_succ_of_le (Nat.not_lt.1 fun h => ho (.inr h))
    rw [BitVec.toNat_ofNat, Nat.mod_eq_of_lt hfits]
    exact .inr (Nat.le_add_right ..)

/-- A command that ends with OK succeeded. -/
theorem ok_of_code_ok {i : Instr} {s t : State} (h : exec i s = .next t) (hok : t.status.code = .ok) :
    pseudocode i s = .ok t := by
  rcases exec_eq_next.1 h with hsucc | ⟨r, herr, rfl⟩
  · exact hsucc
  · obtain ⟨-, hcode, -⟩ := pseudocode_error herr
    exact absurd hok hcode

end RoundTrip

/-- Settles O46: the header written is an MPEG-2 header, whose reading gives the timestamps back. -/
theorem pesRoundTrip : Obligations.PesRoundTrip := by
  intro unb l s t r hl hwf hpts hdts hwrite hok h
  obtain ⟨hsid, -, horder, len, hlen, -, rfl⟩ := pesWrite_eq_ok.1 (ok_of_code_ok hwrite hok)
  have hbound := pesOptLen_le s.pes
  have hresult : (pesWritten s len).result.toNat = 9 + pesOptLen s.pes :=
    Nat.mod_eq_of_lt (by omega)
  rw [hresult, readBytes_pesWritten hwf, pesHeader_eq_mpeg2Header] at h
  have hread := (pesReadMpeg2 l r _ _ _ _ _ hl hsid (by rw [pesStamps_length]; omega) h).1
    (pesFlagsByte_not_forbidden _) (by rw [optionalEnd_pesStamps, pesStamps_length])
    (by rw [pesStamps_length]; exact pesPacketLen_fits hlen)
  refine ⟨_, hread, rfl, rfl, rfl, rfl, restored_pts hpts, restored_dts hpts hdts horder, ?_, ?_⟩
  · rw [pesStamps_length]
    rfl
  · rw [optionalWrong_pesStamps]
    exact Bool.or_false _

end Sys2Proof.Machine
end

section
/-! `PES_READ` of an MPEG-1 header (42_pes.md R204) and what it rejects (R200, R201, R204): the front of the header up
to its last part, then the timestamps or a byte that begins none. -/

namespace Sys2Proof.Machine

section Mpeg1

variable {l : Layout} {s : State} {p : PesScan} {sid y : Byte} {len : BitVec 16} {n o : Nat}
  {std : Option (Bool × BitVec 13)} {st : Mpeg1Stamps} {b c : List Byte}

/-! ### Stuffing and STD buffer -/

theorem ne_stuffing_of_top {t : BitVec 2} (h : y.extractLsb' 6 2 = t) (ht : t ≠ 0b11) : y ≠ 0xFF := by
  rintro rfl
  exact ht h.symm

/-- The stuffing ends at the first other byte. -/
theorem skipStuffing_eq (h : Ahead s o (List.replicate n 0xFF ++ y :: c)) (hy : y ≠ 0xFF) :
    skipStuffing s (s.cur.total - o) o 0 = .ok (o + n, n) := by
  have hroom := h.room
  have hright := h.right
  rw [List.length_append, List.length_replicate, List.length_cons] at hroom
  rw [List.length_replicate] at hright
  obtain ⟨fuel, hfuel⟩ : ∃ fuel, s.cur.total - o = n + (fuel + 1) := ⟨s.cur.total - o - n - 1, by omega⟩
  rw [hfuel, skipStuffing_replicate h.left, skipStuffing, hright.peek, ok_bind, if_neg hy, Nat.zero_add]

/-- STD_BUF as an MPEG-1 header loads it (42_pes.md R204). -/
def stdBufRegs : Option (Bool × BitVec 13) → StdBuf
  | none => {}
  | some (scale, size) => { valid := true, scale := scale, size := size }

theorem mpeg1StdBuf_some (scale : Bool) (size : BitVec 13)
    (h : Ahead s p.o (stdBufBytes (some (scale, size)))) :
    mpeg1StdBuf s p = .ok
      { p with o := p.o + 2, r := { p.r with stdBuf := { valid := true, scale := scale, size := size } } } := by
  obtain ⟨-, hscale, hsize⟩ := (extractLsb'_eq_append_append_iff 2 1 13).1
    (BitVec.extractLsb'_eq_self (x := 0b01#2 ++ BitVec.ofBool scale ++ size))
  have hbit : (0b01#2 ++ BitVec.ofBool scale ++ size).getLsbD 13 = scale := by
    rw [BitVec.getLsbD_append, if_neg (by decide), BitVec.getLsbD_append]
    cases scale <;> rfl
  refine (bind_eq_of_ok h.peek).trans <| (if_pos (stdBufBytes_firstByte scale size)).trans <|
    (bind_eq_of_ok (h.take rfl)).trans ?_
  simp only [stdBufBytes, field16_be16, hbit]
  rw [hsize]

theorem mpeg1StdBuf_none (h : Ahead s p.o (y :: c)) (hy : y.extractLsb' 6 2 ≠ 0b01) :
    mpeg1StdBuf s p = .ok p :=
  (bind_eq_of_ok h.peek).trans (if_neg hy)

/-- What the body has read when it comes to the last part of the header. -/
def mpeg1FrontScan (s : State) (sid : Byte) (len : BitVec 16) (n : Nat) (std : Option (Bool × BitVec 13)) :
    PesScan :=
  { o := (pesScanStart s sid len).o + n + (stdBufBytes std).length
    r := { sid := sid, pktLen := len, stdBuf := stdBufRegs std, payloadLen := s.pes.payloadLen }
    flag := decide (16 < n)
    mpeg1 := true }

theorem Reads.ahead_mpeg1Front (h : Reads s (mpeg1Front sid len n std ++ c)) :
    Ahead s (mpeg1FrontScan s sid len n std).o c := by
  have hright := h.ahead.right
  rw [mpeg1Front, List.length_append, List.length_append, List.length_replicate, ← Nat.add_assoc,
    ← Nat.add_assoc] at hright
  exact hright

theorem mpeg1Body_front
    (h : Ahead s (pesScanStart s sid len).o (List.replicate n 0xFF ++ (stdBufBytes std ++ y :: c)))
    (hy : std = none → y ≠ 0xFF ∧ y.extractLsb' 6 2 ≠ 0b01) :
    mpeg1Body s (pesScanStart s sid len) = mpeg1Stamps s (mpeg1FrontScan s sid len n std) := by
  have hrest := h.right
  rw [List.length_replicate] at hrest
  cases std with
  | none =>
    obtain ⟨hstuffing, hstd⟩ := hy rfl
    exact (bind_eq_of_ok (skipStuffing_eq h hstuffing)).trans (bind_eq_of_ok (mpeg1StdBuf_none hrest hstd))
  | some v =>
    obtain ⟨scale, size⟩ := v
    have hstuffing := ne_stuffing_of_top (stdBufBytes_firstByte scale size) (by decide)
    exact (bind_eq_of_ok (skipStuffing_eq h hstuffing)).trans
      (bind_eq_of_ok (mpeg1StdBuf_some scale size hrest.left))

/-! ### Timestamps -/

theorem Mpeg1Stamps.bytes_ne_nil (h : st.wf) : st.bytes ≠ [] := by
  have of_length {t : List Byte} (ht : t.length = 5) : t ≠ [] := List.ne_nil_of_length_eq_add_one ht
  cases st with
  | none => nofun
  | pts t => exact of_length h.1
  | both t u => exact List.append_ne_nil_of_left_ne_nil (of_length h.1) u

theorem mpeg1Stamps_eq (hst : st.wf) (h : Ahead s p.o st.bytes)
    (hr : p.r = { p.r with pts := noValue, dts := noValue, opt := 0 }) :
    mpeg1Stamps s p = .ok
      { p with
        o := p.o + st.bytes.length
        r := { p.r with pts := st.pts64, dts := st.dts64, opt := st.opt }
        flag := p.flag || st.wrong } := by
  cases st with
  | none =>
    refine (bind_eq_of_ok h.peek).trans <| (if_neg (by decide)).trans <| (if_neg (by decide)).trans <|
      (if_pos rfl).trans <| (bind_eq_of_ok (h.take rfl)).trans ?_
    simp only [Mpeg1Stamps.pts64, Mpeg1Stamps.dts64, Mpeg1Stamps.opt, Mpeg1Stamps.wrong, Bool.or_false]
    rw [← hr]
    rfl
  | pts t =>
    obtain ⟨hlen, hpre⟩ := hst
    obtain ⟨x, d, rfl⟩ := List.exists_cons_of_length_eq_add_one hlen
    refine (bind_eq_of_ok h.peek).trans <| (if_pos hpre).trans <| (bind_eq_of_ok (h.take hlen.symm)).trans ?_
    simp only [Mpeg1Stamps.bytes, hlen]
    rfl
  | both t u =>
    obtain ⟨hlen, hpre, hlen'⟩ := hst
    obtain ⟨x, d, rfl⟩ := List.exists_cons_of_length_eq_add_one hlen
    have hnibble : x.extractLsb' 4 4 = 0b0011 := hpre
    have hsecond := h.right
    rw [hlen] at hsecond
    refine (bind_eq_of_ok h.peek).trans <| (if_neg (by rw [hnibble]; decide)).trans <| (if_pos hpre).trans <|
      (bind_eq_of_ok (h.left.take hlen.symm)).trans <| (bind_eq_of_ok (hsecond.take hlen'.symm)).trans ?_
    simp only [Mpeg1Stamps.bytes, List.length_append, hlen, hlen', not_stampOk, Bool.or_assoc,
      Bool.or_comm (stampWrong _ _)]
    rfl

theorem mpeg1Stamps_rejects (h : Ahead s p.o (y :: c)) (hnone : y ≠ 0x0F)
    (hpts : y.extractLsb' 4 4 ≠ 0b0010) (hboth : y.extractLsb' 4 4 ≠ 0b0011) :
    mpeg1Stamps s p = .error .invalidData :=
  (bind_eq_of_ok h.peek).trans <| (if_neg hpts).trans <| (if_neg hboth).trans (if_neg hnone)

/-! ### The body -/

theorem mpeg1Front_append (sid : Byte) (len : BitVec 16) (n : Nat) (std : Option (Bool × BitVec 13))
    (c : List Byte) : mpeg1Front sid len n std ++ c =
      pesStart sid len ++ (List.replicate n 0xFF ++ (stdBufBytes std ++ c)) := by
  simp only [mpeg1Front, List.append_assoc]

theorem pesBody_eq_mpeg1Body (hsid : noHdr p.r.sid = false) (h : Ahead s p.o c) (hc : 0 < c.length)
    (hl : l = .mpeg1 ∨ (l = .auto ∧ (byteAt c 0).extractLsb' 6 2 ≠ 0b10)) :
    pesBody l s p = mpeg1Body s p := by
  unfold pesBody
  rw [hsid, if_neg Bool.false_ne_true]
  rcases hl with rfl | ⟨rfl, htop⟩
  · rfl
  · obtain ⟨x, d, rfl⟩ := List.exists_cons_of_length_pos hc
    exact (bind_eq_of_ok h.peek).trans (if_neg htop)

/-- The body up to the last part, in the layout forced or detected at byte 6. -/
theorem pesBody_mpeg1_front (h : Reads s b) (hb : b = mpeg1Front sid len n std ++ y :: c)
    (hsid : hdrBearing sid = true) (hl : l = .mpeg1 ∨ (l = .auto ∧ (byteAt b 6).extractLsb' 6 2 ≠ 0b10))
    (hy : std = none → y ≠ 0xFF ∧ y.extractLsb' 6 2 ≠ 0b01) :
    pesBody l s (pesScanStart s sid len) = mpeg1Stamps s (mpeg1FrontScan s sid len n std) := by
  rw [mpeg1Front_append] at hb
  subst hb
  have hahead := h.ahead_body
  have hne : 0 < (List.replicate n 0xFF ++ (stdBufBytes std ++ y :: c)).length := by
    simp only [List.length_append, List.length_cons]
    omega
  rw [pesBody_eq_mpeg1Body (noHdr_of_hdrBearing hsid) hahead hne hl]
  exact mpeg1Body_front hahead hy

/-- What the body makes of a whole MPEG-1 header (42_pes.md R204). -/
def mpeg1Scan (s : State) (sid : Byte) (len : BitVec 16) (n : Nat) (std : Option (Bool × BitVec 13))
    (st : Mpeg1Stamps) : PesScan :=
  { o := (mpeg1FrontScan s sid len n std).o + st.bytes.length
    r := { (mpeg1FrontScan s sid len n std).r with pts := st.pts64, dts := st.dts64, opt := st.opt }
    flag := decide (16 < n) || st.wrong
    mpeg1 := true }

theorem mpeg1Header_length (sid : Byte) (len : BitVec 16) (n : Nat) (std : Option (Bool × BitVec 13))
    (st : Mpeg1Stamps) : (mpeg1Header sid len n std st).length =
      6 + n + (stdBufBytes std).length + st.bytes.length := by
  simp only [mpeg1Header, mpeg1Front, List.length_append, List.length_replicate]
  rfl

theorem mpeg1Scan_o (s : State) (sid : Byte) (len : BitVec 16) (n : Nat) (std : Option (Bool × BitVec 13))
    (st : Mpeg1Stamps) : (mpeg1Scan s sid len n std st).o =
      s.cur.pos.toNat / 8 + (mpeg1Header sid len n std st).length := by
  rw [mpeg1Header_length]
  simp only [mpeg1Scan, mpeg1FrontScan, pesScanStart]
  omega

/-- The timestamps begin with neither stuffing nor an STD buffer, so the front ends before them. -/
theorem pesBody_mpeg1 (hl : l ≠ .mpeg2) (hsid : hdrBearing sid = true) (hst : st.wf)
    (h : Reads s (mpeg1Header sid len n std st)) :
    pesBody l s (pesScanStart s sid len) = .ok (mpeg1Scan s sid len n std st) := by
  obtain ⟨y, c, hbytes⟩ := List.exists_cons_of_ne_nil (Mpeg1Stamps.bytes_ne_nil hst)
  have htop : y.extractLsb' 6 2 = 0b00 := by
    have hfirst := Mpeg1Stamps.firstByte hst
    rwa [hbytes] at hfirst
  have hlayout : l = .mpeg1 ∨
      (l = .auto ∧ (byteAt (mpeg1Header sid len n std st) 6).extractLsb' 6 2 ≠ 0b10) := by
    rw [mpeg1Header_eq_append]
    cases l with
    | mpeg2 => exact absurd rfl hl
    | mpeg1 => exact .inl rfl
    | auto => exact .inr ⟨rfl, mpeg1_firstByte hst⟩
  have hfront := pesBody_mpeg1_front h (by rw [mpeg1Header, hbytes]) hsid hlayout fun _ =>
    ⟨ne_stuffing_of_top htop (by decide), by rw [htop]; decide⟩
  exact hfront.trans (mpeg1Stamps_eq hst (Reads.ahead_mpeg1Front h) rfl)

end Mpeg1

/-- Settles O44: the body's answer, then the check of the packet length. -/
theorem pesReadMpeg1 : Obligations.PesReadMpeg1 := by
  intro l s sid len n std st b hl hsid hst hb h _
  subst hb
  have hbody := pesBody_mpeg1 hl hsid hst h
  have hlow := low_of_hdrBearing hsid
  have ho := mpeg1Scan_o s sid len n std st
  have hn : 6 ≤ (mpeg1Header sid len n std st).length := by
    rw [mpeg1Header_length]
    omega
  have hreads := h
  rw [mpeg1Header_eq_append] at hreads
  refine ⟨fun hfits => ?_, exec_pesRead_of_short_packet hreads hlow hbody ho hn⟩
  rw [exec_pesRead_of_body hreads hlow hbody ho hn hfits, pesLoaded, Bool.or_assoc]
  rfl

/-! ### Rejections -/

theorem take_three_eq {b : List Byte} (h : 3 ≤ b.length) : b.take 3 = [byteAt b 0, byteAt b 1, byteAt b 2] := by
  obtain ⟨x, y, z, hxyz⟩ := List.length_eq_three.1 (List.length_take_of_le h)
  rw [← byteAt_take (show 0 < 3 by decide), ← byteAt_take (show 1 < 3 by decide),
    ← byteAt_take (show 2 < 3 by decide), hxyz]
  rfl

/-- Settles O45: each check on a byte of the header fails where the bytes before it are good. -/
theorem pesReadRejects : Obligations.PesReadRejects := by
  intro l s b h
  refine ⟨fun hlen hbad => ?_, fun hlen hstart hsid hl htop => ?_,
    fun sid len n std y hb hsid hl hy hnone hpts hboth => ?_⟩
  · refine exec_of_plain_error <| bind_error_of_ok h.prologue <| bind_error_of_ok (h.ahead.take hlen.symm) <|
      check_bind_error_self.2 <| hbad.imp (fun hstart ⟨h0, h1, h2⟩ => hstart ?_) fun hlow =>
      bind_error_of_error (check_of_not (Nat.not_le.2 hlow) _)
    rw [take_three_eq (by omega), h0, h1, h2]
  · subst hl
    refine exec_of_plain_error <| pesRead_of_body_error h (by omega) hstart hsid fun p _ hahead hhdr => ?_
    have hbytes : take s p.o 3 = .ok (b.drop 6) := hahead.take (by rw [List.length_drop, hlen])
    rw [pesBody_eq_mpeg2Body hhdr hahead (by rw [List.length_drop, hlen]; decide) (.inl rfl)]
    refine bind_error_of_ok hbytes <| bind_error_of_error (check_of_not ?_ _)
    rwa [byteAt_drop]
  · have hbody := (pesBody_mpeg1_front h hb hsid hl hy).trans
      (mpeg1Stamps_rejects (c := []) (hb ▸ h).ahead_mpeg1Front hnone hpts hboth)
    rw [hb, mpeg1Front_append] at h
    exact exec_pesRead_of_body_error h (low_of_hdrBearing hsid) hbody

end Sys2Proof.Machine
end

section
/-! The staging tables' own commands (43_psi.md R220 to R222): the full next state of each, and its failures. -/

namespace Sys2Proof.Machine

/-! ### COUNT -/

section Count

variable {s : State} {tb : Table} {k : BitVec 16} {e : Ent}

/-- COUNT as a register shows it. -/
theorem toNat_countWord (c : BitVec 16) : (c.setWidth 32).toNat = c.toNat :=
  BitVec.toNat_setWidth_of_le (by decide)

theorem countWord_eq_ofNat (n : Nat) : (countReg n).setWidth 32 = BitVec.ofNat 32 (n % 2 ^ 16) := by
  rw [countReg, ← BitVec.ofNat_toNat, BitVec.toNat_ofNat]

/-! ### Adding and getting entries -/

theorem exec_tblAdd (h : (s.count tb).toNat ≠ s.cap tb) :
    exec (.tblAdd tb) s = .next ((s.addEntry tb).done 0 (((s.addEntry tb).count tb).setWidth 32)) :=
  exec_of_ok (tblAdd_eq_ok.2 ⟨h, rfl⟩)

theorem exec_tblAdd_full (h : (s.count tb).toNat = s.cap tb) :
    exec (.tblAdd tb) s = .next (s.failed .invalidArgument) :=
  exec_of_plain_error (tblAdd_eq_error.2 ⟨h, rfl⟩)

theorem exec_tblGet (h : s.entryAt tb k.toNat = some e) :
    exec (.tblGet tb k) s = .next (State.done { s with ent := e } 0 ((s.count tb).setWidth 32)) :=
  exec_of_ok (tblGet_eq_ok.2 ⟨e, h, rfl⟩)

theorem exec_tblGet_past (h : s.entryAt tb k.toNat = none) :
    exec (.tblGet tb k) s = .next (s.failed .invalidArgument) :=
  exec_of_plain_error (tblGet_eq_error.2 ⟨h, rfl⟩)

/-- The entries of a list that COUNT names. -/
theorem getElem?_map_counted {α : Type} {l : List α} {c i : Nat} {x : α} (f : α → Ent) (hi : i < c)
    (hx : l[i]? = some x) : (l.take c)[i]?.map f = some (f x) := by
  rw [List.getElem?_take_of_lt hi, hx, Option.map_some]

theorem getElem?_map_uncounted {α : Type} {l : List α} {c i : Nat} (f : α → Ent) (hi : c ≤ i) :
    (l.take c)[i]?.map f = none := by
  rw [List.getElem?_take_eq_none hi, Option.map_none]

end Count

/-- Settles O47: the model's `TBL_CLEAR` of each table, its record update written out. -/
theorem tblClearResult : Obligations.TblClearResult := fun _ => ⟨rfl, rfl, rfl⟩

/-- Settles O48: COUNT, a view of the list's length, is compared with the capacity; RESULT is COUNT of the list one
longer. -/
theorem tblAddResult : Obligations.TblAddResult := by
  intro s
  simp only [State.readReg, toNat_countWord, ← countWord_eq_ofNat,
    ← BitVec.setWidth_eq_extractLsb' (show 8 ≤ 16 by decide),
    ← BitVec.setWidth_eq_extractLsb' (show 8 ≤ 13 by decide)]
  refine ⟨fun h => ?_, exec_tblAdd_full, fun h => ?_, exec_tblAdd_full, fun h => ?_, exec_tblAdd_full⟩
  all_goals
    rw [exec_tblAdd h]
    simp only [State.addEntry, State.count, List.length_append, List.length_singleton]
    rfl

/-- Settles O49: the entries below COUNT are those of the list, and there is none at COUNT or past it. -/
theorem tblGetResult : Obligations.TblGetResult := by
  intro s k
  simp only [State.readReg, toNat_countWord]
  exact ⟨fun _ hk he => exec_tblGet (s := s) (tb := .pat) (getElem?_map_counted PatEntry.ent hk he),
    fun hk => exec_tblGet_past (tb := .pat) (getElem?_map_uncounted PatEntry.ent hk),
    fun _ hk he => exec_tblGet (s := s) (tb := .pmt) (getElem?_map_counted PmtEntry.ent hk he),
    fun hk => exec_tblGet_past (tb := .pmt) (getElem?_map_uncounted PmtEntry.ent hk),
    fun _ hk he => exec_tblGet (s := s) (tb := .psm) (getElem?_map_counted PsmEntry.ent hk he),
    fun hk => exec_tblGet_past (tb := .psm) (getElem?_map_uncounted PsmEntry.ent hk)⟩

end Sys2Proof.Machine
end

section
/-! The section writers (43_psi.md R230 to R237): the bytes each builds, in the words of its rule, and the full next
state and the failures of each. -/

namespace Sys2Proof.Machine

/-! ### Bytes of fields -/

section Fields

variable {m : Nat}

theorem reservedB_append (x : BitVec 4) : 0b1011#4 ++ x = 0xB0 ||| x.setWidth 8 := by
  revert x
  decide

theorem reservedF_append (x : BitVec 4) : 0b1111#4 ++ x = 0xF0 ||| x.setWidth 8 := by
  revert x
  decide

theorem reservedE_append (x : BitVec 5) : 0b111#3 ++ x = 0xE0 ||| x.setWidth 8 := by
  revert x
  decide

theorem versionByte_eq_or (ver : BitVec 5) : versionByte ver = 0xC1 ||| (ver.setWidth 8 <<< 1) := by
  revert ver
  decide

/-- Byte 6 of a PSM: current_next_indicator 1, single_extension_stream_flag, a reserved 1 and the version
(30_encoding.md R112). -/
def psmFlags (ver : BitVec 5) (sext : Bool) : Byte := 1#1 ++ BitVec.ofBool sext ++ 1#1 ++ ver

theorem psmFlags_eq_or (ver : BitVec 5) (sext : Bool) : psmFlags ver sext =
    0x80 ||| (if sext then 0x40 else 0x00) ||| 0x20 ||| ver.setWidth 8 := by
  revert ver sext
  decide

theorem be13_eq_or (x : BitVec 13) :
    be13 x = [0xE0 ||| (x.extractLsb' 8 5).setWidth 8, x.extractLsb' 0 8] := by
  rw [be13, reservedE_append]

theorem be12B_eq_or (x : BitVec 12) :
    be12 0b1011 x = [0xB0 ||| (x.extractLsb' 8 4).setWidth 8, x.extractLsb' 0 8] := by
  rw [← reservedB_append]
  rfl

/-- A field of the number a register holds is that field of the register. -/
theorem extractLsb'_ofNat_toNat {k lo n : Nat} (w : BitVec m) (h : lo + n ≤ k) :
    (BitVec.ofNat k w.toNat).extractLsb' lo n = w.extractLsb' lo n := by
  rw [BitVec.ofNat_toNat, BitVec.extractLsb'_setWidth_of_le h]

/-- The low 12 bits of a length register. -/
theorem be12F_length (w : Word) : be12 0b1111 (BitVec.ofNat 12 w.toNat) =
    [0xF0 ||| (w.extractLsb' 8 4).setWidth 8, w.extractLsb' 0 8] := by
  rw [← reservedF_append, ← extractLsb'_ofNat_toNat (k := 12) w (by decide),
    ← extractLsb'_ofNat_toNat (k := 12) w (lo := 0) (by decide)]
  rfl

end Fields

/-! ### The lists of the tables -/

section Lists

variable {s : State}

theorem patList_eq (h : s.pat.entries.length < 2 ^ 16) : s.patList = s.pat.entries :=
  List.take_of_length_le (Nat.mod_eq_of_lt h).ge

theorem pmtList_eq (h : s.pmt.entries.length < 2 ^ 16) : s.pmtList = s.pmt.entries :=
  List.take_of_length_le (Nat.mod_eq_of_lt h).ge

theorem psmList_eq (h : s.psm.entries.length < 2 ^ 16) : s.psmList = s.psm.entries :=
  List.take_of_length_le (Nat.mod_eq_of_lt h).ge

end Lists

/-! ### The sections -/

section Bodies

/-- `S` of a PAT, byte by byte (43_psi.md R233). -/
theorem patSection_bytes (tsid : BitVec 16) (ver : BitVec 5) (es : List PatEntry) {sl : BitVec 12}
    (hsl : sl = BitVec.ofNat 12 (9 + 4 * es.length)) :
    patSection tsid ver es =
      [0x00, 0xB0 ||| (sl.extractLsb' 8 4).setWidth 8, sl.extractLsb' 0 8] ++
        be16 tsid ++ [0xC1 ||| (ver.setWidth 8 <<< 1), 0x00, 0x00] ++
        (es.map fun e => be16 e.program ++
          [0xE0 ||| (e.pid.extractLsb' 8 5).setWidth 8, e.pid.extractLsb' 0 8]).flatten := by
  subst hsl
  simp only [patSection, patLength, be12B_eq_or, be13_eq_or, versionByte_eq_or, List.flatMap_def]
  rfl

variable (s : State)

/-- The PMT's `S` (43_psi.md R235), its descriptor bytes as memory holds them. -/
def State.pmtBody : List Byte :=
  pmtSection s.pmt.prog s.pmt.ver s.pmt.pcrPid
    (s.mem.readBytes s.pmt.pinfoAddr.toNat s.pmt.pinfoLen.toNat) (s.pmt.entries.map s.pmtData)

/-- The PSM's `S` (43_psi.md R237), its descriptor bytes as memory holds them. -/
def State.psmBody : List Byte :=
  psmSection s.psm.ver s.psm.sext
    (s.mem.readBytes s.psm.pinfoAddr.toNat s.psm.pinfoLen.toNat) (s.psm.entries.map s.psmData)

/-- `SL` of the PMT (43_psi.md R235). -/
def State.pmtSize : Nat := pmtLength s.pmt.pinfoLen.toNat (s.pmt.entries.map (·.esLen.toNat))

/-- `PSML` of the PSM (43_psi.md R237). -/
def State.psmSize : Nat := psmLength s.psm.pinfoLen.toNat (s.psm.entries.map (·.esLen.toNat))

theorem pmtData_infoLengths (l : List PmtEntry) :
    (l.map s.pmtData).map (·.info.length) = l.map (·.esLen.toNat) := by
  simp only [List.map_map, Function.comp_def, State.pmtData, Memory.readBytes_length]

theorem psmData_infoLengths (l : List PsmEntry) :
    (l.map s.psmData).map (·.info.length) = l.map (·.esLen.toNat) := by
  simp only [List.map_map, Function.comp_def, State.psmData, Memory.readBytes_length]

theorem pmtSize_eq : s.pmtSize = pmtLength (s.mem.readBytes s.pmt.pinfoAddr.toNat s.pmt.pinfoLen.toNat).length
    ((s.pmt.entries.map s.pmtData).map (·.info.length)) := by
  rw [pmtData_infoLengths, Memory.readBytes_length, State.pmtSize]

theorem psmSize_eq : s.psmSize = psmLength (s.mem.readBytes s.psm.pinfoAddr.toNat s.psm.pinfoLen.toNat).length
    ((s.psm.entries.map s.psmData).map (·.info.length)) := by
  rw [psmData_infoLengths, Memory.readBytes_length, State.psmSize]

theorem pmtBody_length : s.pmtBody.length + 1 = s.pmtSize := by
  rw [State.pmtBody, pmtSection_length, pmtSize_eq]

theorem psmBody_length : s.psmBody.length = 2 + s.psmSize := by
  rw [State.psmBody, psmSection_length, psmSize_eq]

/-- `S` of the PMT, byte by byte (43_psi.md R235). -/
theorem pmtBody_bytes {sl : BitVec 12} (hsl : sl = BitVec.ofNat 12 s.pmtSize) :
    s.pmtBody =
      [0x02, 0xB0 ||| (sl.extractLsb' 8 4).setWidth 8, sl.extractLsb' 0 8] ++
        be16 s.pmt.prog ++ [0xC1 ||| (s.pmt.ver.setWidth 8 <<< 1), 0x00, 0x00] ++
        [0xE0 ||| (s.pmt.pcrPid.extractLsb' 8 5).setWidth 8, s.pmt.pcrPid.extractLsb' 0 8] ++
        [0xF0 ||| (s.pmt.pinfoLen.extractLsb' 8 4).setWidth 8, s.pmt.pinfoLen.extractLsb' 0 8] ++
        s.mem.readBytes s.pmt.pinfoAddr.toNat s.pmt.pinfoLen.toNat ++
        (s.pmt.entries.map fun e =>
          [e.streamType, 0xE0 ||| (e.pid.extractLsb' 8 5).setWidth 8, e.pid.extractLsb' 0 8,
            0xF0 ||| (e.esLen.extractLsb' 8 4).setWidth 8, e.esLen.extractLsb' 0 8] ++
          s.mem.readBytes e.esAddr.toNat e.esLen.toNat).flatten := by
  subst hsl
  rw [State.pmtBody, pmtSection, pmtData_infoLengths]
  simp only [List.flatMap_def, List.map_map, Function.comp_def, State.pmtData, Memory.readBytes_length,
    be12B_eq_or, be12F_length, be13_eq_or, versionByte_eq_or]
  rfl

/-- `S` of the PSM, byte by byte (43_psi.md R237). -/
theorem psmBody_bytes {esml : Nat} (hesml : esml = (s.psm.entries.map fun e => 4 + e.esLen.toNat).sum) :
    s.psmBody =
      [0x00, 0x00, 0x01, 0xBC] ++ be16 (BitVec.ofNat 16 s.psmSize) ++
        [0x80 ||| (if s.psm.sext then 0x40 else 0x00) ||| 0x20 ||| s.psm.ver.setWidth 8, 0xFF] ++
        be16 (s.psm.pinfoLen.extractLsb' 0 16) ++
        s.mem.readBytes s.psm.pinfoAddr.toNat s.psm.pinfoLen.toNat ++
        be16 (BitVec.ofNat 16 esml) ++
        (s.psm.entries.map fun e =>
          [e.streamType, e.streamId] ++ be16 (e.esLen.extractLsb' 0 16) ++
            s.mem.readBytes e.esAddr.toNat e.esLen.toNat).flatten := by
  subst hesml
  rw [State.psmBody, psmSection, psmData_infoLengths, ← psmFlags, psmFlags_eq_or]
  simp only [List.flatMap_def, List.map_map, Function.comp_def, State.psmData, Memory.readBytes_length,
    psmMapLength, BitVec.ofNat_toNat, BitVec.setWidth_eq_extractLsb' (show 16 ≤ 32 by decide)]
  rfl

end Bodies

/-! ### What a writer leaves -/

section Written

variable {i : Instr} {s : State} {n : Nat} {b : List Byte}

/-- The command wrote the section `b` with its trailer, `n` bytes in all, and nothing else but its results
(43_psi.md R230). -/
def WritesSection (i : Instr) (s : State) (n : Nat) (b : List Byte) : Prop :=
  ∃ m, exec i s = .next
      { s with
        mem := m
        result := BitVec.ofNat 32 n
        resultHi := crc32 0xFFFFFFFF b
        status := s.okStatus } ∧
    m.readBytes s.dstAddr.toNat n = b ++ be32 (crc32 0xFFFFFFFF b) ∧
    ∀ a, a < s.dstAddr.toNat ∨ s.dstAddr.toNat + n ≤ a → m.read a = s.mem.read a

theorem writesSection_of_ok (h : pseudocode i s = .ok (emitSection s b)) (hwf : s.mem.wf = true)
    (hn : b.length + 4 = n) : WritesSection i s n b := by
  subst hn
  rw [← sealed_length]
  exact ⟨_, (sealed_length b).symm ▸ exec_of_ok h, Memory.readBytes_writeBytes hwf _ (sealed b),
    fun _ => Memory.read_writeBytes_outside s.mem (sealed b)⟩

/-- A writer with descriptor ranges: the window, the program-info range and the streams' ranges are checked, then the
section's length and the room for it (43_psi.md R230, R231). -/
def writeSection (s : State) (info streams fits room : Prop) [Decidable info] [Decidable streams]
    [Decidable fits] [Decidable room] (b : List Byte) : Except Raise State := do
  check (WindowInMem s) .invalidArgument
  check info .invalidArgument
  check streams .invalidArgument
  check fits .invalidArgument
  check room .outOfMemory
  .ok (emitSection s b)

theorem pmtWrite_eq (h : s.pmt.entries.length < 2 ^ 16) :
    pmtWrite s = writeSection s (RangeOk s s.pmt.pinfoAddr s.pmt.pinfoLen)
      (∀ e ∈ s.pmt.entries, RangeOk s e.esAddr e.esLen) (s.pmtSize ≤ 1021)
      (3 + s.pmtSize ≤ s.dstCap.toNat) s.pmtBody := by
  unfold pmtWrite
  rw [pmtList_eq h]
  rfl

theorem psmWrite_eq (h : s.psm.entries.length < 2 ^ 16) :
    psmWrite s = writeSection s (RangeOk s s.psm.pinfoAddr s.psm.pinfoLen)
      (∀ e ∈ s.psm.entries, RangeOk s e.esAddr e.esLen) (s.psmSize ≤ 1018)
      (6 + s.psmSize ≤ s.dstCap.toNat) s.psmBody := by
  unfold psmWrite
  rw [psmList_eq h]
  rfl

section Checks

variable {info streams fits room : Prop} [Decidable info] [Decidable streams] [Decidable fits] [Decidable room]

theorem writeSection_of (hw : WindowInMem s) (hi : info) (hs : streams) (hf : fits) (hr : room) :
    writeSection s info streams fits room b = .ok (emitSection s b) :=
  (bind_eq_of_ok (check_of hw _)).trans <| (bind_eq_of_ok (check_of hi _)).trans <|
    (bind_eq_of_ok (check_of hs _)).trans <| (bind_eq_of_ok (check_of hf _)).trans <|
    bind_eq_of_ok (check_of hr _)

theorem writeSection_ok {t : State} (h : writeSection s info streams fits room b = .ok t) :
    fits ∧ room ∧ t = emitSection s b := by
  simp only [writeSection, check_bind_eq_ok, Except.ok.injEq] at h
  obtain ⟨-, -, -, hf, hr, rfl⟩ := h
  exact ⟨hf, hr, rfl⟩

theorem writeSection_invalid (h : ¬ WindowInMem s ∨ ¬ info ∨ ¬ streams ∨ ¬ fits) :
    writeSection s info streams fits room b = .error .invalidArgument :=
  check_bind_error_self.2 <| h.imp_right fun h => check_bind_error_self.2 <| h.imp_right fun h =>
    check_bind_error_self.2 <| h.imp_right fun h => check_bind_error_self.2 (.inl h)

theorem writeSection_no_room (hw : WindowInMem s) (hi : info) (hs : streams) (hf : fits) (hr : ¬ room) :
    writeSection s info streams fits room b = .error .outOfMemory :=
  bind_error_of_ok (check_of hw _) <| bind_error_of_ok (check_of hi _) <|
    bind_error_of_ok (check_of hs _) <| bind_error_of_ok (check_of hf _) <|
    check_bind_error_self.2 (.inl hr)

end Checks

end Written

/-- Settles O50: the checks in their order; the bytes of the section, which read back. -/
theorem patWriteResult : Obligations.PatWriteResult := by
  rintro s _ sl body rfl hlt hsl hbody
  have hcount : (s.count .pat).toNat = s.pat.entries.length := Nat.mod_eq_of_lt hlt
  rw [← patSection_bytes s.pat.tsid s.pat.ver s.pat.entries hsl] at hbody
  subst hbody
  refine ⟨fun hwf hw hsize hcap => ?_, fun hbad => exec_of_plain_error ?_,
    fun hw hsize hcap => exec_of_plain_error ?_⟩
  · refine writesSection_of_ok (patWrite_eq_ok.2 ⟨hw, ?_, ?_, by rw [patList_eq hlt]⟩) hwf
      (by rw [patSection_length]; omega)
    · rwa [hcount]
    · rw [hcount, patLength]; omega
  · refine check_bind_error_self.2 <| hbad.imp_right fun hsize => check_bind_error_self.2 (.inl ?_)
    rwa [hcount, Nat.not_le]
  · refine bind_error_of_ok (check_of hw _) <| bind_error_of_ok (check_of (by rwa [hcount]) _) <|
      check_bind_error_self.2 (.inl ?_)
    rw [hcount, patLength]; omega

/-- Settles O51: the checks in their order; the bytes of the section, which read back. -/
theorem pmtWriteResult : Obligations.PmtWriteResult := by
  intro s size sl body hlt hsize hsl hbody
  have hpm : size = s.pmtSize := by
    rw [hsize, State.pmtSize, pmtLength, List.map_map]
    rfl
  subst hpm
  rw [← pmtBody_bytes s hsl] at hbody
  subst hbody
  have hlen := pmtBody_length s
  refine ⟨fun hwf hw hi hs hf hr => ?_, fun hbad => exec_of_plain_error ?_,
    fun hw hi hs hf hr => exec_of_plain_error ?_⟩
  · exact writesSection_of_ok ((pmtWrite_eq hlt).trans (writeSection_of hw hi hs hf hr)) hwf (by omega)
  · refine (pmtWrite_eq hlt).trans (writeSection_invalid ?_)
    simpa only [not_forall, exists_prop, Nat.not_le] using hbad
  · exact (pmtWrite_eq hlt).trans (writeSection_no_room hw hi hs hf (Nat.not_le.2 hr))

/-- Settles O52: the checks in their order; the bytes of the map, which read back. -/
theorem psmWriteResult : Obligations.PsmWriteResult := by
  intro s esml size body hlt hesml hsize hbody
  have hps : size = s.psmSize := by
    rw [hsize, hesml, State.psmSize, psmLength, psmMapLength, List.map_map]
    rfl
  subst hps
  rw [← psmBody_bytes s hesml] at hbody
  subst hbody
  have hlen := psmBody_length s
  refine ⟨fun hwf hw hi hs hf hr => ?_, fun hbad => exec_of_plain_error ?_,
    fun hw hi hs hf hr => exec_of_plain_error ?_⟩
  · exact writesSection_of_ok ((psmWrite_eq hlt).trans (writeSection_of hw hi hs hf hr)) hwf (by omega)
  · refine (psmWrite_eq hlt).trans (writeSection_invalid ?_)
    simpa only [not_forall, exists_prop, Nat.not_le] using hbad
  · exact (psmWrite_eq hlt).trans (writeSection_no_room hw hi hs hf (Nat.not_le.2 hr))

end Sys2Proof.Machine
end

section
/-! The section readers (43_psi.md R240 to R252, R256): the full next state of each on a good section, and what each
rejects. -/

namespace Sys2Proof.Machine

/-! ### The arena -/

section Arena

variable {n : Nat} {s : State} {b info : List Byte} {items : List (EsItem n)}

theorem arenaBytes_eq (b info : List Byte) (items : List (EsItem n)) :
    arenaBytes b info items = info ++ (items.map fun e => slice b e.offset e.len).flatten := by
  rw [arenaBytes, List.flatMap_def]

/-- The arena's bytes read back, and every byte outside them reads as before (43_psi.md R247). -/
theorem arena_written {used : Nat} (hwf : s.mem.wf = true) (hlen : (arenaBytes b info items).length = used) :
    (s.mem.writeBytes s.dstAddr.toNat (arenaBytes b info items)).readBytes s.dstAddr.toNat used =
        info ++ (items.map fun e => slice b e.offset e.len).flatten ∧
      ∀ a, a < s.dstAddr.toNat ∨ s.dstAddr.toNat + used ≤ a →
        (s.mem.writeBytes s.dstAddr.toNat (arenaBytes b info items)).read a = s.mem.read a := by
  subst hlen
  exact ⟨(Memory.readBytes_writeBytes hwf _ _).trans (arenaBytes_eq ..),
    fun _ => Memory.read_writeBytes_outside s.mem _⟩

theorem arenaBytes_length {i pi : Nat} (hpi : i + pi ≤ b.length)
    (hflat : (items.flatMap fun e => slice b e.offset e.len).length = esTotal items) :
    (arenaBytes b (slice b i pi) items).length = pi + esTotal items := by
  rw [arenaBytes, List.length_append, slice_length hpi, hflat]

/-- An entry of the rebuilt list, from the item it comes from. -/
theorem pmtArenaEntries_entry {items : List (EsItem 13)} {a i : Nat} {x : EsItem 13} {e : PmtEntry}
    (hx : items[i]? = some x) (he : (pmtArenaEntries a items)[i]? = some e) :
    e = { streamType := x.streamType, pid := x.id
          esAddr := BitVec.ofNat 32 (a + esTotal (items.take i)), esLen := BitVec.ofNat 32 x.len } := by
  rw [pmtArenaEntries_getElem?, hx] at he
  exact (Option.some.inj he).symm

theorem psmArenaEntries_entry {items : List (EsItem 8)} {a i : Nat} {x : EsItem 8} {e : PsmEntry}
    (hx : items[i]? = some x) (he : (psmArenaEntries a items)[i]? = some e) :
    e = { streamType := x.streamType, streamId := x.id
          esAddr := BitVec.ofNat 32 (a + esTotal (items.take i)), esLen := BitVec.ofNat 32 x.len } := by
  rw [psmArenaEntries_getElem?, hx] at he
  exact (Option.some.inj he).symm

end Arena

/-! ### Good sections -/

theorem patEntryOf_of_getElem? {b : List Byte} {n i : Nat} {e : PatEntry}
    (h : ((List.range n).map (patEntryOf b))[i]? = some e) : e = patEntryOf b i := by
  rw [List.getElem?_map, Option.map_eq_some_iff] at h
  obtain ⟨j, hj, rfl⟩ := h
  rw [List.getElem?_eq_some_iff] at hj
  obtain ⟨hlt, rfl⟩ := hj
  rw [List.getElem_range]

/-- Settles O53: the three answers of a `PAT_READ` past its CRC check. -/
theorem patReadResult : Obligations.PatReadResult := by
  rintro s b _ same h hb rfl hsame
  obtain rfl := propext hsame
  have hread := patRead_of h hb
  refine ⟨fun hs => exec_of_ok ?_, fun hs hc => ?_, fun hs hc => exec_of_plain_error ?_⟩
  · exact hread.trans (if_pos hs)
  · refine ⟨_, exec_of_ok (hread.trans ((if_neg hs).trans (if_pos hc))), ?_, fun i e he => ?_⟩
    · rw [List.length_map, List.length_range]
    · obtain rfl := patEntryOf_of_getElem? he
      exact ⟨rfl, rfl⟩
  · exact hread.trans ((if_neg hs).trans (if_neg (Nat.not_le.2 hc)))

/-- Settles O54: the four answers of a `PMT_READ` past its stream loop, and the arena's bytes. -/
theorem pmtReadResult : Obligations.PmtReadResult := by
  rintro s b _ _ items same ha h hb rfl hp hi rfl hsame
  obtain rfl := propext hsame
  have hread := pmtRead_of ha h hb hp hi
  refine ⟨fun hs => exec_of_ok ?_, fun hs hwf hc hu => ?_, fun hs hc => exec_of_plain_error ?_,
    fun hs hc hu => exec_of_plain_error ?_⟩
  · exact hread.trans (if_pos hs)
  · have hused := arenaBytes_length (i := 12) (pi := (field12 b 10).toNat) (by omega) (hi.flat_length (Nat.sub_le ..))
    obtain ⟨hbytes, hframe⟩ := arena_written hwf hused
    exact ⟨_, _, exec_of_ok (hread.trans ((if_neg hs).trans ((if_pos hc).trans (if_pos hu)))), hbytes, hframe,
      pmtArenaEntries_length .., fun _ _ _ => pmtArenaEntries_entry⟩
  · exact hread.trans ((if_neg hs).trans (if_neg (Nat.not_le.2 hc)))
  · exact hread.trans ((if_neg hs).trans ((if_pos hc).trans (if_neg (Nat.not_le.2 hu))))

/-- Settles O55: the four answers of a `PSM_READ` past its map, and the arena's bytes. -/
theorem psmReadResult : Obligations.PsmReadResult := by
  rintro s b _ _ items same _ ha h hb rfl hp hm hi rfl hsame rfl
  obtain rfl := propext hsame
  have hread := psmRead_of ha h hb hp hm hi
  refine ⟨fun hs => exec_of_ok ?_, fun hs hwf hc hu => ?_, fun hs hc => exec_of_plain_error ?_,
    fun hs hc hu => exec_of_plain_error ?_⟩
  · exact hread.trans (if_pos hs)
  · have hused := arenaBytes_length (i := 10) (pi := (field16 b 8).toNat) (by omega) (hi.flat_length (Nat.sub_le ..))
    obtain ⟨hbytes, hframe⟩ := arena_written hwf hused
    exact ⟨_, _, exec_of_ok (hread.trans ((if_neg hs).trans ((if_pos hc).trans (if_pos hu)))), hbytes, hframe,
      psmArenaEntries_length .., fun _ _ _ => psmArenaEntries_entry⟩
  · exact hread.trans ((if_neg hs).trans (if_neg (Nat.not_le.2 hc)))
  · exact hread.trans ((if_neg hs).trans ((if_pos hc).trans (if_neg (Nat.not_le.2 hu))))

/-! ### Rejections -/

section Rejects

variable {s : State} {b : List Byte}

/-- A check whose failure is that of all that follows where it holds. -/
theorem check_bind_error_of {c : Prop} [Decidable c] {β : Type} {f : Unit → Except Raise β} {r : Raise}
    (h : c → f () = .error r) : (check c r >>= f) = .error r :=
  check_bind_error_self.2 (Decidable.or_iff_not_imp_left.2 fun hc => h (not_not.1 hc))

/-- What a `PAT_READ` asks of bytes 0 to 2 (43_psi.md R241). -/
abbrev PatHeaderOk (b : List Byte) : Prop :=
  (byteAt b 0 = 0x00 ∧ (byteAt b 1).getLsbD 7 = true) ∧
    9 ≤ (field12 b 1).toNat ∧ (field12 b 1).toNat ≤ 1021 ∧ ((field12 b 1).toNat - 9) % 4 = 0

/-- What a `PMT_READ` asks of bytes 0 to 2 (43_psi.md R246). -/
abbrev PmtHeaderOk (b : List Byte) : Prop :=
  (byteAt b 0 = 0x02 ∧ (byteAt b 1).getLsbD 7 = true) ∧
    13 ≤ (field12 b 1).toNat ∧ (field12 b 1).toNat ≤ 1021

/-- What a `PSM_READ` asks of bytes 0 to 5 (43_psi.md R251). -/
abbrev PsmHeaderOk (b : List Byte) : Prop :=
  b.take 4 = [0x00, 0x00, 0x01, 0xBC] ∧ 10 ≤ (field16 b 4).toNat ∧ (field16 b 4).toNat ≤ 1018

/-- A PAT section is refused for its header, or for a CRC that does not agree. -/
theorem patRead_rejects (h : Reads s b) (h3 : 3 ≤ b.length)
    (hcrc : PatHeaderOk b → b.length = 3 + (field12 b 1).toNat ∧ ¬ crcAgrees b) :
    patRead s = .error .invalidData := by
  unfold patRead
  refine bind_error_of_ok h.prologue <| bind_error_of_ok (h.take_zero h3) ?_
  rw [field12_take (by decide), byteAt_take (by decide), byteAt_take (by decide)]
  refine check_bind_error_of fun hid => check_bind_error_of fun hsl => ?_
  obtain ⟨hlen, hne⟩ := hcrc ⟨hid, hsl⟩
  refine bind_error_of_ok (h.take (i := 3) hlen.ge) <| check_bind_error_self.2 (.inl ?_)
  rwa [take_append_slice hlen.symm]

theorem pmtRead_rejects (ha : ArenaOk s) (h : Reads s b) (h3 : 3 ≤ b.length)
    (hcrc : PmtHeaderOk b → b.length = 3 + (field12 b 1).toNat ∧ ¬ crcAgrees b) :
    pmtRead s = .error .invalidData := by
  unfold pmtRead
  refine bind_error_of_ok (checkArenaWindow_of ha) <| bind_error_of_ok h.prologue <|
    bind_error_of_ok (h.take_zero h3) ?_
  rw [field12_take (by decide), byteAt_take (by decide), byteAt_take (by decide)]
  refine check_bind_error_of fun hid => check_bind_error_of fun hsl => ?_
  obtain ⟨hlen, hne⟩ := hcrc ⟨hid, hsl⟩
  refine bind_error_of_ok (h.take (i := 3) hlen.ge) <| check_bind_error_self.2 (.inl ?_)
  rwa [take_append_slice hlen.symm]

theorem psmRead_rejects (ha : ArenaOk s) (h : Reads s b) (h6 : 6 ≤ b.length)
    (hcrc : PsmHeaderOk b → b.length = 6 + (field16 b 4).toNat ∧ ¬ crcAgrees b) :
    psmRead s = .error .invalidData := by
  unfold psmRead
  refine bind_error_of_ok (checkArenaWindow_of ha) <| bind_error_of_ok h.prologue <|
    bind_error_of_ok (h.take_zero h6) ?_
  rw [field16_take (by decide), List.take_take]
  refine check_bind_error_of fun hid => check_bind_error_of fun hsl => ?_
  obtain ⟨hlen, hne⟩ := hcrc ⟨hid, hsl⟩
  refine bind_error_of_ok (h.take (i := 6) hlen.ge) <| check_bind_error_self.2 (.inl ?_)
  rwa [take_append_slice hlen.symm]

/-- A CRC that does not agree is InvalidData for every reader, whatever its header (43_psi.md R240 steps 3, 5). -/
theorem readers_reject_crc (h : Reads s b) (hcrc : ¬ crcAgrees b) :
    (b.length = 3 + (field12 b 1).toNat → exec .patRead s = .next (s.failed .invalidData)) ∧
    (b.length = 3 + (field12 b 1).toNat → ArenaOk s → exec .pmtRead s = .next (s.failed .invalidData)) ∧
    (b.length = 6 + (field16 b 4).toNat → ArenaOk s → exec .psmRead s = .next (s.failed .invalidData)) :=
  ⟨fun hlen => exec_of_plain_error (patRead_rejects h (by omega) fun _ => ⟨hlen, hcrc⟩),
    fun hlen ha => exec_of_plain_error (pmtRead_rejects ha h (by omega) fun _ => ⟨hlen, hcrc⟩),
    fun hlen ha => exec_of_plain_error (psmRead_rejects ha h (by omega) fun _ => ⟨hlen, hcrc⟩)⟩

/-- The entry loop fails where no streams end at the CRC. -/
theorem pmtItems_of_no_streams {stop k : Nat} (hk : k ≤ stop) (hno : ¬ ∃ items, PmtStreams b stop k items) :
    pmtItems b stop (stop - k) k = .error .invalidData := by
  cases hi : pmtItems b stop (stop - k) k with
  | ok items => exact absurd ⟨items, (pmtItems_eq_ok hk (Nat.le_refl _)).1 hi⟩ hno
  | error r => rw [pmtItems_error hi]

theorem psmItems_of_no_streams {stop k : Nat} (hk : k ≤ stop) (hno : ¬ ∃ items, PsmStreams b stop k items) :
    psmItems b stop (stop - k) k = .error .invalidData := by
  cases hi : psmItems b stop (stop - k) k with
  | ok items => exact absurd ⟨items, (psmItems_eq_ok hk (Nat.le_refl _)).1 hi⟩ hno
  | error r => rw [psmItems_error hi]

end Rejects

/-- Settles O56: the arena's check comes first; each later check fails with InvalidData, as do those after it. -/
theorem sectionReadersReject : Obligations.SectionReadersReject := by
  refine ⟨fun s ha => ⟨?_, ?_⟩, fun s b h hlen => ⟨fun hbad => ?_, fun ha hbad => ?_⟩,
    fun s b h hlen ha hbad => ?_, fun s b => readers_reject_crc, fun s b h ha hb hno => ?_, fun s b h ha hb hno => ?_⟩
  · exact exec_of_plain_error (bind_error_of_error (checkArenaWindow_of_not ha))
  · exact exec_of_plain_error (bind_error_of_error (checkArenaWindow_of_not ha))
  · refine exec_of_plain_error (patRead_rejects h hlen.ge fun ⟨⟨hid, hsyn⟩, hlow, hhigh, hwhole⟩ => ?_)
    have hsize := (hbad.resolve_left (not_not_intro hid)).resolve_left (by rw [hsyn]; decide)
    omega
  · refine exec_of_plain_error (pmtRead_rejects ha h hlen.ge fun ⟨⟨hid, hsyn⟩, hlow, hhigh⟩ => ?_)
    have hsize := (hbad.resolve_left (not_not_intro hid)).resolve_left (by rw [hsyn]; decide)
    omega
  · refine exec_of_plain_error (psmRead_rejects ha h hlen.ge fun ⟨hstart, hlow, hhigh⟩ => ?_)
    have hsize := hbad.resolve_left (not_not_intro hstart)
    omega
  · refine exec_of_plain_error ((pmtRead_of_crc ha h hb).trans <| check_bind_error_of fun hp => ?_)
    exact bind_error_of_error (pmtItems_of_no_streams hp hno)
  · refine exec_of_plain_error ((psmRead_of_crc ha h hb).trans <| check_bind_error_of fun hp =>
      check_bind_error_of fun hm => bind_error_of_error (psmItems_of_no_streams hp ?_))
    exact hno.resolve_left (not_not_intro hm)

/-- Settles O60: a sealed section with one byte changed has a CRC that does not agree. -/
theorem corruptSectionRejected : Obligations.CorruptSectionRejected := by
  rintro s content _ j x rfl hj hx h
  exact readers_reject_crc h (sealedResidue.2 content j x hj hx).2

end Sys2Proof.Machine
end

section
/-! Reading back what a section writer wrote (43_psi.md R255): the fields at their offsets, the stream loop over the
streams written, the descriptor ranges in the arena, and the three tables. -/

namespace Sys2Proof.Machine

/-! ### Fields after other bytes -/

section Fields

variable {a b c : List Byte} {i k n : Nat}

theorem byteAt_append_right (hk : k = a.length) : byteAt (a ++ b) (k + i) = byteAt b i := by
  subst hk
  rw [← byteAt_drop, List.drop_left]

theorem field12_append_right (hk : k = a.length) : field12 (a ++ b) (k + i) = field12 b i := by
  rw [field12, Nat.add_assoc, byteAt_append_right hk, byteAt_append_right hk, field12]

theorem field13_append_right (hk : k = a.length) : field13 (a ++ b) (k + i) = field13 b i := by
  rw [field13, Nat.add_assoc, byteAt_append_right hk, byteAt_append_right hk, field13]

theorem field16_append_right (hk : k = a.length) : field16 (a ++ b) (k + i) = field16 b i := by
  rw [field16, Nat.add_assoc, byteAt_append_right hk, byteAt_append_right hk, field16]

/-- The middle of three byte strings. -/
theorem slice_middle (hk : k = a.length) : slice (a ++ (b ++ c)) k b.length = b := by
  subst hk
  rw [slice, List.drop_left, List.take_left]

theorem field12_be12 (top : BitVec 4) (x : BitVec 12) : field12 (be12 top x) 0 = x := by
  change (top ++ x.extractLsb' 8 4).extractLsb' 0 4 ++ x.extractLsb' 0 8 = x
  rw [BitVec.extractLsb'_append_eq_right]
  exact (extractLsb'_append_adjacent x 0 4 8).trans BitVec.extractLsb'_eq_self

theorem field13_be13 (x : BitVec 13) : field13 (be13 x) 0 = x := by
  change (0b111#3 ++ x.extractLsb' 8 5).extractLsb' 0 5 ++ x.extractLsb' 0 8 = x
  rw [BitVec.extractLsb'_append_eq_right]
  exact (extractLsb'_append_adjacent x 0 5 8).trans BitVec.extractLsb'_eq_self

theorem field16_be16_append (x : BitVec 16) (c : List Byte) : field16 (be16 x ++ c) 0 = x := field16_be16 x

/-- The section_syntax_indicator, above a section's length. -/
theorem syntaxBit_be12 (x : BitVec 12) : (byteAt (be12 0b1011 x) 0).getLsbD 7 = true := by
  change (0b1011#4 ++ x.extractLsb' 8 4).getLsbD 7 = true
  rw [BitVec.getLsbD_append]
  rfl

theorem versionByte_ver (ver : BitVec 5) : (versionByte ver).extractLsb' 1 5 = ver := by
  revert ver
  decide

theorem versionByte_current (ver : BitVec 5) : (versionByte ver).getLsbD 0 = true :=
  getLsbD_zero_append_one _

end Fields

/-! ### A section written -/

section Written

variable {s : State} {b : List Byte}

theorem rdBE_be32 (c : Word) : rdBE (be32 c) = c.toNat := by
  have h16 : c.extractLsb' 24 8 ++ c.extractLsb' 16 8 = c.extractLsb' 16 16 := extractLsb'_append_adjacent c 16 8 8
  have h24 : c.extractLsb' 16 16 ++ c.extractLsb' 8 8 = c.extractLsb' 8 24 := extractLsb'_append_adjacent c 8 16 8
  have h32 : c.extractLsb' 8 24 ++ c.extractLsb' 0 8 = c :=
    (extractLsb'_append_adjacent c 0 24 8).trans BitVec.extractLsb'_eq_self
  rw [be32, rdBE_four, h16, h24, h32]

/-- A trailer agrees with the bytes it was made of. -/
theorem crcAgrees_sealed (b : List Byte) : crcAgrees (sealed b) := by
  rw [crcAgrees, sealed_length, Nat.add_sub_cancel, sealed, List.take_left, List.drop_left, rdBE_be32]

/-- The section written reads back, its length from RESULT (43_psi.md R230). -/
theorem readBytes_emitSection (hwf : s.mem.wf = true) (hcap : b.length + 4 ≤ s.dstCap.toNat) :
    (emitSection s b).mem.readBytes s.dstAddr.toNat (emitSection s b).result.toNat = sealed b := by
  rw [emitSection, State.done_result, toNat_ofNat_of_le hcap, ← sealed_length]
  exact Memory.readBytes_writeBytes hwf _ (sealed b)

/-- One element's bytes in the bytes of a list. -/
theorem flatMap_eq_append {α : Type} {f : α → List Byte} {l : List α} {i : Nat} {x : α} (h : l[i]? = some x) :
    l.flatMap f = (l.take i).flatMap f ++ (f x ++ (l.drop (i + 1)).flatMap f) := by
  induction l generalizing i with
  | nil => cases h
  | cons y l ih =>
    cases i with
    | zero =>
      obtain rfl := Option.some.inj h
      rfl
    | succ i =>
      rw [List.flatMap_cons, ih h, ← List.append_assoc]
      rfl

end Written

/-! ### PAT -/

section Pat

variable {tsid : BitVec 16} {ver : BitVec 5} {es : List PatEntry}

/-- Bytes 0 to 7 of a PAT (30_encoding.md R110). -/
def patFront (tsid : BitVec 16) (ver : BitVec 5) (n : Nat) : List Byte :=
  [0x00] ++ be12 0b1011 (BitVec.ofNat 12 (patLength n)) ++ be16 tsid ++ [versionByte ver, 0x00, 0x00]

/-- The four bytes of a PAT entry. -/
def patEntryBytes (e : PatEntry) : List Byte := be16 e.program ++ be13 e.pid

theorem patSection_eq_append : patSection tsid ver es = patFront tsid ver es.length ++ es.flatMap patEntryBytes := rfl

theorem patEntryBytes_length (es : List PatEntry) : (es.flatMap patEntryBytes).length = 4 * es.length := by
  have h := patSection_length 0 0 es
  rw [patSection_eq_append, List.length_append] at h
  exact Nat.add_left_cancel h

theorem patEntryOf_append {a c : List Byte} {i : Nat} (hi : 8 + 4 * i = a.length) (e : PatEntry) :
    patEntryOf (a ++ (patEntryBytes e ++ c)) i = e := by
  have hprogram : field16 (patEntryBytes e ++ c) 0 = e.program := field16_be16 e.program
  have hpid : field13 (patEntryBytes e ++ c) 2 = e.pid := field13_be13 e.pid
  rw [patEntryOf, show 10 + 4 * i = 8 + 4 * i + 2 by omega, field13_append_right hi, hpid,
    ← Nat.add_zero (8 + 4 * i), field16_append_right hi, hprogram]

theorem patEntryOf_sealed {i : Nat} {e : PatEntry} (h : es[i]? = some e) :
    patEntryOf (sealed (patSection tsid ver es)) i = e := by
  obtain ⟨hlt, -⟩ := List.getElem?_eq_some_iff.1 h
  have hsplit (tail : List Byte) : patSection tsid ver es ++ tail =
      (patFront tsid ver es.length ++ (es.take i).flatMap patEntryBytes) ++
        (patEntryBytes e ++ ((es.drop (i + 1)).flatMap patEntryBytes ++ tail)) := by
    rw [patSection_eq_append, flatMap_eq_append h]
    simp only [List.append_assoc]
  rw [sealed, hsplit]
  refine patEntryOf_append ?_ e
  rw [List.length_append, patEntryBytes_length, List.length_take_of_le hlt.le]
  rfl

/-- The entries of a PAT section are those it was made of. -/
theorem patEntries_sealed : (List.range es.length).map (patEntryOf (sealed (patSection tsid ver es))) = es := by
  refine List.ext_getElem (by rw [List.length_map, List.length_range]) fun i _ hi => ?_
  rw [List.getElem_map, List.getElem_range]
  exact patEntryOf_sealed (List.getElem?_eq_getElem hi)

theorem patTsid_sealed : field16 (sealed (patSection tsid ver es)) 3 = tsid := field16_be16 tsid

theorem patVersion_sealed : byteAt (sealed (patSection tsid ver es)) 5 = versionByte ver := rfl

theorem patLength_sealed (h : patLength es.length ≤ 1021) :
    (field12 (sealed (patSection tsid ver es)) 1).toNat = patLength es.length := by
  have hfield : field12 (sealed (patSection tsid ver es)) 1 = BitVec.ofNat 12 (patLength es.length) := field12_be12 ..
  rw [hfield, BitVec.toNat_ofNat, Nat.mod_eq_of_lt (by omega)]

theorem patCount_sealed (h : patLength es.length ≤ 1021) :
    ((field12 (sealed (patSection tsid ver es)) 1).toNat - 9) / 4 = es.length := by
  rw [patLength_sealed h, patLength]
  omega

/-- A table not valid has no section already. -/
theorem not_patSame_sealed {r : State} (h : r.pat.valid = false) :
    ¬ PatSame r (sealed (patSection tsid ver es)) := by
  rintro (hcur | ⟨hvalid, -⟩)
  · rw [patVersion_sealed, versionByte_current] at hcur
    cases hcur
  · rw [h] at hvalid
    cases hvalid

theorem patOk_sealed (h : patLength es.length ≤ 1021) : PatOk (sealed (patSection tsid ver es)) where
  tableId := rfl
  syntaxBit := syntaxBit_be12 _
  length := by rw [patLength_sealed h, sealed_length, patSection_length, patLength]; omega
  low := by rw [patLength_sealed h, patLength]; omega
  high := by rwa [patLength_sealed h]
  whole := by rw [patLength_sealed h, patLength]; omega
  crc := crcAgrees_sealed _

end Pat

/-- Settles O57: the section written is good and not one the table already has, and its fields are the table's. -/
theorem patRoundTrip : Obligations.PatRoundTrip := by
  intro s t r hwf hlt hwrite hok h hvalid hcap
  obtain ⟨-, hsize, hroom, rfl⟩ := patWrite_eq_ok.1 (ok_of_code_ok hwrite hok)
  rw [show (s.count .pat).toNat = s.pat.entries.length from Nat.mod_eq_of_lt hlt] at hsize hroom
  rw [patList_eq hlt] at h ⊢
  rw [readBytes_emitSection hwf (by rw [patSection_length]; rw [patLength] at hroom; omega)] at h
  have hread := patRead_of h (patOk_sealed hsize)
  rw [if_neg (not_patSame_sealed hvalid), patCount_sealed hsize, if_pos hcap] at hread
  refine ⟨_, exec_of_ok hread, rfl, rfl, ?_, ?_⟩
  · exact congrArg (BitVec.ofNat 32) (sealed_length _)
  · rw [patRebuilt, State.done_pat, State.epilogue_pat, patCount_sealed hsize, patEntries_sealed, patTsid_sealed,
      patVersion_sealed, versionByte_ver]

end Sys2Proof.Machine
end

section
/-! Reading back a PMT or a PSM (43_psi.md R255, R247): the stream loop finds the streams written, and the arena holds
each descriptor range at the address its entry gets. -/

namespace Sys2Proof.Machine

/-! ### The arena's ranges -/

section Arena

variable {m : Memory} {dst : Word} {info x : List Byte} {infos : List (List Byte)} {used i : Nat}

/-- A range that ends at 2^32 or below, from its address in 32 bits: the address wraps only if the range is empty. -/
theorem readBytes_ofNat {a n : Nat} (h : a + n ≤ 2 ^ 32) :
    m.readBytes (BitVec.ofNat 32 a).toNat n = m.readBytes a n := by
  cases n with
  | zero => rfl
  | succ n => rw [BitVec.toNat_ofNat, Nat.mod_eq_of_lt (by omega)]

/-- The program info lies at the start of the arena. -/
theorem readBytes_arena_info (h : m.readBytes dst.toNat used = info ++ infos.flatten) :
    m.readBytes dst.toNat info.length = info :=
  (Memory.readBytes_eq_append_iff.1 h).2.1

/-- Each descriptor range lies after the ranges before it. -/
theorem readBytes_arena (h : m.readBytes dst.toNat used = info ++ infos.flatten)
    (hfit : dst.toNat + used ≤ 2 ^ 32) (hx : infos[i]? = some x) :
    m.readBytes (BitVec.ofNat 32 (dst.toNat + info.length + ((infos.take i).map List.length).sum)).toNat x.length =
      x := by
  have hsplit := flatMap_eq_append (f := id) hx
  rw [List.flatMap_id, List.flatMap_id, List.flatMap_id, id] at hsplit
  rw [hsplit, ← List.append_assoc] at h
  obtain ⟨hused, -, hrest⟩ := Memory.readBytes_eq_append_iff.1 h
  obtain ⟨hlen, hread, -⟩ := Memory.readBytes_eq_append_iff.1 hrest
  rw [List.length_append, List.length_flatten, ← Nat.add_assoc] at hread
  rw [List.length_append, List.length_flatten] at hused
  rw [readBytes_ofNat (by omega), hread]

end Arena

/-! ### Streams -/

/-- The items a stream loop finds in the bytes of `es` from offset `k`, each with `hdr` bytes before its ES-info. -/
def esItems {n : Nat} (hdr : Nat) : Nat → List (EsData n) → List (EsItem n)
  | _, [] => []
  | k, e :: es =>
    { streamType := e.streamType, id := e.id, offset := k + hdr, len := e.info.length } ::
      esItems hdr (k + hdr + e.info.length) es

/-- The bytes of a stream: those before its ES-info, and the ES-info. -/
def streamBytes {n : Nat} (head : EsData n → List Byte) (e : EsData n) : List Byte := head e ++ e.info

/-- stream_type, PID and ES_info_length of a PMT stream (30_encoding.md R111). -/
def pmtHead (e : EsData 13) : List Byte :=
  [e.streamType] ++ be13 e.id ++ be12 0b1111 (BitVec.ofNat 12 e.info.length)

/-- stream_type, stream_id and length of a PSM stream (30_encoding.md R112). -/
def psmHead (e : EsData 8) : List Byte := [e.streamType, e.id] ++ be16 (BitVec.ofNat 16 e.info.length)

section Streams

variable {n hdr k stop i : Nat} {head : EsData n → List Byte} {es : List (EsData n)} {e : EsData n}
  {b pre tail : List Byte}

theorem esItems_lengths : (esItems hdr k es).map (·.len) = es.map (·.info.length) := by
  induction es generalizing k with
  | nil => rfl
  | cons e es ih => rw [esItems, List.map_cons, ih, List.map_cons]

theorem esItems_length : (esItems hdr k es).length = es.length := by
  have h := congrArg List.length (esItems_lengths (hdr := hdr) (k := k) (es := es))
  rwa [List.length_map, List.length_map] at h

theorem esItems_getElem? (h : es[i]? = some e) :
    ∃ o, (esItems hdr k es)[i]? = some ⟨e.streamType, e.id, o, e.info.length⟩ := by
  induction es generalizing k i with
  | nil => cases h
  | cons y es ih =>
    cases i with
    | zero =>
      obtain rfl := Option.some.inj h
      exact ⟨_, rfl⟩
    | succ i => exact ih h

/-- The first stream's part of the bytes, and the rest after it. -/
theorem streams_cons (hb : b = pre ++ ((e :: es).flatMap (streamBytes head) ++ tail)) :
    b = pre ++ (head e ++ (e.info ++ (es.flatMap (streamBytes head) ++ tail))) ∧
      b = (pre ++ streamBytes head e) ++ (es.flatMap (streamBytes head) ++ tail) := by
  simp only [hb, List.flatMap_cons, streamBytes, List.append_assoc, and_self]

/-- Where the rest starts, and how much there is of it. -/
theorem streams_next (hhead : (head e).length = hdr) (hk : k = pre.length)
    (hstop : stop = k + ((e :: es).flatMap (streamBytes head)).length) :
    k + hdr + e.info.length = (pre ++ streamBytes head e).length ∧
      stop = k + hdr + e.info.length + (es.flatMap (streamBytes head)).length := by
  simp only [hstop, hk, List.flatMap_cons, streamBytes, List.length_append, hhead, Nat.add_assoc, and_self]

/-- The ES-info of each item, cut from the section. -/
theorem esItems_slices (hhead : ∀ e, (head e).length = hdr)
    (hb : b = pre ++ (es.flatMap (streamBytes head) ++ tail)) (hk : k = pre.length) :
    ((esItems hdr k es).map fun x => slice b x.offset x.len) = es.map (·.info) := by
  induction es generalizing pre k with
  | nil => rfl
  | cons e es ih =>
    obtain ⟨hfirst, hrest⟩ := streams_cons hb
    have hinfo : slice b (k + hdr) e.info.length = e.info := by
      rw [hfirst, ← List.append_assoc]
      exact slice_middle (by rw [List.length_append, hhead, hk])
    obtain ⟨hnext, -⟩ := streams_next (es := es) (hhead e) hk rfl
    rw [esItems, List.map_cons, hinfo, ih hrest hnext, List.map_cons]

end Streams

/-- A length register, from the bytes of its range. -/
theorem ofNat_readBytes_length (m : Memory) (a : Nat) (len : Word) :
    BitVec.ofNat 32 (m.readBytes a len.toNat).length = len := by
  rw [Memory.readBytes_length, BitVec.ofNat_toNat, BitVec.setWidth_eq]

section Described

variable {n hdr k i used : Nat} {es : List (EsData n)} {e : EsData n} {m : Memory} {dst : Word} {info : List Byte}

/-- A stream's bytes are at most those of the loop. -/
theorem stream_le_sum (h : e ∈ es) : hdr + e.info.length ≤ ((es.map (·.info.length)).map (hdr + ·)).sum :=
  List.le_sum_of_mem (List.mem_map_of_mem (List.mem_map_of_mem h))

/-- The ES-info of stream `i` lies at the address R247 gives its entry. -/
theorem readBytes_arenaAddr (h : m.readBytes dst.toNat used = info ++ (es.map (·.info)).flatten)
    (hfit : dst.toNat + used ≤ 2 ^ 32) (he : es[i]? = some e) :
    m.readBytes (arenaAddr dst info.length (esItems hdr k es) i).toNat e.info.length = e.info := by
  have hx : (es.map (·.info))[i]? = some e.info := by rw [List.getElem?_map, he, Option.map_some]
  have hsum : ((es.map (·.info)).take i).map List.length = ((esItems hdr k es).take i).map (·.len) := by
    rw [List.map_take, List.map_take, esItems_lengths, List.map_map]
    rfl
  rw [arenaAddr, ← hsum]
  exact readBytes_arena h hfit hx

end Described

section Loops

variable {k stop : Nat} {b pre tail : List Byte}

theorem pmtStreams_esItems {es : List (EsData 13)} (hes : ∀ e ∈ es, e.info.length < 2 ^ 12)
    (hb : b = pre ++ (es.flatMap (streamBytes pmtHead) ++ tail)) (hk : k = pre.length)
    (hstop : stop = k + (es.flatMap (streamBytes pmtHead)).length) : PmtStreams b stop k (esItems 5 k es) := by
  induction es generalizing pre k with
  | nil => exact hstop.symm
  | cons e es ih =>
    obtain ⟨hfirst, hrest⟩ := streams_cons hb
    obtain ⟨hnext, hleft⟩ := streams_next (hdr := 5) rfl hk hstop
    have htype : byteAt b (k + 0) = e.streamType := by rw [hfirst, byteAt_append_right hk]; rfl
    have hpid : field13 b (k + 1) = e.id := by
      rw [hfirst, field13_append_right hk]
      exact field13_be13 e.id
    have hinfo : field12 b (k + 3) = BitVec.ofNat 12 e.info.length := by
      rw [hfirst, field12_append_right hk]
      exact field12_be12 _ _
    refine ⟨htype.symm, hpid.symm, rfl, ?_, hleft ▸ Nat.le_add_right .., ?_⟩
    · rw [hinfo, BitVec.toNat_ofNat, Nat.mod_eq_of_lt (hes e List.mem_cons_self)]
    · exact ih (fun x hx => hes x (List.mem_cons_of_mem _ hx)) hrest hnext hleft

theorem psmStreams_esItems {es : List (EsData 8)} (hes : ∀ e ∈ es, e.info.length < 2 ^ 16)
    (hb : b = pre ++ (es.flatMap (streamBytes psmHead) ++ tail)) (hk : k = pre.length)
    (hstop : stop = k + (es.flatMap (streamBytes psmHead)).length) : PsmStreams b stop k (esItems 4 k es) := by
  induction es generalizing pre k with
  | nil => exact hstop.symm
  | cons e es ih =>
    obtain ⟨hfirst, hrest⟩ := streams_cons hb
    obtain ⟨hnext, hleft⟩ := streams_next (hdr := 4) rfl hk hstop
    have htype : byteAt b (k + 0) = e.streamType := by rw [hfirst, byteAt_append_right hk]; rfl
    have hid : byteAt b (k + 1) = e.id := by rw [hfirst, byteAt_append_right hk]; rfl
    have hinfo : field16 b (k + 2) = BitVec.ofNat 16 e.info.length := by
      rw [hfirst, field16_append_right hk]
      exact field16_be16 _
    refine ⟨htype.symm, hid.symm, rfl, ?_, hleft ▸ Nat.le_add_right .., ?_⟩
    · rw [hinfo, BitVec.toNat_ofNat, Nat.mod_eq_of_lt (hes e List.mem_cons_self)]
    · exact ih (fun x hx => hes x (List.mem_cons_of_mem _ hx)) hrest hnext hleft

end Loops

end Sys2Proof.Machine
end

section
/-! Reading back a PMT (43_psi.md R255): the section written, the table and the arena a read of it makes. -/

namespace Sys2Proof.Machine

section Pmt

variable {prog : BitVec 16} {ver : BitVec 5} {pcr : BitVec 13} {info : List Byte} {es : List (EsData 13)}

/-- Bytes 0 to 11 of a PMT (30_encoding.md R111). -/
def pmtFront (prog : BitVec 16) (ver : BitVec 5) (pcr : BitVec 13) (size pi : Nat) : List Byte :=
  [0x02] ++ be12 0b1011 (BitVec.ofNat 12 size) ++ be16 prog ++ [versionByte ver, 0x00, 0x00] ++ be13 pcr ++
    be12 0b1111 (BitVec.ofNat 12 pi)

theorem pmtSection_eq_append : pmtSection prog ver pcr info es =
    pmtFront prog ver pcr (pmtLength info.length (es.map (·.info.length))) info.length ++ info ++
      es.flatMap (streamBytes pmtHead) := rfl

/-- The section with its trailer, around its streams. -/
theorem pmtSealed_eq_append : sealed (pmtSection prog ver pcr info es) =
    (pmtFront prog ver pcr (pmtLength info.length (es.map (·.info.length))) info.length ++ info) ++
      (es.flatMap (streamBytes pmtHead) ++ be32 (crc32 psiSeed (pmtSection prog ver pcr info es))) :=
  List.append_assoc ..

theorem pmtFront_info_length (size : Nat) :
    (pmtFront prog ver pcr size info.length ++ info).length = 12 + info.length := List.length_append

theorem pmtInfo_sealed : slice (sealed (pmtSection prog ver pcr info es)) 12 info.length = info := by
  rw [pmtSealed_eq_append, List.append_assoc]
  exact slice_middle rfl

theorem pmtProg_sealed : field16 (sealed (pmtSection prog ver pcr info es)) 3 = prog := field16_be16 prog

theorem pmtVersion_sealed : byteAt (sealed (pmtSection prog ver pcr info es)) 5 = versionByte ver := rfl

theorem pmtPcrPid_sealed : field13 (sealed (pmtSection prog ver pcr info es)) 8 = pcr := field13_be13 pcr

/-- The state after the section of `info` and `es` was read. -/
def pmtReadBack (r : State) (prog : BitVec 16) (ver : BitVec 5) (pcr : BitVec 13) (info : List Byte)
    (es : List (EsData 13)) : State :=
  pmtRebuilt r (sealed (pmtSection prog ver pcr info es)) (esItems 5 (12 + info.length) es)

/-- A table not valid has no section already. -/
theorem not_pmtSame_sealed {r : State} (h : r.pmt.valid = false) :
    ¬ PmtSame r (sealed (pmtSection prog ver pcr info es)) := by
  rintro (hcur | ⟨hvalid, -⟩)
  · rw [pmtVersion_sealed, versionByte_current] at hcur
    cases hcur
  · rw [h] at hvalid
    cases hvalid

section Fits

variable (hfits : pmtLength info.length (es.map (·.info.length)) ≤ 1021)
include hfits

theorem pmtLength_sealed : (field12 (sealed (pmtSection prog ver pcr info es)) 1).toNat =
    pmtLength info.length (es.map (·.info.length)) := by
  rw [show field12 (sealed (pmtSection prog ver pcr info es)) 1 = _ from field12_be12 .., BitVec.toNat_ofNat,
    Nat.mod_eq_of_lt (Nat.lt_of_le_of_lt hfits (by decide))]

theorem pmtInfoLen_sealed : (field12 (sealed (pmtSection prog ver pcr info es)) 10).toNat = info.length := by
  rw [pmtLength] at hfits
  rw [show field12 (sealed (pmtSection prog ver pcr info es)) 10 = _ from field12_be12 .., BitVec.toNat_ofNat,
    Nat.mod_eq_of_lt (by omega)]

theorem pmtOk_sealed : PmtOk (sealed (pmtSection prog ver pcr info es)) where
  tableId := rfl
  syntaxBit := syntaxBit_be12 _
  length := by
    have hlen := pmtSection_length prog ver pcr info es
    rw [pmtLength_sealed hfits, sealed_length]
    omega
  low := by rw [pmtLength_sealed hfits, pmtLength]; omega
  high := by rwa [pmtLength_sealed hfits]
  crc := crcAgrees_sealed _



theorem pmtStreams_sealed : PmtStreams (sealed (pmtSection prog ver pcr info es))
    ((sealed (pmtSection prog ver pcr info es)).length - 4) (12 + info.length) (esItems 5 (12 + info.length) es) := by
  refine pmtStreams_esItems (fun e he => ?_) pmtSealed_eq_append (pmtFront_info_length _).symm ?_
  · have hsum := stream_le_sum (hdr := 5) he
    rw [pmtLength] at hfits
    omega
  · rw [← pmtFront_info_length, ← List.length_append, sealed_length, Nat.add_sub_cancel, pmtSection_eq_append]

/-- A PMT section read into a table not valid rebuilds it with the streams written. -/
theorem exec_pmtRead_sealed {r : State} (ha : ArenaOk r) (h : Reads r (sealed (pmtSection prog ver pcr info es)))
    (hvalid : r.pmt.valid = false) (hcap : es.length ≤ r.params.pmtCap)
    (hroom : info.length + (es.map (·.info.length)).sum ≤ r.dstCap.toNat) :
    exec .pmtRead r = .next (pmtReadBack r prog ver pcr info es) := by
  have hpi := pmtInfoLen_sealed (prog := prog) (ver := ver) (pcr := pcr) hfits
  have hstreams := pmtStreams_sealed (prog := prog) (ver := ver) (pcr := pcr) hfits
  have hp := hstreams.sum_le
  rw [← hpi] at hstreams
  refine exec_of_ok ((pmtRead_of ha h (pmtOk_sealed hfits) (by omega) hstreams).trans ?_)
  rw [if_neg (not_pmtSame_sealed hvalid), esItems_length, if_pos hcap, esTotal, esItems_lengths, hpi, if_pos hroom,
    pmtReadBack]

theorem pmtReadBack_pinfoLen (r : State) :
    (pmtReadBack r prog ver pcr info es).pmt.pinfoLen = BitVec.ofNat 32 info.length :=
  congrArg (BitVec.ofNat 32) (pmtInfoLen_sealed hfits)

/-- The arena holds the program info and each stream's ES-info. -/
theorem pmtReadBack_arena {r : State} (hwf : r.mem.wf = true) :
    (pmtReadBack r prog ver pcr info es).mem.readBytes r.dstAddr.toNat
      (info.length + (es.map (·.info.length)).sum) = info ++ (es.map (·.info)).flatten := by
  have hstreams := pmtStreams_sealed (prog := prog) (ver := ver) (pcr := pcr) hfits
  have hp := hstreams.sum_le
  have hused := arenaBytes_length (i := 12) (pi := info.length) (by omega) (hstreams.flat_length (Nat.sub_le ..))
  rw [esTotal, esItems_lengths] at hused
  have harena := (arena_written hwf hused).1
  rw [pmtInfo_sealed, esItems_slices (head := pmtHead) (fun _ => rfl) pmtSealed_eq_append
    (pmtFront_info_length _).symm] at harena
  rw [pmtReadBack, pmtRebuilt, State.done_mem, State.epilogue_mem, pmtInfoLen_sealed hfits, pmtInfo_sealed]
  exact harena

/-- Entry `i` of the table read back: stream `i`, its ES-info at the entry's address. -/
theorem pmtReadBack_entry {r : State} {i : Nat} {x : EsData 13} {e : PmtEntry} (hwf : r.mem.wf = true)
    (hfit : r.dstAddr.toNat + (info.length + (es.map (·.info.length)).sum) ≤ 2 ^ 32) (hx : es[i]? = some x)
    (he : (pmtReadBack r prog ver pcr info es).pmt.entries[i]? = some e) :
    e.streamType = x.streamType ∧ e.pid = x.id ∧ e.esLen = BitVec.ofNat 32 x.info.length ∧
      (pmtReadBack r prog ver pcr info es).mem.readBytes e.esAddr.toNat x.info.length = x.info := by
  obtain ⟨o, hitem⟩ := esItems_getElem? (hdr := 5) (k := 12 + info.length) hx
  obtain rfl := pmtArenaEntries_entry hitem he
  refine ⟨rfl, rfl, rfl, ?_⟩
  rw [pmtInfoLen_sealed hfits]
  exact readBytes_arenaAddr (pmtReadBack_arena hfits hwf) hfit hx

end Fits

end Pmt

/-- Settles O58: the section written is good and not one the table already has; its fields are the table's, and the
arena holds its descriptor ranges. -/
theorem pmtRoundTrip : Obligations.PmtRoundTrip := by
  intro s t r hswf hrwf hlt hbytes hwrite hok h ha hvalid hcap hroom
  obtain ⟨hfits, hdst, rfl⟩ := writeSection_ok ((pmtWrite_eq hlt).symm.trans (ok_of_code_ok hwrite hok))
  have hlen := pmtBody_length s
  rw [readBytes_emitSection hswf (by omega)] at h
  rw [pmtSize_eq] at hfits
  rw [← pmtData_infoLengths, ← Memory.readBytes_length s.mem s.pmt.pinfoAddr.toNat s.pmt.pinfoLen.toNat] at hroom
  have hfit := Nat.le_trans (Nat.add_le_add_left hroom _) (Nat.le_trans ha.inMem hbytes)
  have hread := exec_pmtRead_sealed hfits ha h hvalid (by rwa [List.length_map]) hroom
  have hinfo := readBytes_arena_info
    (pmtReadBack_arena (prog := s.pmt.prog) (ver := s.pmt.ver) (pcr := s.pmt.pcrPid) hfits hrwf)
  have hinfoLen := (pmtReadBack_pinfoLen (prog := s.pmt.prog) (ver := s.pmt.ver) (pcr := s.pmt.pcrPid) hfits r).trans
    (ofNat_readBytes_length ..)
  refine ⟨_, hread, rfl, rfl, congrArg (BitVec.ofNat 32) (sealed_length _), pmtProg_sealed, versionByte_ver _, rfl,
    pmtPcrPid_sealed, hinfoLen, ?_, ?_, fun i e e' he he' => ?_⟩
  · rw [Memory.readBytes_length] at hinfo
    rw [hinfoLen]
    exact hinfo
  · exact (pmtArenaEntries_length ..).trans (esItems_length.trans (List.length_map _))
  · have hx : (s.pmt.entries.map s.pmtData)[i]? = some (s.pmtData e) := by rw [List.getElem?_map, he, Option.map_some]
    obtain ⟨htype, hpid, hlength, hes⟩ := pmtReadBack_entry hfits hrwf hfit hx he'
    have hesLen := hlength.trans (ofNat_readBytes_length ..)
    rw [show (s.pmtData e).info.length = e.esLen.toNat from Memory.readBytes_length ..] at hes
    refine ⟨htype, hpid, hesLen, ?_⟩
    rw [hesLen]
    exact hes

end Sys2Proof.Machine
end

section
/-! Reading back a PSM (43_psi.md R255): the section written, the table and the arena a read of it makes. -/

namespace Sys2Proof.Machine

section Psm

variable {ver : BitVec 5} {sext : Bool} {info : List Byte} {es : List (EsData 8)}

/-! ### Byte 6 -/

theorem psmFlags_current (ver : BitVec 5) (sext : Bool) : (psmFlags ver sext).getLsbD 7 = true := by
  revert ver sext
  decide

theorem psmFlags_sext (ver : BitVec 5) (sext : Bool) : (psmFlags ver sext).getLsbD 6 = sext := by
  revert ver sext
  decide

theorem psmFlags_ver (ver : BitVec 5) (sext : Bool) : (psmFlags ver sext).extractLsb' 0 5 = ver :=
  BitVec.extractLsb'_append_eq_right

/-! ### The section -/

/-- Bytes 0 to 9 of a PSM (30_encoding.md R112). -/
def psmFront (ver : BitVec 5) (sext : Bool) (size pi : Nat) : List Byte :=
  [0x00, 0x00, 0x01, 0xBC] ++ be16 (BitVec.ofNat 16 size) ++ [psmFlags ver sext, 0xFF] ++ be16 (BitVec.ofNat 16 pi)

/-- What a PSM holds before its streams. -/
def psmBefore (ver : BitVec 5) (sext : Bool) (info : List Byte) (es : List (EsData 8)) : List Byte :=
  psmFront ver sext (psmLength info.length (es.map (·.info.length))) info.length ++ info ++
    be16 (BitVec.ofNat 16 (psmMapLength (es.map (·.info.length))))

theorem psmSection_eq_append :
    psmSection ver sext info es = psmBefore ver sext info es ++ es.flatMap (streamBytes psmHead) := rfl

/-- The section with its trailer, around its streams. -/
theorem psmSealed_eq_append : sealed (psmSection ver sext info es) =
    psmBefore ver sext info es ++
      (es.flatMap (streamBytes psmHead) ++ be32 (crc32 psiSeed (psmSection ver sext info es))) :=
  List.append_assoc ..

theorem psmFront_info_length (size : Nat) :
    (psmFront ver sext size info.length ++ info).length = 10 + info.length := List.length_append

theorem psmBefore_length : (psmBefore ver sext info es).length = 12 + info.length := by
  rw [psmBefore, List.length_append, psmFront_info_length, be16_length]
  omega

theorem psmInfo_sealed : slice (sealed (psmSection ver sext info es)) 10 info.length = info := by
  rw [psmSealed_eq_append, psmBefore, List.append_assoc, List.append_assoc]
  exact slice_middle rfl

theorem psmFlags_sealed : byteAt (sealed (psmSection ver sext info es)) 6 = psmFlags ver sext := rfl

/-- The state after the section of `info` and `es` was read. -/
def psmReadBack (r : State) (ver : BitVec 5) (sext : Bool) (info : List Byte) (es : List (EsData 8)) : State :=
  psmRebuilt r (sealed (psmSection ver sext info es)) (esItems 4 (12 + info.length) es)

/-- A table not valid has no section already. -/
theorem not_psmSame_sealed {r : State} (h : r.psm.valid = false) :
    ¬ PsmSame r (sealed (psmSection ver sext info es)) := by
  rintro (hcur | ⟨hvalid, -⟩)
  · rw [psmFlags_sealed, psmFlags_current] at hcur
    cases hcur
  · rw [h] at hvalid
    cases hvalid

section Fits

variable (hfits : psmLength info.length (es.map (·.info.length)) ≤ 1018)
include hfits

theorem psmLength_sealed : (field16 (sealed (psmSection ver sext info es)) 4).toNat =
    psmLength info.length (es.map (·.info.length)) := by
  rw [show field16 (sealed (psmSection ver sext info es)) 4 = _ from field16_be16 _, BitVec.toNat_ofNat,
    Nat.mod_eq_of_lt (Nat.lt_of_le_of_lt hfits (by decide))]

theorem psmInfoLen_sealed : (field16 (sealed (psmSection ver sext info es)) 8).toNat = info.length := by
  rw [psmLength] at hfits
  rw [show field16 (sealed (psmSection ver sext info es)) 8 = _ from field16_be16 _, BitVec.toNat_ofNat,
    Nat.mod_eq_of_lt (by omega)]

theorem psmMapLength_sealed : (field16 (sealed (psmSection ver sext info es)) (10 + info.length)).toNat =
    psmMapLength (es.map (·.info.length)) := by
  rw [psmLength] at hfits
  rw [psmSealed_eq_append, psmBefore, List.append_assoc, ← Nat.add_zero (10 + _),
    field16_append_right (psmFront_info_length _).symm, field16_be16_append, BitVec.toNat_ofNat,
    Nat.mod_eq_of_lt (by omega)]

theorem psmOk_sealed : PsmOk (sealed (psmSection ver sext info es)) where
  startCode := rfl
  length := by
    rw [psmLength_sealed hfits, sealed_length, psmSection_length]
    omega
  low := by rw [psmLength_sealed hfits, psmLength]; omega
  high := by rwa [psmLength_sealed hfits]
  crc := crcAgrees_sealed _

theorem psmStreams_sealed : PsmStreams (sealed (psmSection ver sext info es))
    ((sealed (psmSection ver sext info es)).length - 4) (12 + info.length) (esItems 4 (12 + info.length) es) := by
  refine psmStreams_esItems (fun e he => ?_) psmSealed_eq_append psmBefore_length.symm ?_
  · have hsum := stream_le_sum (hdr := 4) he
    rw [psmLength, psmMapLength] at hfits
    omega
  · rw [← psmBefore_length, ← List.length_append, sealed_length, Nat.add_sub_cancel, psmSection_eq_append]

/-- A PSM section read into a table not valid rebuilds it with the streams written. -/
theorem exec_psmRead_sealed {r : State} (ha : ArenaOk r) (h : Reads r (sealed (psmSection ver sext info es)))
    (hvalid : r.psm.valid = false) (hcap : es.length ≤ r.params.psmCap)
    (hroom : info.length + (es.map (·.info.length)).sum ≤ r.dstCap.toNat) :
    exec .psmRead r = .next (psmReadBack r ver sext info es) := by
  have hpi := psmInfoLen_sealed (ver := ver) (sext := sext) hfits
  have hmap := psmMapLength_sealed (ver := ver) (sext := sext) hfits
  have hstreams := psmStreams_sealed (ver := ver) (sext := sext) hfits
  have hp := hstreams.sum_le
  have hend : 12 + info.length + psmMapLength (es.map (·.info.length)) =
      (sealed (psmSection ver sext info es)).length - 4 := by
    rw [sealed_length, psmSection_length, psmLength]
    omega
  rw [← hmap, ← hpi] at hend
  rw [← hpi] at hstreams
  refine exec_of_ok ((psmRead_of ha h (psmOk_sealed hfits) (by omega) hend hstreams).trans ?_)
  rw [if_neg (not_psmSame_sealed hvalid), esItems_length, if_pos hcap, esTotal, esItems_lengths, hpi, if_pos hroom,
    psmReadBack]

theorem psmReadBack_pinfoLen (r : State) :
    (psmReadBack r ver sext info es).psm.pinfoLen = BitVec.ofNat 32 info.length :=
  congrArg (BitVec.ofNat 32) (psmInfoLen_sealed hfits)

/-- The arena holds the program info and each stream's ES-info. -/
theorem psmReadBack_arena {r : State} (hwf : r.mem.wf = true) :
    (psmReadBack r ver sext info es).mem.readBytes r.dstAddr.toNat
      (info.length + (es.map (·.info.length)).sum) = info ++ (es.map (·.info)).flatten := by
  have hstreams := psmStreams_sealed (ver := ver) (sext := sext) hfits
  have hp := hstreams.sum_le
  have hused := arenaBytes_length (i := 10) (pi := info.length) (by omega) (hstreams.flat_length (Nat.sub_le ..))
  rw [esTotal, esItems_lengths] at hused
  have harena := (arena_written hwf hused).1
  rw [psmInfo_sealed, esItems_slices (head := psmHead) (fun _ => rfl) psmSealed_eq_append psmBefore_length.symm]
    at harena
  rw [psmReadBack, psmRebuilt, State.done_mem, State.mark_mem, State.epilogue_mem, psmInfoLen_sealed hfits,
    psmInfo_sealed]
  exact harena

/-- Entry `i` of the table read back: stream `i`, its ES-info at the entry's address. -/
theorem psmReadBack_entry {r : State} {i : Nat} {x : EsData 8} {e : PsmEntry} (hwf : r.mem.wf = true)
    (hfit : r.dstAddr.toNat + (info.length + (es.map (·.info.length)).sum) ≤ 2 ^ 32) (hx : es[i]? = some x)
    (he : (psmReadBack r ver sext info es).psm.entries[i]? = some e) :
    e.streamType = x.streamType ∧ e.streamId = x.id ∧ e.esLen = BitVec.ofNat 32 x.info.length ∧
      (psmReadBack r ver sext info es).mem.readBytes e.esAddr.toNat x.info.length = x.info := by
  obtain ⟨o, hitem⟩ := esItems_getElem? (hdr := 4) (k := 12 + info.length) hx
  obtain rfl := psmArenaEntries_entry hitem he
  refine ⟨rfl, rfl, rfl, ?_⟩
  rw [psmInfoLen_sealed hfits]
  exact readBytes_arenaAddr (psmReadBack_arena hfits hwf) hfit hx

end Fits

end Psm

/-- Settles O59: the map written is good and not one the table already has; its fields are the table's, and the
arena holds its descriptor ranges. -/
theorem psmRoundTrip : Obligations.PsmRoundTrip := by
  intro s t r hswf hrwf hlt hbytes hwrite hok h ha hvalid hcap hroom
  obtain ⟨hfits, hdst, rfl⟩ := writeSection_ok ((psmWrite_eq hlt).symm.trans (ok_of_code_ok hwrite hok))
  have hlen := psmBody_length s
  rw [readBytes_emitSection hswf (by omega)] at h
  rw [psmSize_eq] at hfits
  rw [← psmData_infoLengths, ← Memory.readBytes_length s.mem s.psm.pinfoAddr.toNat s.psm.pinfoLen.toNat] at hroom
  have hfit := Nat.le_trans (Nat.add_le_add_left hroom _) (Nat.le_trans ha.inMem hbytes)
  have hread := exec_psmRead_sealed hfits ha h hvalid (by rwa [List.length_map]) hroom
  have hinfo := readBytes_arena_info
    (psmReadBack_arena (ver := s.psm.ver) (sext := s.psm.sext) hfits hrwf)
  have hinfoLen := (psmReadBack_pinfoLen (ver := s.psm.ver) (sext := s.psm.sext) hfits r).trans
    (ofNat_readBytes_length ..)
  refine ⟨_, hread, rfl, rfl, congrArg (BitVec.ofNat 32) (sealed_length _), psmFlags_ver .., psmFlags_sext .., rfl,
    hinfoLen, ?_, ?_, fun i e e' he he' => ?_⟩
  · rw [Memory.readBytes_length] at hinfo
    rw [hinfoLen]
    exact hinfo
  · exact (psmArenaEntries_length ..).trans (esItems_length.trans (List.length_map _))
  · have hx : (s.psm.entries.map s.psmData)[i]? = some (s.psmData e) := by rw [List.getElem?_map, he, Option.map_some]
    obtain ⟨htype, hid, hlength, hes⟩ := psmReadBack_entry hfits hrwf hfit hx he'
    have hesLen := hlength.trans (ofNat_readBytes_length ..)
    rw [show (s.psmData e).info.length = e.esLen.toNat from Memory.readBytes_length ..] at hes
    refine ⟨htype, hid, hesLen, ?_⟩
    rw [hesLen]
    exact hes

end Sys2Proof.Machine
end

section
/-! The bits of the registers (10_state.md R23, 44_control.md R272, R273): a register's value has no other bits, and a
write to a RW register is read back in its bits and in no other register. A mask either covers a field whole or clears
it, so words are compared field by field. -/

namespace Sys2Proof.Machine

/-! ### Registers of one field -/

theorem setWidth_and_allOnes {n : Nat} (x : BitVec n) :
    x.setWidth 32 &&& (BitVec.allOnes n).setWidth 32 = x.setWidth 32 := by
  rw [← BitVec.setWidth_and, BitVec.and_allOnes]

theorem and_setWidth_allOnes {n : Nat} (v : Word) :
    v &&& (BitVec.allOnes n).setWidth 32 = (v.setWidth n).setWidth 32 := by
  ext k hk
  simp [hk, Bool.and_comm]

/-! ### Registers of several fields -/

theorem statusWord_and_bits (s : State) : s.statusWord &&& 0xFF = s.statusWord := by
  change (_ ++ _ ++ _ ++ _ ++ _ ++ _ : BitVec (24 + 1 + 1 + 1 + 1 + 4)) &&&
    (0#24 ++ BitVec.allOnes 1 ++ BitVec.allOnes 1 ++ BitVec.allOnes 1 ++ BitVec.allOnes 1 ++
      BitVec.allOnes 4) = _
  simp only [BitVec.and_append, BitVec.and_allOnes, BitVec.and_zero]
  rfl

theorem escrHiWord_and_bits (ext : BitVec 9) (base : BitVec 33) :
    escrHiWord ext base &&& 0x01FF0001 = escrHiWord ext base := by
  change (_ ++ _ ++ _ ++ _ : BitVec (7 + 9 + 15 + 1)) &&&
    (0#7 ++ BitVec.allOnes 9 ++ 0#15 ++ BitVec.allOnes 1) = _
  simp only [BitVec.and_append, BitVec.and_allOnes, BitVec.and_zero]
  rfl

theorem stdBufWord_and_bits (b : StdBuf) : stdBufWord b &&& 0x00013FFF = stdBufWord b := by
  change (_ ++ _ ++ _ ++ _ ++ _ : BitVec (15 + 1 + 2 + 1 + 13)) &&&
    (0#15 ++ BitVec.allOnes 1 ++ 0#2 ++ BitVec.allOnes 1 ++ BitVec.allOnes 13) = _
  simp only [BitVec.and_append, BitVec.and_allOnes, BitVec.and_zero]
  rfl

/-- The flags of STATUS (10_state.md R24). -/
theorem statusWord_flags (s : State) :
    s.statusWord.getLsbD 4 = s.cur.err ∧ s.statusWord.getLsbD 5 = s.status.markerErr ∧
      s.statusWord.getLsbD 6 = s.status.ignored ∧ s.statusWord.getLsbD 7 = s.status.mpeg1 := by
  have hflag {k : Nat} {b : Bool} (h : s.statusWord.extractLsb' k 1 = BitVec.ofBool b) :
      s.statusWord.getLsbD k = b := by
    rwa [extractLsb'_one_eq_ofBool, BitVec.ofBool_eq_iff_eq] at h
  obtain ⟨hflags, -⟩ := (extractLsb'_eq_append_iff 28 4).1 (BitVec.extractLsb'_eq_self (x := s.statusWord))
  obtain ⟨hrest, hmarker, herr⟩ := (extractLsb'_eq_append_append_iff 26 1 1).1 hflags
  obtain ⟨-, hmpeg1, hignored⟩ := (extractLsb'_eq_append_append_iff 24 1 1).1 hrest
  exact ⟨hflag herr, hflag hmarker, hflag hignored, hflag hmpeg1⟩

/-- A word cut at the fields of a VER register. -/
theorem eq_append_at_ver (v : Word) :
    v = v.extractLsb' 9 23 ++ BitVec.ofBool (v.getLsbD 8) ++ v.extractLsb' 7 1 ++ BitVec.ofBool (v.getLsbD 6) ++
      v.extractLsb' 5 1 ++ v.setWidth 5 := by
  have hvalid : v.extractLsb' 7 25 = v.extractLsb' 9 23 ++ BitVec.ofBool (v.getLsbD 8) ++ v.extractLsb' 7 1 :=
    (extractLsb'_eq_append_append_iff 23 1 1).2 ⟨rfl, extractLsb'_one_eq_ofBool v 8, rfl⟩
  have hsext : v.extractLsb' 5 27 = _ ++ BitVec.ofBool (v.getLsbD 6) ++ v.extractLsb' 5 1 :=
    (extractLsb'_eq_append_append_iff 25 1 1).2 ⟨hvalid, extractLsb'_one_eq_ofBool v 6, rfl⟩
  have hver : v.extractLsb' 0 5 = v.setWidth 5 := (BitVec.setWidth_eq_extractLsb' (by decide)).symm
  exact BitVec.extractLsb'_eq_self.symm.trans ((extractLsb'_eq_append_iff 27 5).2 ⟨hsext, hver⟩)

/-! The bits of a VER register are the VER word whose fields are all 1; `sext` tells PSM_VER, which has the
single_extension_stream_flag, from PAT_VER and PMT_VER. -/

theorem and_verWord_bits (v : Word) (sext : Bool) :
    v &&& verWord true sext (BitVec.allOnes 5) =
      verWord (v.getLsbD 8) (sext && v.getLsbD 6) (v.setWidth 5) := by
  conv_lhs => rw [eq_append_at_ver v]
  change (_ ++ _ ++ _ ++ _ ++ _ ++ _ : BitVec (23 + 1 + 1 + 1 + 1 + 5)) &&&
    (0#23 ++ BitVec.ofBool true ++ 0#1 ++ BitVec.ofBool sext ++ 0#1 ++ BitVec.allOnes 5) = _
  simp only [BitVec.and_append, BitVec.and_allOnes, BitVec.and_zero, BitVec.ofBool_and_ofBool, Bool.and_true,
    Bool.and_comm _ sext]
  rfl

theorem verWord_and_bits {sext flag : Bool} (hflag : (flag && sext) = flag) (valid : Bool) (ver : BitVec 5) :
    verWord valid flag ver &&& verWord true sext (BitVec.allOnes 5) = verWord valid flag ver := by
  change (_ ++ _ ++ _ ++ _ ++ _ ++ _ : BitVec (23 + 1 + 1 + 1 + 1 + 5)) &&&
    (0#23 ++ BitVec.ofBool true ++ 0#1 ++ BitVec.ofBool sext ++ 0#1 ++ BitVec.allOnes 5) = _
  simp only [BitVec.and_append, BitVec.and_allOnes, BitVec.and_zero, BitVec.ofBool_and_ofBool, Bool.and_true, hflag]
  rfl

/-! ### Every register -/

/-- A bit the register does not have reads 0 (44_control.md R273). -/
theorem readReg_and_regBits (s : State) (r : Reg) : s.readReg r &&& regBits r = s.readReg r := by
  cases r
  case status => exact statusWord_and_bits s
  case escrHi => exact escrHiWord_and_bits _ _
  case stdBuf => exact stdBufWord_and_bits _
  case patVer | pmtVer => exact verWord_and_bits (sext := false) rfl _ _
  case psmVer => exact verWord_and_bits (sext := true) (Bool.and_true _) _ _
  case pesSid | pesPktlen | pesFlags | pesOpt | pesHdrlen | esRate | trick | addcopy | prevCrc | patTsid | patCount
      | pmtProg | pmtPcrPid | pmtCount | psmCount | entA | entB => exact setWidth_and_allOnes _
  all_goals exact BitVec.and_allOnes

theorem readReg_and_not_regBits (s : State) (r : Reg) : s.readReg r &&& ~~~regBits r = 0 := by
  rw [← readReg_and_regBits, BitVec.and_assoc, BitVec.and_not_self]
  exact BitVec.and_zero

/-- The value written, "truncated to the register's bits" (44_control.md R272). -/
theorem readReg_writeReg_same {r : Reg} (hrw : regAccess r = .rw) (s : State) (v : Word) :
    (s.writeReg r v).readReg r = v &&& regBits r := by
  cases r <;> cases hrw
  case pesSid | pesPktlen | pesFlags | patTsid | pmtProg | pmtPcrPid | entA | entB =>
    exact (and_setWidth_allOnes v).symm
  case ptsLo | dtsLo => exact BitVec.extractLsb'_append_eq_right.trans BitVec.and_allOnes.symm
  case ptsHi | dtsHi => exact BitVec.extractLsb'_append_eq_left.trans BitVec.and_allOnes.symm
  case patVer | pmtVer => exact (and_verWord_bits v false).symm
  case psmVer => exact (and_verWord_bits v true).symm
  all_goals exact BitVec.and_allOnes.symm

/-- Each register shows a field of its own; only the LO and HI halves of PTS and of DTS share one. -/
theorem readReg_writeReg {r : Reg} (hrw : regAccess r = .rw) (s : State) (v : Word) :
    (s.writeReg r v).readReg = Function.update s.readReg r (v &&& regBits r) := by
  rw [← readReg_writeReg_same hrw s]
  funext r'
  cases r <;> cases hrw <;> cases r'
  case ptsLo.refl.ptsHi | dtsLo.refl.dtsHi => exact BitVec.extractLsb'_append_eq_left
  case ptsHi.refl.ptsLo | dtsHi.refl.dtsLo => exact BitVec.extractLsb'_append_eq_right
  all_goals rfl

theorem writeReg_of_ro {r : Reg} (hro : regAccess r = .ro) (s : State) (v : Word) : s.writeReg r v = s := by
  cases r <;> cases hro <;> rfl

/-- What no register write changes (44_control.md R272). -/
theorem writeReg_frame (s : State) (r : Reg) (v : Word) :
    (s.writeReg r v).cur = s.cur ∧ (s.writeReg r v).mem = s.mem ∧
      (s.writeReg r v).pat.entries = s.pat.entries ∧ (s.writeReg r v).pmt.entries = s.pmt.entries ∧
      (s.writeReg r v).psm.entries = s.psm.entries ∧ (s.writeReg r v).pc = s.pc := by
  cases r <;> exact ⟨rfl, rfl, rfl, rfl, rfl, rfl⟩

theorem writeStatus_eq (s : State) (v : Word) :
    s.writeStatus v =
      { s with status := { s.status with markerErr := if v.getLsbD 5 then false else s.status.markerErr } } := by
  rw [State.writeStatus]
  cases v.getLsbD 5 <;> simp

end Sys2Proof.Machine
end

section
/-! The host's register accesses (44_control.md R271 to R273) and `NOP` (R270). -/

namespace Sys2Proof.Machine

/-! ### Register writes -/

theorem regAt_eq_some {off : BitVec 9} {r : Reg} : regAt off = some r ↔ off = regOffset r :=
  ⟨regOffset_of_regAt, fun h => h ▸ regAt_regOffset r⟩

theorem legalAccess_word {off : BitVec 9} (halign : off.toNat % 4 = 0) : legalAccess 4 off = true := by
  simp [legalAccess, halign]

section RegisterWrite

variable {s : State} {off : BitVec 9} {v : Word} {r : Reg}

theorem step_command (hev : s.host[s.hostPos]? = some (command v)) :
    step s = launch v { s with hostPos := s.hostPos + 1 } :=
  (step_of_event hev).trans (perform_command ..)

theorem step_regWrite (hev : s.host[s.hostPos]? = some (.regWrite 4 off v)) (halign : off.toNat % 4 = 0)
    (hcmd : regAt off ≠ some .cmd) : step s = .next (hostRegWrite off v { s with hostPos := s.hostPos + 1 }) := by
  have hlegal := legalAccess_word halign
  have hoff : off ≠ regOffset .cmd := mt regAt_eq_some.2 hcmd
  rw [step_of_event hev]
  simp [perform, isCommand, hlegal, hoff]

theorem step_regWrite_named (hev : s.host[s.hostPos]? = some (.regWrite 4 off v)) (halign : off.toNat % 4 = 0)
    (hr : regAt off = some r) (hcmd : r ≠ .cmd) :
    step s = .next (State.writeReg { s with hostPos := s.hostPos + 1 } r v) := by
  rw [step_regWrite hev halign (by simpa [hr] using hcmd), hostRegWrite, hr]

theorem step_regWrite_unnamed (hev : s.host[s.hostPos]? = some (.regWrite 4 off v)) (halign : off.toNat % 4 = 0)
    (hr : regAt off = none) : step s = .next { s with hostPos := s.hostPos + 1 } := by
  rw [step_regWrite hev halign (by simp [hr]), hostRegWrite, hr]

end RegisterWrite

/-! ### CMD writes -/

/-- An illegal word ends as a command that raises InvalidArgument first (44_control.md R271). -/
theorem launch_of_illegal {w : Word} {e : IllegalWord} (h : decode w = .error e) (s : State) :
    launch w s = .next (State.failed { s with cmd := w, pc := s.pc + 1 } .invalidArgument) := by
  simp only [launch, h, State.illegalWord]
  exact congrArg _ (fail_eq_failed ..)

/-- A launch always completes, and leaves the word in CMD (10_state.md R25). -/
theorem launch_stores_cmd (w : Word) (s : State) : ∃ t, launch w s = .next t ∧ t.cmd = w := by
  cases hdec : decode w with
  | ok i =>
    have hrun := launch_of_decode hdec s
    cases hx : pseudocode i { s with cmd := w, pc := s.pc + 1 } with
    | ok t =>
      have ht := exec_of_ok hx
      obtain ⟨⟨-, hcmd, -⟩, -⟩ := commandsChangeTheirUnitOnly i _ _ ht
      exact ⟨t, hrun.trans ht, hcmd⟩
    | error r => exact ⟨_, hrun.trans (exec_eq_next.2 (.inr ⟨r, hx, rfl⟩)), rfl⟩
  | error e => exact ⟨_, launch_of_illegal hdec s, rfl⟩

/-- Settles O7: the failure keeps no write. -/
theorem illegalWordOnlySetsCode : Obligations.IllegalWordOnlySetsCode :=
  fun _ _ _ hev hdec => (step_command hev).trans (launch_of_illegal hdec _)

/-! ### Accesses that write no register -/

/-- A register read or an access through the memory port changes memory and the record of reads only. -/
theorem perform_keeps {e : HostEvent} {s t : State} (h : perform e s = .next t)
    (hwrite : ∀ w o v, e ≠ .regWrite w o v) (hreset : e ≠ .reset) :
    t = { s with mem := t.mem, reads := t.reads } := by
  cases e
  case regWrite w o v => exact absurd rfl (hwrite w o v)
  case reset => exact absurd rfl hreset
  all_goals
    simp only [perform, hostMemWrite, hostMemRead] at h
    split at h <;> cases h
    rfl

/-- Settles O8: the write by the kind of its register, and what every other access leaves. -/
theorem hostRegisterWrite : Obligations.HostRegisterWrite := by
  refine ⟨fun s off v hev halign => ⟨fun r hr hrw => ?_, fun r hr hro => ?_, fun hr => ?_, fun hr => ?_,
    step_regWrite_unnamed hev halign⟩, fun s t e hev h hwrite hreset => ?_⟩
  · have hcmd : r ≠ .cmd := by rintro rfl; cases hrw
    have hread := readReg_writeReg hrw { s with hostPos := s.hostPos + 1 } v
    refine ⟨_, step_regWrite_named hev halign hr hcmd, ?_, fun r' hne => ?_, writeReg_frame ..⟩
    · rw [hread, Function.update_self]
    · rw [hread, Function.update_of_ne hne]
      rfl
  · have hcmd : r ≠ .cmd := by rintro rfl; cases hro
    rw [step_regWrite_named hev halign hr hcmd, writeReg_of_ro hro]
  · exact (step_regWrite_named hev halign hr nofun).trans (congrArg _ (writeStatus_eq ..))
  · obtain rfl := regAt_eq_some.1 hr
    rw [step_command hev]
    exact ⟨rfl, launch_stores_cmd ..⟩
  · rw [step_of_event hev] at h
    rw [perform_keeps h hwrite hreset]
    exact ⟨fun _ => rfl, rfl, rfl, rfl, rfl⟩

/-! ### Register reads -/

section RegisterRead

variable {s : State} {off : BitVec 9}

theorem step_regRead (hev : s.host[s.hostPos]? = some (.regRead 4 off)) (halign : off.toNat % 4 = 0) :
    step s =
      .next { s with hostPos := s.hostPos + 1, reads := .reg off (hostRegValue off s) :: s.reads } := by
  rw [step_of_event hev]
  exact if_pos (legalAccess_word halign)

theorem hostRegValue_named {r : Reg} (hr : regAt off = some r) : hostRegValue off s = s.readReg r := by
  rw [hostRegValue, hr]

theorem hostRegValue_unnamed (hr : regAt off = none) : hostRegValue off s = 0 := by
  rw [hostRegValue, hr]

end RegisterRead

/-- Settles O9: the value recorded, the bits a register has, and the fields of the words read. -/
theorem hostRegisterRead : Obligations.HostRegisterRead := by
  refine ⟨fun s off hev halign => ?_, readReg_and_not_regBits, fun s => ?_⟩
  · rw [step_regRead hev halign]
    exact ⟨fun r hr => by rw [hostRegValue_named hr], fun hr => by rw [hostRegValue_unnamed hr]⟩
  · exact ⟨rfl, rfl, BitVec.extractLsb'_append_eq_right, statusWord_flags s⟩

/-! ### NOP -/

/-- Settles O23: the pseudocode of `NOP` is `done`, and decoding is inverse to encoding. -/
theorem nopResult : Obligations.NopResult := by
  refine ⟨fun s => exec_of_ok (s := s) rfl, fun w => ⟨fun h => ?_, fun h => ?_⟩⟩
  · obtain ⟨-, hw⟩ := wf_and_encode_of_decode h
    exact hw.symm
  · exact h ▸ decode_encode (i := .nop) rfl

end Sys2Proof.Machine
end

section
/-! How a command ends (60_exceptions.md R280 to R283): with OK, or with a code its row of the table of causes allows
and the kept writes of its rule. -/

namespace Sys2Proof.Machine

/-- Every command gives a next state, by one of its successes or by `State.fail`; the engine neither faults nor
refuses (R283, R285). -/
theorem exec_ends (i : Instr) (s : State) :
    ∃ t, exec i s = .next t ∧ (Succeeds i s t ∨ ∃ r, pseudocode i s = .error r ∧ t = s.fail r) := by
  cases hp : pseudocode i s with
  | ok t => exact ⟨t, exec_of_ok hp, .inl (pseudocode_ok hp)⟩
  | error r => exact ⟨s.fail r, exec_eq_next.2 (.inr ⟨r, hp, rfl⟩), .inr ⟨r, rfl, rfl⟩⟩

/-! ### Success -/

/-- Only a section reader sets IGNORED (43_psi.md R240 step 7). -/
theorem Succeeds.isSectionReader_of_ignored {i : Instr} {s t : State} (h : Succeeds i s t)
    (hig : t.status.ignored = true) : isSectionReader i = true := by
  cases h with
  | patIgnored | patRebuilt | pmtIgnored | pmtRebuilt | psmIgnored | psmRebuilt => rfl
  | _ => cases hig

theorem mayRaise_ok (i : Instr) : mayRaise i .ok = true := by cases i <;> rfl

/-! ### Failure -/

section Failure

variable {i : Instr} {s : State} {r : Raise}

/-- `cur.err`, RESULT and RESULT_HI are all that a rule can keep beside CODE and IGNORED. -/
theorem fail_eq_failed_keeping (s : State) (r : Raise) :
    s.fail r =
      { s.failed r.code with
        cur := { s.cur with err := (s.fail r).cur.err }
        result := (s.fail r).result
        resultHi := (s.fail r).resultHi } := rfl

theorem keepErr_of_fail_err_ne (h : (s.fail r).cur.err ≠ s.cur.err) : r.keepErr = true := by
  cases hk : r.keepErr with
  | true => rfl
  | false => exact absurd (by simp [hk]) h

theorem fail_err_of_keepErr (h : r.keepErr = true) : (s.fail r).cur.err = true := by simp [h]

theorem fail_results_cases (herr : pseudocode i s = .error r) :
    ((s.fail r).result = s.result ∧ (s.fail r).resultHi = s.resultHi) ∨
      ((s.fail r).result = 0 ∧ (s.fail r).resultHi = 0 ∧ ∃ n, i = .curRead n) := by
  obtain ⟨-, -, -, -, hread⟩ := pseudocode_error herr
  cases hk : r.keepDefault with
  | true => exact .inr ⟨by simp [hk], by simp [hk], hread hk⟩
  | false => exact .inl ⟨by simp [hk], by simp [hk]⟩

end Failure

/-- Settles O13: a success ends in `done`, and a failure keeps only what its rule keeps. -/
theorem successOrFailure : Obligations.SuccessOrFailure := by
  intro i s
  obtain ⟨t, hexec, hs | ⟨r, herr, rfl⟩⟩ := exec_ends i s
  · exact ⟨t, hexec, .inl ⟨hs.code_ok, hs.isSectionReader_of_ignored⟩⟩
  · obtain ⟨-, hnotOk, hnotWrite, hdata, -⟩ := pseudocode_error herr
    refine ⟨_, hexec, .inr ⟨hnotOk, hnotWrite, fail_eq_failed_keeping s r, fun hne => ?_,
      fail_results_cases herr⟩⟩
    have hkeep := keepErr_of_fail_err_ne hne
    exact ⟨fail_err_of_keepErr hkeep, hdata hkeep⟩

/-- Settles O14: every row allows OK, and the pseudocode fails only with a code of its row. -/
theorem onlyListedCauses : Obligations.OnlyListedCauses := by
  intro i s t h
  rcases exec_eq_next.1 h with hok | ⟨r, herr, rfl⟩
  · rw [(pseudocode_ok hok).code_ok]
    exact mayRaise_ok i
  · exact (pseudocode_error herr).1

end Sys2Proof.Machine
end

section
/-! What reset leaves in the registers and the lists (70_reset_and_hazards.md R300, R301), at power-on and between
commands. -/

namespace Sys2Proof.Machine

/-- What no register shows (10_state.md R23): the parameters, memory, and the host's sequence with its indices and
the record of its reads. -/
theorem readReg_unaffected (s : State) (p : Params) (m : Memory) (h : List HostEvent) (k n : Nat)
    (d : List HostData) (r : Reg) :
    State.readReg { s with params := p, mem := m, host := h, hostPos := k, pc := n, reads := d } r = s.readReg r := by
  cases r <;> rfl

/-- The reset column of 10_state.md R23, row by row. -/
theorem readReg_reset (r : Reg) : State.reset.readReg r = resetValue r := by
  cases r <;> decide

@[simp] theorem readReg_resetWith (p : Params) (m : Memory) (r : Reg) :
    (State.resetWith p m).readReg r = resetValue r :=
  (readReg_unaffected State.reset p m [] 0 0 [] r).trans (readReg_reset r)

/-- What a reset between commands keeps (log 11) is what no register shows. -/
@[simp] theorem readReg_platformReset (s : State) (r : Reg) : (platformReset s).readReg r = resetValue r :=
  (readReg_unaffected State.reset s.params s.mem s.host s.hostPos s.pc s.reads r).trans (readReg_reset r)

theorem step_reset {s : State} (h : s.host[s.hostPos]? = some .reset) :
    step s = .next (platformReset { s with hostPos := s.hostPos + 1 }) :=
  step_of_event h

/-- Settles O12: at power-on and between commands the registers show the reset column; cursor and lists are at
their defaults, and what a reset between commands keeps is copied. -/
theorem resetValues : Obligations.ResetValues := by
  refine ⟨fun p m => ?powerOn, fun s hev => ?betweenCommands⟩
  case powerOn => exact ⟨readReg_resetWith p m, State.resetWith_cur p m, rfl, rfl, rfl⟩
  case betweenCommands =>
    exact ⟨_, step_reset hev, readReg_platformReset _, rfl, rfl, rfl, rfl, rfl, rfl, rfl, rfl, rfl, rfl⟩

end Sys2Proof.Machine
end
